-- ==== Sys2Proof/Word.lean ====
section
/-! DEFINITION. The bit-vector widths of the Transpose Engine (spec/00_scope.md R10, R11). -/

namespace Sys2Proof

/-- One byte of memory, or one byte lane (R11, R60). -/
abbrev Byte := BitVec 8

/-- A dword: an address register, a control register, a command, a dword lane (R11, R21). -/
abbrev Word := BitVec 32

/-- A qword: a qword lane (R11). -/
abbrev Qword := BitVec 64

/-- A half: one of the two 128-bit lanes of a vector register (R11, R24). -/
abbrev Half := BitVec 128

/-- A whole 256-bit vector register (R11, R24). -/
abbrev Vec := BitVec 256

end Sys2Proof
end

