-- ==== Sys2Proof/Config.lean ====
section
/-! DEFINITION. What is fixed for the machine: the constants of spec/00_scope.md R5, the model's choices for what the
spec leaves to the platform, and the one parameter nothing depends on. -/

namespace Sys2Proof.Config

/-- The size of the address space, 2^32 bytes (00_scope.md R5 AW, 20_memory.md R60). -/
def addressSpace : Nat := 4294967296

/-- The identity word of control register ID (10_state.md R31). -/
def idValue : Word := 0x54450001#32

/-- What a populated byte that nothing has written reads as. DESIGN CHOICE (log 3), unsafe: the spec gives memory no
value before it is written (10_state.md R48: reset does not change it). -/
def unwrittenByte : Byte := 0#8

/-- TE_BASE, where the platform places the host register block in the host's own address space: OPEN, and no rule
depends on its value (10_state.md R29). Safe: a constant without a body (log 15). -/
opaque teBase : Nat

/-- The host's address of control register number `k`: an aligned word at byte offset 4·k from TE_BASE
(10_state.md R29). -/
def hostRegisterAddress (k : Nat) : Nat := teBase + 4 * k

end Sys2Proof.Config
end

