-- ==== Sys2Proof/Machine/State.lean ====
section
/-! DEFINITION. The state of the machine (spec/10_state.md R20), the model's stops, and the state after reset
(10_state.md R48). -/

namespace Sys2Proof.Machine

/-- STATE, the engine state (10_state.md R33, R47). -/
inductive RunState where
  | idle
  | run
  | done
  | fault
deriving DecidableEq, Repr

/-- A register with its valid bit (10_state.md R23, R26). While `valid` is false the data bits are unspecified, and no
command can observe them. -/
structure Slot (width : Nat) where
  data : BitVec width
  valid : Bool
deriving DecidableEq, Repr

/-- A run of populated addresses, `base` to `base + size − 1` (20_memory.md R62). -/
structure Region where
  base : Nat
  size : Nat
deriving DecidableEq, Repr

/-- Memory: (address, byte) pairs. In its canonical form (`Memory.wf`) equal memories are equal lists. An address that is
not listed holds `Config.unwrittenByte`. -/
abbrev Memory := List Host.Cell

/-- The canonical form of memory: addresses strictly rise, and no entry holds what an unlisted address reads as. -/
abbrev Memory.wf (m : Memory) : Prop :=
  m.Pairwise (fun p q => p.1 < q.1) ∧ ∀ p ∈ m, p.2 ≠ Config.unwrittenByte

/-- A move of the host (70_reset_and_hazards.md R336). -/
inductive HostMove where
  /-- (a) read control register number k: the host sees `hostReadRegister`; no side effect (10_state.md R30 (a)). -/
  | readRegister (k : Nat)
  /-- (b) write control register number k (10_state.md R30, R32, R339). -/
  | writeRegister (k : Nat) (v : BitVec 32)
  /-- (c) read `count` bytes of memory from `addr`: the host sees `readBytes`. -/
  | readMemory (addr count : Nat)
  /-- (d) write bytes to memory from `addr` up. -/
  | writeMemory (addr : Nat) (bytes : List (BitVec 8))
  /-- (e) assert the reset input (R330). -/
  | assertReset
deriving DecidableEq, Repr

/-- One entry of the list that says which agent moves next (R336: engine steps and host steps interleave). -/
inductive Turn where
  | engine
  | host (m : HostMove)
deriving DecidableEq, Repr

/-- The state: the architectural state of 10_state.md R20, the platform parameter MEM (`populated`), and which agent moves
next (`turns`). -/
structure State where
  /-- A0..A7 with their valid bits (R21, R23). -/
  a : Vector (Slot 32) 8
  /-- The low halves V[n].h[0] with their valid bits (R24, R26). -/
  vlo : Vector (Slot 128) 32
  /-- The high halves V[n].h[1] with their valid bits (R24, R26). -/
  vhi : Vector (Slot 128) 32
  /-- The command pointer (R28), control register PC (R38). -/
  pc : BitVec 32
  /-- STATE (R33, R47). -/
  status : RunState
  /-- Control register CAUSE (R34). -/
  cause : BitVec 32
  /-- Control register FPC (R35). -/
  fpc : BitVec 32
  /-- Control register FINFO (R36). -/
  finfo : BitVec 32
  /-- Control register ENTRY (R37). -/
  entry : BitVec 32
  /-- Control register SRC (R39). -/
  src : BitVec 32
  /-- Control register LEN (R40). -/
  len : BitVec 32
  /-- Control register DSTP (R41). -/
  dstp : BitVec 32
  /-- Control register N (R42). -/
  n : BitVec 32
  /-- Control register L (R43). -/
  l : BitVec 32
  /-- Memory (R44, 20_memory.md R60). -/
  mem : Memory
  /-- MEM, the populated addresses (20_memory.md R62): a parameter of the platform, carried here as data so that a
  statement about every state holds for every MEM; no step changes it (log 2). -/
  populated : List Region
  /-- Which agent moves next; when the list is empty the engine does (log 5). -/
  turns : List Turn
deriving DecidableEq, Repr

/-- The stops of the model that are no fault of the engine (every fault of the engine is a next state, R300). -/
inductive Fault where
  /-- A host memory move touches `addr`, which is not in MEM: raised by `hostStep` only, never by a command. The spec gives
  the host no such access (R336 gives it the memory the engine sees). Safe (log 8). -/
  | hostOutsideMemory (addr : Nat)
deriving DecidableEq, Repr

/-- The moves the model does not make. -/
inductive Refusal where
  /-- An instruction without a meaning: raised by an arm of `exec` only. No arm of this model raises it. Safe. -/
  | notModelled (mnemonic : String)
  /-- A host memory move while STATE = RUN: raised by `hostStep` only. The spec's model has no such step
  (70_reset_and_hazards.md R337, 93_implementation_defined.md U3). Safe (log 7). -/
  | hostMemoryDuringRun
deriving DecidableEq, Repr

/-- The machine after reset (10_state.md R48). The data of the invalid registers (log 4), the memory contents (log 3) and
MEM (log 2) are the model's choices. -/
def State.reset : State where
  a := Vector.replicate 8 ⟨0#32, false⟩
  vlo := Vector.replicate 32 ⟨0#128, false⟩
  vhi := Vector.replicate 32 ⟨0#128, false⟩
  pc := 0#32
  status := .idle
  cause := 0#32
  fpc := 0#32
  finfo := 0#32
  entry := 0#32
  src := 0#32
  len := 0#32
  dstp := 0#32
  n := 0#32
  l := 0#32
  mem := []
  populated := [⟨0, Config.addressSpace⟩]
  turns := []

end Sys2Proof.Machine
end

