-- ==== Sys2Proof/Syntax.lean ====
section
/-! DEFINITION. The commands of the engine: one constructor of `Instr` per row of spec/opcode_table.json, in its order
(30_encoding.md R104), and the names their operand fields take (R92, R93). -/

namespace Sys2Proof

/-- The number of an address register A0..A7 (30_encoding.md R93). -/
abbrev AReg := Fin 8

/-- The number of a vector register V0..V31 (30_encoding.md R93). -/
abbrev VReg := Fin 32

/-- The width field w: 0 is a 128-bit operation, 1 a 256-bit operation (10_state.md R25). -/
inductive Width where
  | w128
  | w256
deriving DecidableEq, Repr

/-- A 128-bit lane of a vector register: `h0` is bits 127:0, `h1` is bits 255:128 (00_scope.md R11). -/
inductive Lane where
  | h0
  | h1
deriving DecidableEq, Repr

/-- The 13 control registers, in the order of their numbers 0..12 (10_state.md R29). -/
inductive Csr where
  | id
  | ctrl
  | status
  | cause
  | fpc
  | finfo
  | entry
  | pc
  | src
  | len
  | dstp
  | n
  | l
deriving DecidableEq, Repr

/-- The 14 strategies of DEMUX, in the order of their numbers 0..13 (41_demux_contract.md R156). -/
inductive Strategy where
  | ref
  | rowm
  | wc4
  | wc8
  | rc4
  | rc8
  | x4s
  | x4q
  | x8
  | x16
  | y4
  | y16
  | y32
  | copy
deriving DecidableEq, Repr

/-- One command. The fields stand in the order of the encoding, most significant first (30_encoding.md R92). -/
inductive Instr where
  /-- NOP (R120). -/
  | nop
  /-- HALT (R121). -/
  | halt
  /-- ABORT imm (R122). -/
  | abort (imm : BitVec 24)
  /-- JMP target (R124). -/
  | jmp (imm : BitVec 24)
  /-- DBNZ Ad, target (R125). -/
  | dbnz (ad : AReg) (imm : BitVec 16)
  /-- LAI Ad, imm (R126). -/
  | lai (ad : AReg) (imm : BitVec 16)
  /-- LAHI Ad, imm (R127). -/
  | lahi (ad : AReg) (imm : BitVec 16)
  /-- ADDAI Ad, As, imm (R128). -/
  | addai (ad ra : AReg) (imm : BitVec 16)
  /-- ADDA Ad, As1, As2 (R129). -/
  | adda (ad ra rb : AReg)
  /-- LDA Ad, [As + off] (R130). -/
  | lda (ad ra : AReg) (imm : BitVec 16)
  /-- CSRR Ad, NAME (R131). -/
  | csrr (ad : AReg) (csr : Csr)
  /-- CSRW NAME, As (R132). -/
  | csrw (ra : AReg) (csr : Csr)
  /-- VLD.w Vd, [As + off] (R200). -/
  | vld (vd : VReg) (ra : AReg) (w : Width) (imm : BitVec 12)
  /-- VLDU.w Vd, [As + off] (R201). -/
  | vldu (vd : VReg) (ra : AReg) (w : Width) (imm : BitVec 12)
  /-- VST.w Vs, [As + off] (R202). -/
  | vst (vs : VReg) (ra : AReg) (w : Width) (imm : BitVec 12)
  /-- VSTU.w Vs, [As + off] (R203). -/
  | vstu (vs : VReg) (ra : AReg) (w : Width) (imm : BitVec 12)
  /-- VLDQ Vd, [As + off] (R204). -/
  | vldq (vd : VReg) (ra : AReg) (imm : BitVec 12)
  /-- VSTQ Vs.q[q], [As + off] (R205). -/
  | vstq (vs : VReg) (ra : AReg) (q : Fin 4) (imm : BitVec 12)
  /-- VSTW Vs.d[k], [As + off] (R206). -/
  | vstw (vs : VReg) (ra : AReg) (k : Fin 8) (imm : BitVec 12)
  /-- VLDG.w Vd, [As + off], At (R207). -/
  | vldg (vd : VReg) (ra rt : AReg) (w : Width) (imm : BitVec 12)
  /-- VMOV.w Vd, Vs (R220). -/
  | vmov (vd vs : VReg) (w : Width)
  /-- PERMB.w Vd, Vs, Vc (R221). -/
  | permb (vd vs vc : VReg) (w : Width)
  /-- PERMD.w Vd, Vs, imm (R222). -/
  | permd (vd vs : VReg) (w : Width) (imm : BitVec 8)
  /-- UNPKLD.w Vd, Vs1, Vs2 (R223). -/
  | unpkld (vd va vb : VReg) (w : Width)
  /-- UNPKHD.w Vd, Vs1, Vs2 (R224). -/
  | unpkhd (vd va vb : VReg) (w : Width)
  /-- UNPKLQ.w Vd, Vs1, Vs2 (R225). -/
  | unpklq (vd va vb : VReg) (w : Width)
  /-- UNPKHQ.w Vd, Vs1, Vs2 (R226). -/
  | unpkhq (vd va vb : VReg) (w : Width)
  /-- COMB Vd, Vs1.h[sa], Vs2.h[sb] (R227). -/
  | comb (vd va vb : VReg) (sa sb : Lane)
  /-- BTRN4.w Vd, Vs (R241). -/
  | btrn4 (vd vs : VReg) (w : Width)
  /-- TRN4D.w Vd/2^ds, Vs/2^ss (R242). -/
  | trn4d (vd vs : VReg) (ds ss : Fin 4) (w : Width)
  /-- TRN8B Vd, Vs (R245). -/
  | trn8b (vd vs : VReg)
  /-- TRN16B.w Vd, Vs (R247). -/
  | trn16b (vd vs : VReg) (w : Width)
  /-- TRN32B (R250). -/
  | trn32b
  /-- DEMUX strat (R150). -/
  | demux (strat : Strategy)
deriving DecidableEq, Repr

end Sys2Proof
end

