-- ==== Sys2Proof/Machine/Ops.lean ====
section
/-! DEFINITION. The shared operations: memory (spec/20_memory.md), registers and valid bits (10_state.md R23, R26), checks
and raised faults (00_scope.md R12, R13), fault entry and the way out of it (60_exceptions.md R300, R304). -/

namespace Sys2Proof.Machine

/-- What a meaning answers. -/
abbrev Result := Host.Outcome State Fault Refusal

/-! ### Bytes of a value -/

/-- Byte lane `i` of a value, bits 8i+7:8i (00_scope.md R11). -/
def byteOf {width : Nat} (x : BitVec width) (i : Nat) : Byte := x.extractLsb' (8 * i) 8

/-- The natural number whose bytes are given, least significant first (20_memory.md R63). -/
def natOfBytes : List Byte → Nat
  | [] => 0
  | b :: bs => b.toNat + 256 * natOfBytes bs

/-- The value whose byte lanes are given, lane 0 first (20_memory.md R63, R64). -/
def ofBytes (width : Nat) (bs : List Byte) : BitVec width := BitVec.ofNat width (natOfBytes bs)

/-- The byte lanes of a value, lane 0 first. -/
def bytesOf {width : Nat} (x : BitVec width) : List Byte := (List.range (width / 8)).map (byteOf x)

/-! ### Memory -/

/-- The byte at an address (20_memory.md R60, R71). -/
def Memory.read : Memory → Nat → Byte
  | [], _ => Config.unwrittenByte
  | (x, b) :: rest, a => if x = a then b else Memory.read rest a

/-- Puts an entry before the first entry with a higher address. -/
def Memory.insert : Memory → Nat → Byte → Memory
  | [], a, b => [(a, b)]
  | (x, c) :: rest, a, b => if a < x then (a, b) :: (x, c) :: rest else (x, c) :: Memory.insert rest a b

/-- Writes the byte at an address, keeping the canonical form: writing what an unlisted address reads as removes the entry
(R71). -/
def Memory.write (m : Memory) (a : Nat) (b : Byte) : Memory :=
  if b = Config.unwrittenByte then m.filter (fun p => p.1 ≠ a)
  else Memory.insert (m.filter (fun p => p.1 ≠ a)) a b

/-- The `count` bytes from an address up. -/
def Memory.readBytes (m : Memory) (a count : Nat) : List Byte := (List.range count).map (fun i => m.read (a + i))

/-- Writes bytes from an address up, the lowest address first. -/
def Memory.writeBytes : Memory → Nat → List Byte → Memory
  | m, _, [] => m
  | m, a, b :: bs => Memory.writeBytes (m.write a b) (a + 1) bs

/-- MemRead(addr, width/8): little-endian, the byte at addr least significant (00_scope.md R12, 20_memory.md R63). -/
def Memory.load (width : Nat) (m : Memory) (a : Nat) : BitVec width := ofBytes width (m.readBytes a (width / 8))

/-- MemWrite(addr, width/8, v): byte i of v to address addr + i (00_scope.md R12, 20_memory.md R63). -/
def Memory.store {width : Nat} (m : Memory) (a : Nat) (v : BitVec width) : Memory := m.writeBytes a (bytesOf v)

/-- The byte at an address, in a state: the model's read of one byte. -/
def readByte (s : State) (a : Nat) : Byte := s.mem.read a

/-! ### Raised faults (60_exceptions.md R296) -/

/-- The 12 causes of a fault. -/
inductive Cause where
  | illegalCommand
  | fetchMisaligned
  | fetchAccess
  | uninitRead
  | shuffleControl
  | misaligned
  | access
  | shape
  | granularity
  | overlap
  | layout
  | softwareAbort
deriving DecidableEq, Repr

/-- CODE, the value recorded in CAUSE[7:0] (R296). -/
def Cause.code : Cause → Word
  | .illegalCommand => 1#32
  | .fetchMisaligned => 2#32
  | .fetchAccess => 3#32
  | .uninitRead => 4#32
  | .shuffleControl => 5#32
  | .misaligned => 6#32
  | .access => 7#32
  | .shape => 8#32
  | .granularity => 9#32
  | .overlap => 10#32
  | .layout => 11#32
  | .softwareAbort => 12#32

/-- A raised fault: its cause and its information word (00_scope.md R12: raise Fault(info)). -/
structure Raised where
  cause : Cause
  info : Word
deriving DecidableEq, Repr

/-- A check or a computation that may raise a fault; while it may, nothing is written (00_scope.md R13). -/
abbrev Check (α : Type) := Except Raised α

/-- raise <Fault>(info), with the information a natural number below 2^32. -/
def raise {α : Type} (c : Cause) (info : Nat) : Check α := .error ⟨c, BitVec.ofNat 32 info⟩

/-- Fault entry (60_exceptions.md R300): CAUSE, FPC, FINFO and STATE are written in one action, nothing else changes. -/
def takeFault (s : State) (f : Raised) : State :=
  { s with status := .fault, cause := f.cause.code, fpc := s.pc, finfo := f.info }

/-- The way out of FAULT is reset, and there is no other (R304): every piece of state takes its reset value, memory and the
platform's MEM stay (10_state.md R48, 70_reset_and_hazards.md R330), and the moves still to come are still to come. -/
def resetEngine (s : State) : State :=
  { State.reset with mem := s.mem, populated := s.populated, turns := s.turns }

/-- The end of a command (00_scope.md R8, R13): the state its rule gives or, if a check raised a fault, fault entry. -/
def conclude (s : State) (r : Check State) : Result :=
  match r with
  | .ok t => .next t
  | .error f => .next (takeFault s f)

/-- A command that does not set pc ends with pc <- (pc + 4) mod 2^32 (00_scope.md R12, 10_state.md R28). -/
def advance (s : State) : State := { s with pc := s.pc + 4#32 }

/-! ### Populated memory and the access check -/

/-- The address exists and is in MEM (20_memory.md R60, R62). -/
def inMem (s : State) (a : Nat) : Bool :=
  decide (a < Config.addressSpace) && s.populated.any (fun r => decide (r.base ≤ a) && decide (a < r.base + r.size))

/-- The lowest address of a .. a+count−1 that is not in MEM, if there is one (20_memory.md R66 step 3). -/
def firstMissing (s : State) (a : Nat) : Nat → Option Nat
  | 0 => none
  | count + 1 => if inMem s a then firstMissing s (a + 1) count else some a

/-- CheckAccess(addr, n, align) (20_memory.md R66): alignment, then the top of the address space, then MEM. -/
def checkAccess (s : State) (addr count align : Nat) : Check Unit :=
  if addr % align ≠ 0 then raise .misaligned addr
  else if addr + count > Config.addressSpace then raise .access addr
  else
    match firstMissing s addr count with
    | some a => raise .access a
    | none => .ok ()

/-! ### Registers -/

/-- A[i], read: UninitRead(64 + i) if its valid bit is clear (00_scope.md R12, 10_state.md R23). -/
def readA (s : State) (i : AReg) : Check Word :=
  if s.a[i].valid then .ok s.a[i].data else raise .uninitRead (64 + i.val)

/-- A[i] <- v: the register is written and its valid bit set (00_scope.md R12, 10_state.md R23). -/
def writeA (s : State) (i : AReg) (v : Word) : State := { s with a := s.a.set i ⟨v, true⟩ }

/-- Half h of vector register n with its valid bit (10_state.md R24, R26). -/
def half (s : State) (n : VReg) : Lane → Slot 128
  | .h0 => s.vlo[n]
  | .h1 => s.vhi[n]

/-- V[n].h[k], read: UninitRead(n + 32k) if its valid bit is clear (00_scope.md R12, 10_state.md R26). -/
def readHalf (s : State) (n : VReg) (h : Lane) : Check Half :=
  if (half s n h).valid then .ok (half s n h).data
  else
    match h with
    | .h0 => raise .uninitRead n.val
    | .h1 => raise .uninitRead (n.val + 32)

/-- V[n].h[k] <- v: that half is written and its valid bit set; the other half keeps its value and its valid bit
(00_scope.md R12, 10_state.md R26). -/
def writeHalf (s : State) (n : VReg) (h : Lane) (v : Half) : State :=
  match h with
  | .h0 => { s with vlo := s.vlo.set n ⟨v, true⟩ }
  | .h1 => { s with vhi := s.vhi.set n ⟨v, true⟩ }

/-- Both halves of a register, h[0] read before h[1] (10_state.md R25). -/
def readBoth (s : State) (n : VReg) : Check (Half × Half) := do
  let lo ← readHalf s n .h0
  let hi ← readHalf s n .h1
  return (lo, hi)

/-- Writes both halves of a register. -/
def writeBoth (s : State) (n : VReg) (x : Half × Half) : State := writeHalf (writeHalf s n .h0 x.1) n .h1 x.2

/-- Writes one half of each of a group of registers. -/
def writeGroup (s : State) (h : Lane) : List (VReg × Half) → State
  | [] => s
  | (n, x) :: rest => writeGroup (writeHalf s n h x) h rest

/-- All valid bits cleared, as reset and every accepted GO do (10_state.md R27). The data bits stay: they are unspecified
and no command observes them (log 4). -/
def invalidate (s : State) : State :=
  { s with
    a := Vector.ofFn (fun i => { s.a[i] with valid := false })
    vlo := Vector.ofFn (fun i => { s.vlo[i] with valid := false })
    vhi := Vector.ofFn (fun i => { s.vhi[i] with valid := false }) }

end Sys2Proof.Machine
end

