-- ==== Sys2Proof/Machine/Flags.lean ====
section
/-! DEFINITION. Conditions. The engine has no status flags and no condition codes (spec/10_state.md R45): there is one
condition, the counter test of DBNZ, and two level outputs that are functions of STATE (00_scope.md R7). -/

namespace Sys2Proof.Machine

/-- The counter DBNZ writes back: (A[ad] − 1) mod 2^32 (40_control_address.md R125). -/
def countDown (x : Word) : Word := x - 1#32

/-- The one condition a command tests: the decremented counter is not zero (10_state.md R45, 40_control_address.md R125). -/
def branchTaken (t : Word) : Bool := t ≠ 0#32

/-- The number STATE reads as in STATUS[1:0] (10_state.md R33). -/
def RunState.code : RunState → Word
  | .idle => 0#32
  | .run => 1#32
  | .done => 2#32
  | .fault => 3#32

/-- The output `done`: true exactly in DONE (00_scope.md R7 (c), 10_state.md R47). -/
def State.doneOut (s : State) : Bool := s.status = .done

/-- The output `fault`: true exactly in FAULT (00_scope.md R7 (c), 10_state.md R47). -/
def State.faultOut (s : State) : Bool := s.status = .fault

end Sys2Proof.Machine
end

