-- ==== Sys2Proof/Decode.lean ====
section
/-! DEFINITION. The encoding of commands (spec/30_encoding.md): the numbers of the named operand fields, the value checks,
the decoder (total, rejecting by name), the encoder, and the opcode table R104 with its match and mask. -/

namespace Sys2Proof

/-! ### Numbers of the named fields -/

/-- The width bit w (R93). -/
def Width.bit : Width → BitVec 1
  | .w128 => 0#1
  | .w256 => 1#1

/-- The width a w bit names (R93). -/
def Width.ofBit (b : BitVec 1) : Width := if b = 1#1 then .w256 else .w128

/-- The number of a 128-bit lane, 0 or 1 (00_scope.md R11). -/
def Lane.index : Lane → Nat
  | .h0 => 0
  | .h1 => 1

/-- One selector bit of COMB (R98). -/
def Lane.bit : Lane → BitVec 1
  | .h0 => 0#1
  | .h1 => 1#1

/-- The lane a selector bit of COMB names (R98). -/
def Lane.ofBit (b : BitVec 1) : Lane := if b = 1#1 then .h1 else .h0

/-- The number of a control register (10_state.md R29). -/
def Csr.number : Csr → Nat
  | .id => 0
  | .ctrl => 1
  | .status => 2
  | .cause => 3
  | .fpc => 4
  | .finfo => 5
  | .entry => 6
  | .pc => 7
  | .src => 8
  | .len => 9
  | .dstp => 10
  | .n => 11
  | .l => 12

/-- The control register of a number, none above 12 (10_state.md R29, R30 (f)). -/
def Csr.ofNumber : Nat → Option Csr
  | 0 => some .id
  | 1 => some .ctrl
  | 2 => some .status
  | 3 => some .cause
  | 4 => some .fpc
  | 5 => some .finfo
  | 6 => some .entry
  | 7 => some .pc
  | 8 => some .src
  | 9 => some .len
  | 10 => some .dstp
  | 11 => some .n
  | 12 => some .l
  | _ => none

/-- The number of a strategy (41_demux_contract.md R156). -/
def Strategy.number : Strategy → Nat
  | .ref => 0
  | .rowm => 1
  | .wc4 => 2
  | .wc8 => 3
  | .rc4 => 4
  | .rc8 => 5
  | .x4s => 6
  | .x4q => 7
  | .x8 => 8
  | .x16 => 9
  | .y4 => 10
  | .y16 => 11
  | .y32 => 12
  | .copy => 13

/-- The strategy of a number, none for 14 and 15 (41_demux_contract.md R156). -/
def Strategy.ofNumber : Nat → Option Strategy
  | 0 => some .ref
  | 1 => some .rowm
  | 2 => some .wc4
  | 3 => some .wc8
  | 4 => some .rc4
  | 5 => some .rc8
  | 6 => some .x4s
  | 7 => some .x4q
  | 8 => some .x8
  | 9 => some .x16
  | 10 => some .y4
  | 11 => some .y16
  | 12 => some .y32
  | 13 => some .copy
  | _ => none

/-! ### Value checks made after the match (R104) -/

/-- The control registers CSRW may write: 6, 8, 9, 10, 11, 12 (40_control_address.md R132). -/
def Csr.writable : Csr → Bool
  | .entry => true
  | .src => true
  | .len => true
  | .dstp => true
  | .n => true
  | .l => true
  | .id => false
  | .ctrl => false
  | .status => false
  | .cause => false
  | .fpc => false
  | .finfo => false
  | .pc => false

/-- A group of `count` registers from `first` with stride 2^`logStride` lies in V0..V31: its last number, computed as a
natural, is at most 31 (R93, 45_register_transpose.md R243). -/
def groupFits (first : VReg) (logStride count : Nat) : Bool :=
  decide (first.val + (count - 1) * 2 ^ logStride ≤ 31)

/-! ### The decoder -/

/-- Why a word is not a command. In the machine each of them is the one fault IllegalCommand (R106). -/
inductive DecodeError where
  /-- (a) the opcode is not one of the 34 of R104. -/
  | unassignedOpcode
  /-- (b) a zero field of the format is not zero. -/
  | mustBeZero
  /-- (c) a control register number that does not exist or that CSRW may not write. -/
  | controlRegister
  /-- (c) a computed vector register number above 31. -/
  | registerGroup
  /-- (c) strategy number 14 or 15. -/
  | strategyNumber
  /-- Fewer than four bytes were given: raised by `decodeBytes` only, never by the machine's fetch. Safe. -/
  | truncated
deriving DecidableEq, Repr

/-- Bits lo+len−1 .. lo of a command. -/
def field (w : Word) (lo len : Nat) : BitVec len := w.extractLsb' lo len

/-- An address-register field whose lowest bit is `lo` (R93). -/
def aField (w : Word) (lo : Nat) : AReg := (field w lo 3).toFin

/-- A vector-register field whose lowest bit is `lo` (R93). -/
def vField (w : Word) (lo : Nat) : VReg := (field w lo 5).toFin

/-- The width bit at `lo` (R93). -/
def wField (w : Word) (lo : Nat) : Width := Width.ofBit (field w lo 1)

/-- `r`, if the zero field of a format is zero (R92, R106 (b)). -/
def requireZero (zero : Bool) (r : Except DecodeError Instr) : Except DecodeError Instr :=
  if zero then r else .error .mustBeZero

/-- `r`, if a value check holds (R104, R106 (c)). -/
def requireValue (ok : Bool) (e : DecodeError) (r : Except DecodeError Instr) : Except DecodeError Instr :=
  if ok then r else .error e

/-- Format Z: no operands, bits 23:0 zero (R92). -/
def decodeZ (w : Word) (i : Instr) : Except DecodeError Instr :=
  requireZero (field w 0 24 == 0#24) (.ok i)

/-- Format AI without a source register: bits 20:16 zero (R92: LAI, LAHI, DBNZ). -/
def decodeAI1 (w : Word) (mk : AReg → BitVec 16 → Instr) : Except DecodeError Instr :=
  requireZero (field w 16 5 == 0#5) (.ok (mk (aField w 21) (field w 0 16)))

/-- Format AI with a source register: bits 17:16 zero (R92: ADDAI, LDA). -/
def decodeAI2 (w : Word) (mk : AReg → AReg → BitVec 16 → Instr) : Except DecodeError Instr :=
  requireZero (field w 16 2 == 0#2) (.ok (mk (aField w 21) (aField w 18) (field w 0 16)))

/-- Format C: bits 20:8 zero, and a control register that exists and passes `allowed` (R92, R104). -/
def decodeC (w : Word) (allowed : Csr → Bool) (mk : AReg → Csr → Instr) : Except DecodeError Instr :=
  requireZero (field w 8 13 == 0#13)
    (match Csr.ofNumber (field w 0 8).toNat with
    | some c => requireValue (allowed c) .controlRegister (.ok (mk (aField w 21) c))
    | none => .error .controlRegister)

/-- Format M with a width bit: bits 15:13 zero (R92: VLD, VLDU, VST, VSTU). -/
def decodeM (w : Word) (mk : VReg → AReg → Width → BitVec 12 → Instr) : Except DecodeError Instr :=
  requireZero (field w 13 3 == 0#3) (.ok (mk (vField w 19) (aField w 16) (wField w 12) (field w 0 12)))

/-- Format V3: bits 7:0 zero (R92: PERMB and the interleaves). -/
def decodeV3 (w : Word) (mk : VReg → VReg → VReg → Width → Instr) : Except DecodeError Instr :=
  requireZero (field w 0 8 == 0#8) (.ok (mk (vField w 19) (vField w 14) (vField w 9) (wField w 8)))

/-- Format V2 with imm8 zero: bits 13:9 and 7:0 zero (R92: VMOV, BTRN4). -/
def decodeV2 (w : Word) (mk : VReg → VReg → Width → Instr) : Except DecodeError Instr :=
  requireZero (field w 9 5 == 0#5 && field w 0 8 == 0#8) (.ok (mk (vField w 19) (vField w 14) (wField w 8)))

/-- The decoder: the command of a 32-bit word, or why there is none (R91, R92, R104, R106). -/
def decode (w : Word) : Except DecodeError Instr :=
  match (field w 24 8).toNat with
  | 0x01 => decodeZ w .nop
  | 0x02 => decodeZ w .halt
  | 0x03 => .ok (.abort (field w 0 24))
  | 0x04 => .ok (.jmp (field w 0 24))
  | 0x05 => decodeAI1 w .dbnz
  | 0x10 => decodeAI1 w .lai
  | 0x11 => decodeAI1 w .lahi
  | 0x12 => decodeAI2 w .addai
  | 0x13 => requireZero (field w 0 15 == 0#15) (.ok (.adda (aField w 21) (aField w 18) (aField w 15)))
  | 0x14 => decodeAI2 w .lda
  | 0x15 => decodeC w (fun _ => true) .csrr
  | 0x16 => decodeC w Csr.writable .csrw
  | 0x20 => decodeM w .vld
  | 0x21 => decodeM w .vldu
  | 0x22 => decodeM w .vst
  | 0x23 => decodeM w .vstu
  | 0x24 => requireZero (field w 12 4 == 0#4) (.ok (.vldq (vField w 19) (aField w 16) (field w 0 12)))
  | 0x25 => requireZero (field w 14 2 == 0#2)
      (.ok (.vstq (vField w 19) (aField w 16) (field w 12 2).toFin (field w 0 12)))
  | 0x26 => requireZero (field w 15 1 == 0#1)
      (.ok (.vstw (vField w 19) (aField w 16) (field w 12 3).toFin (field w 0 12)))
  | 0x27 => .ok (.vldg (vField w 19) (aField w 16) (aField w 13) (wField w 12) (field w 0 12))
  | 0x30 => decodeV2 w .vmov
  | 0x31 => decodeV3 w .permb
  | 0x32 => requireZero (field w 9 5 == 0#5)
      (.ok (.permd (vField w 19) (vField w 14) (wField w 8) (field w 0 8)))
  | 0x33 => decodeV3 w .unpkld
  | 0x34 => decodeV3 w .unpkhd
  | 0x35 => decodeV3 w .unpklq
  | 0x36 => decodeV3 w .unpkhq
  | 0x37 => requireZero (field w 2 7 == 0#7)
      (.ok (.comb (vField w 19) (vField w 14) (vField w 9) (Lane.ofBit (field w 0 1)) (Lane.ofBit (field w 1 1))))
  | 0x40 => decodeV2 w .btrn4
  | 0x41 => requireZero (field w 9 1 == 0#1 && field w 0 8 == 0#8)
      (requireValue (groupFits (vField w 19) (field w 12 2).toNat 4 && groupFits (vField w 14) (field w 10 2).toNat 4)
        .registerGroup
        (.ok (.trn4d (vField w 19) (vField w 14) (field w 12 2).toFin (field w 10 2).toFin (wField w 8))))
  | 0x42 => requireZero (field w 0 14 == 0#14)
      (requireValue (groupFits (vField w 19) 0 8 && groupFits (vField w 14) 0 8) .registerGroup
        (.ok (.trn8b (vField w 19) (vField w 14))))
  | 0x43 => requireZero (field w 9 5 == 0#5 && field w 0 8 == 0#8)
      (requireValue (groupFits (vField w 19) 0 16 && groupFits (vField w 14) 0 16) .registerGroup
        (.ok (.trn16b (vField w 19) (vField w 14) (wField w 8))))
  | 0x44 => decodeZ w .trn32b
  | 0x50 => requireZero (field w 4 20 == 0#20)
      (match Strategy.ofNumber (field w 0 4).toNat with
      | some st => .ok (.demux st)
      | none => .error .strategyNumber)
  | _ => .error .unassignedOpcode

/-- A 32-bit word from four bytes, the first at the lowest address and least significant (20_memory.md R65). -/
def wordOfBytes (b0 b1 b2 b3 : Byte) : Word := (b3 ++ b2 ++ b1 ++ b0 : BitVec (8 + 8 + 8 + 8))

/-- Decodes the command at the head of a run of bytes; the rest of the run stays over (R90: always four bytes). -/
def decodeBytes : List Byte → Except DecodeError (Instr × List Byte)
  | b0 :: b1 :: b2 :: b3 :: rest =>
    match decode (wordOfBytes b0 b1 b2 b3) with
    | .ok i => .ok (i, rest)
    | .error e => .error e
  | _ => .error .truncated

/-- The four bytes a command's word is stored as, lowest address first (20_memory.md R63, R65). -/
def commandBytes (w : Word) : List Byte := [field w 0 8, field w 8 8, field w 16 8, field w 24 8]

/-- The command the decoder reads from a table row's word `w` of `nbits` bits, laid out in memory order; the bits above
`nbits` are zero. -/
def decodeTableWord (nbits w : Nat) : Option Instr :=
  match decodeBytes (commandBytes (BitVec.ofNat 32 (w % 2 ^ nbits))) with
  | .ok (i, _) => some i
  | .error _ => none

/-! ### The encoder -/

/-- The bits of an address-register field (R93). -/
def aBits (r : AReg) : BitVec 3 := BitVec.ofFin r

/-- The bits of a vector-register field (R93). -/
def vBits (r : VReg) : BitVec 5 := BitVec.ofFin r

/-- Format Z (R92). -/
def encodeZ (op : BitVec 8) : Word := (op ++ 0#24 : BitVec (8 + 24))

/-- Format I24 (R92). -/
def encodeI24 (op : BitVec 8) (imm : BitVec 24) : Word := (op ++ imm : BitVec (8 + 24))

/-- Format AI with the as field zero (R92). -/
def encodeAI1 (op : BitVec 8) (ad : AReg) (imm : BitVec 16) : Word :=
  (op ++ aBits ad ++ 0#5 ++ imm : BitVec (8 + 3 + 5 + 16))

/-- Format AI (R92). -/
def encodeAI2 (op : BitVec 8) (ad ra : AReg) (imm : BitVec 16) : Word :=
  (op ++ aBits ad ++ aBits ra ++ 0#2 ++ imm : BitVec (8 + 3 + 3 + 2 + 16))

/-- Format C (R92). -/
def encodeC (op : BitVec 8) (r : AReg) (csr : Csr) : Word :=
  (op ++ aBits r ++ 0#13 ++ BitVec.ofNat 8 csr.number : BitVec (8 + 3 + 13 + 8))

/-- Format M; `sub` is bits 15:12 (R92). -/
def encodeM (op : BitVec 8) (v : VReg) (ra : AReg) (sub : BitVec 4) (imm : BitVec 12) : Word :=
  (op ++ vBits v ++ aBits ra ++ sub ++ imm : BitVec (8 + 5 + 3 + 4 + 12))

/-- Formats V3, V2, VC and T share the places of two vector registers; `low` is bits 13:0 (R92). -/
def encodeV (op : BitVec 8) (vd vs : VReg) (low : BitVec 14) : Word :=
  (op ++ vBits vd ++ vBits vs ++ low : BitVec (8 + 5 + 5 + 14))

/-- Format V3 (R92). -/
def encodeV3 (op : BitVec 8) (vd va vb : VReg) (w : Width) : Word :=
  encodeV op vd va (vBits vb ++ w.bit ++ 0#8 : BitVec (5 + 1 + 8))

/-- Format V2 (R92). -/
def encodeV2 (op : BitVec 8) (vd vs : VReg) (w : Width) (imm : BitVec 8) : Word :=
  encodeV op vd vs (0#5 ++ w.bit ++ imm : BitVec (5 + 1 + 8))

/-- Format T (R92). -/
def encodeT (op : BitVec 8) (vd vs : VReg) (ds ss : Fin 4) (w : Width) : Word :=
  encodeV op vd vs (BitVec.ofFin (w := 2) ds ++ BitVec.ofFin (w := 2) ss ++ 0#1 ++ w.bit ++ 0#8 : BitVec (2 + 2 + 1 + 1 + 8))

/-- The word of a command, written from the formats of R92 and the opcodes of R104. It is total: a command that is not
well formed gets the word that holds its fields, which is an illegal word (log 13). -/
def encode : Instr → Word
  | .nop => encodeZ 0x01#8
  | .halt => encodeZ 0x02#8
  | .abort imm => encodeI24 0x03#8 imm
  | .jmp imm => encodeI24 0x04#8 imm
  | .dbnz ad imm => encodeAI1 0x05#8 ad imm
  | .lai ad imm => encodeAI1 0x10#8 ad imm
  | .lahi ad imm => encodeAI1 0x11#8 ad imm
  | .addai ad ra imm => encodeAI2 0x12#8 ad ra imm
  | .adda ad ra rb => (0x13#8 ++ aBits ad ++ aBits ra ++ aBits rb ++ 0#15 : BitVec (8 + 3 + 3 + 3 + 15))
  | .lda ad ra imm => encodeAI2 0x14#8 ad ra imm
  | .csrr ad csr => encodeC 0x15#8 ad csr
  | .csrw ra csr => encodeC 0x16#8 ra csr
  | .vld vd ra w imm => encodeM 0x20#8 vd ra (0#3 ++ w.bit : BitVec (3 + 1)) imm
  | .vldu vd ra w imm => encodeM 0x21#8 vd ra (0#3 ++ w.bit : BitVec (3 + 1)) imm
  | .vst vs ra w imm => encodeM 0x22#8 vs ra (0#3 ++ w.bit : BitVec (3 + 1)) imm
  | .vstu vs ra w imm => encodeM 0x23#8 vs ra (0#3 ++ w.bit : BitVec (3 + 1)) imm
  | .vldq vd ra imm => encodeM 0x24#8 vd ra 0#4 imm
  | .vstq vs ra q imm => encodeM 0x25#8 vs ra (0#2 ++ BitVec.ofFin (w := 2) q : BitVec (2 + 2)) imm
  | .vstw vs ra k imm => encodeM 0x26#8 vs ra (0#1 ++ BitVec.ofFin (w := 3) k : BitVec (1 + 3)) imm
  | .vldg vd ra rt w imm => encodeM 0x27#8 vd ra (aBits rt ++ w.bit : BitVec (3 + 1)) imm
  | .vmov vd vs w => encodeV2 0x30#8 vd vs w 0#8
  | .permb vd vs vc w => encodeV3 0x31#8 vd vs vc w
  | .permd vd vs w imm => encodeV2 0x32#8 vd vs w imm
  | .unpkld vd va vb w => encodeV3 0x33#8 vd va vb w
  | .unpkhd vd va vb w => encodeV3 0x34#8 vd va vb w
  | .unpklq vd va vb w => encodeV3 0x35#8 vd va vb w
  | .unpkhq vd va vb w => encodeV3 0x36#8 vd va vb w
  | .comb vd va vb sa sb => encodeV 0x37#8 vd va (vBits vb ++ 0#7 ++ sb.bit ++ sa.bit : BitVec (5 + 7 + 1 + 1))
  | .btrn4 vd vs w => encodeV2 0x40#8 vd vs w 0#8
  | .trn4d vd vs ds ss w => encodeT 0x41#8 vd vs ds ss w
  | .trn8b vd vs => encodeT 0x42#8 vd vs 0 0 .w128
  | .trn16b vd vs w => encodeT 0x43#8 vd vs 0 0 w
  | .trn32b => encodeZ 0x44#8
  | .demux st => (0x50#8 ++ 0#20 ++ BitVec.ofNat 4 st.number : BitVec (8 + 20 + 4))

/-! ### The opcode table -/

/-- One row of the opcode table: a word w is of the row when (w AND mask) = match (R104). -/
structure OpcodeRow where
  mnemonic : String
  pattern : Word
  mask : Word
deriving DecidableEq, Repr

/-- The row of the opcode table that a command belongs to (R104). -/
def Instr.row : Instr → OpcodeRow
  | .nop => ⟨"NOP", 0x01000000#32, 0xFFFFFFFF#32⟩
  | .halt => ⟨"HALT", 0x02000000#32, 0xFFFFFFFF#32⟩
  | .abort _ => ⟨"ABORT", 0x03000000#32, 0xFF000000#32⟩
  | .jmp _ => ⟨"JMP", 0x04000000#32, 0xFF000000#32⟩
  | .dbnz _ _ => ⟨"DBNZ", 0x05000000#32, 0xFF1F0000#32⟩
  | .lai _ _ => ⟨"LAI", 0x10000000#32, 0xFF1F0000#32⟩
  | .lahi _ _ => ⟨"LAHI", 0x11000000#32, 0xFF1F0000#32⟩
  | .addai _ _ _ => ⟨"ADDAI", 0x12000000#32, 0xFF030000#32⟩
  | .adda _ _ _ => ⟨"ADDA", 0x13000000#32, 0xFF007FFF#32⟩
  | .lda _ _ _ => ⟨"LDA", 0x14000000#32, 0xFF030000#32⟩
  | .csrr _ _ => ⟨"CSRR", 0x15000000#32, 0xFF1FFF00#32⟩
  | .csrw _ _ => ⟨"CSRW", 0x16000000#32, 0xFF1FFF00#32⟩
  | .vld _ _ _ _ => ⟨"VLD", 0x20000000#32, 0xFF00E000#32⟩
  | .vldu _ _ _ _ => ⟨"VLDU", 0x21000000#32, 0xFF00E000#32⟩
  | .vst _ _ _ _ => ⟨"VST", 0x22000000#32, 0xFF00E000#32⟩
  | .vstu _ _ _ _ => ⟨"VSTU", 0x23000000#32, 0xFF00E000#32⟩
  | .vldq _ _ _ => ⟨"VLDQ", 0x24000000#32, 0xFF00F000#32⟩
  | .vstq _ _ _ _ => ⟨"VSTQ", 0x25000000#32, 0xFF00C000#32⟩
  | .vstw _ _ _ _ => ⟨"VSTW", 0x26000000#32, 0xFF008000#32⟩
  | .vldg _ _ _ _ _ => ⟨"VLDG", 0x27000000#32, 0xFF000000#32⟩
  | .vmov _ _ _ => ⟨"VMOV", 0x30000000#32, 0xFF003EFF#32⟩
  | .permb _ _ _ _ => ⟨"PERMB", 0x31000000#32, 0xFF0000FF#32⟩
  | .permd _ _ _ _ => ⟨"PERMD", 0x32000000#32, 0xFF003E00#32⟩
  | .unpkld _ _ _ _ => ⟨"UNPKLD", 0x33000000#32, 0xFF0000FF#32⟩
  | .unpkhd _ _ _ _ => ⟨"UNPKHD", 0x34000000#32, 0xFF0000FF#32⟩
  | .unpklq _ _ _ _ => ⟨"UNPKLQ", 0x35000000#32, 0xFF0000FF#32⟩
  | .unpkhq _ _ _ _ => ⟨"UNPKHQ", 0x36000000#32, 0xFF0000FF#32⟩
  | .comb _ _ _ _ _ => ⟨"COMB", 0x37000000#32, 0xFF0001FC#32⟩
  | .btrn4 _ _ _ => ⟨"BTRN4", 0x40000000#32, 0xFF003EFF#32⟩
  | .trn4d _ _ _ _ _ => ⟨"TRN4D", 0x41000000#32, 0xFF0002FF#32⟩
  | .trn8b _ _ => ⟨"TRN8B", 0x42000000#32, 0xFF003FFF#32⟩
  | .trn16b _ _ _ => ⟨"TRN16B", 0x43000000#32, 0xFF003EFF#32⟩
  | .trn32b => ⟨"TRN32B", 0x44000000#32, 0xFFFFFFFF#32⟩
  | .demux _ => ⟨"DEMUX", 0x50000000#32, 0xFFFFFFF0#32⟩

end Sys2Proof
end

