-- ==== Sys2Proof/WellFormed.lean ====
section
/-! DEFINITION. The value checks of 30_encoding.md R104 that the operand types do not already make: which commands are
encodings of a legal word. The two checks themselves (`Csr.writable`, `groupFits`) stand beside the decoder. -/

namespace Sys2Proof

/-- The value checks made after the match (30_encoding.md R104): the commands that have an encoding. -/
def Instr.wellFormed : Instr → Bool
  | .csrw _ csr => csr.writable
  | .trn4d vd vs ds ss _ => groupFits vd ds.val 4 && groupFits vs ss.val 4
  | .trn8b vd vs => groupFits vd 0 8 && groupFits vs 0 8
  | .trn16b vd vs _ => groupFits vd 0 16 && groupFits vs 0 16
  | .nop => true
  | .halt => true
  | .abort _ => true
  | .jmp _ => true
  | .dbnz _ _ => true
  | .lai _ _ => true
  | .lahi _ _ => true
  | .addai _ _ _ => true
  | .adda _ _ _ => true
  | .lda _ _ _ => true
  | .csrr _ _ => true
  | .vld _ _ _ _ => true
  | .vldu _ _ _ _ => true
  | .vst _ _ _ _ => true
  | .vstu _ _ _ _ => true
  | .vldq _ _ _ => true
  | .vstq _ _ _ _ => true
  | .vstw _ _ _ _ => true
  | .vldg _ _ _ _ _ => true
  | .vmov _ _ _ => true
  | .permb _ _ _ _ => true
  | .permd _ _ _ _ => true
  | .unpkld _ _ _ _ => true
  | .unpkhd _ _ _ _ => true
  | .unpklq _ _ _ _ => true
  | .unpkhq _ _ _ _ => true
  | .comb _ _ _ _ _ => true
  | .btrn4 _ _ _ => true
  | .trn32b => true
  | .demux _ => true

end Sys2Proof
end

