-- ==== Sys2Proof/Machine/Operands.lean ====
section
/-! DEFINITION. The operand forms: lane views of vector values (spec/00_scope.md R11), effective addresses (20_memory.md
R69), branch targets (30_encoding.md R94, R95), register groups (R93), and the decode-time check (00_scope.md R13 (1)). -/

namespace Sys2Proof.Machine

/-! ### Lanes of a value -/

/-- Dword lane `j`, bits 32j+31:32j (00_scope.md R11). -/
def dwordOf {width : Nat} (x : BitVec width) (j : Nat) : Word := x.extractLsb' (32 * j) 32

/-- Qword lane `j`, bits 64j+63:64j (00_scope.md R11). -/
def qwordOf {width : Nat} (x : BitVec width) (j : Nat) : Qword := x.extractLsb' (64 * j) 64

/-- The half whose dword lanes are d0 (least significant) to d3. -/
def halfOfDwords (d0 d1 d2 d3 : Word) : Half := (d3 ++ d2 ++ d1 ++ d0 : BitVec (32 + 32 + 32 + 32))

/-- The half whose qword lanes are q0 (least significant) and q1. -/
def halfOfQwords (q0 q1 : Qword) : Half := (q1 ++ q0 : BitVec (64 + 64))

/-- The 256-bit value whose 128-bit lanes are h0 (least significant) and h1. -/
def vecOfHalves (h0 h1 : Half) : Vec := (h1 ++ h0 : BitVec (128 + 128))

/-- The low 128-bit lane of a 256-bit value, bits 127:0. -/
def lowHalf (x : Vec) : Half := x.extractLsb' 0 128

/-- The high 128-bit lane of a 256-bit value, bits 255:128. -/
def highHalf (x : Vec) : Half := x.extractLsb' 128 128

/-- The half whose byte lane i is `f i`. -/
def halfOfFn (f : Nat → Byte) : Half := ofBytes 128 ((List.range 16).map f)

/-- The 256-bit value whose byte lane i is `f i`. -/
def vecOfFn (f : Nat → Byte) : Vec := ofBytes 256 ((List.range 32).map f)

/-! ### Addresses -/

/-- The byte address a word holds. -/
def addrOf (x : Word) : Nat := x.toNat

/-- (base + sext_16(imm16)) mod 2^32 (30_encoding.md R94, 20_memory.md R69). -/
def address16 (base : Word) (imm : BitVec 16) : Word := base + imm.signExtend 32

/-- (base + sext_12(simm12)) mod 2^32 (30_encoding.md R96, 20_memory.md R69). -/
def address12 (base : Word) (imm : BitVec 12) : Word := base + imm.signExtend 32

/-- (base + sext_12(simm12) + k·stride) mod 2^32, element k of a gather (43_vector_memory.md R207). -/
def gatherAddress (base stride : Word) (imm : BitVec 12) (k : Nat) : Word :=
  base + imm.signExtend 32 + BitVec.ofNat 32 k * stride

/-- (pc + 4·sext_16(imm16)) mod 2^32, the target of DBNZ (30_encoding.md R94). -/
def target16 (pc : Word) (imm : BitVec 16) : Word := pc + 4#32 * imm.signExtend 32

/-- (pc + 4·sext_24(imm24)) mod 2^32, the target of JMP (30_encoding.md R95). -/
def target24 (pc : Word) (imm : BitVec 24) : Word := pc + 4#32 * imm.signExtend 32

/-- The bytes a vector access of a width moves: 16 or 32 (43_vector_memory.md R200). -/
def widthBytes : Width → Nat
  | .w128 => 16
  | .w256 => 32

/-! ### Register groups -/

/-- Register first + k·2^logStride, computed as a natural (30_encoding.md R93). It is used only where the group fits, so
that no number is above 31. -/
def groupReg (first : VReg) (logStride k : Nat) : VReg := Fin.ofNat 32 (first.val + k * 2 ^ logStride)

/-- A group of `count` registers (45_register_transpose.md R243). -/
def groupRegs (first : VReg) (logStride count : Nat) : List VReg :=
  (List.range count).map (groupReg first logStride)

/-- Reads one half of each register of a group, in order. -/
def readGroup (s : State) (h : Lane) : List VReg → Check (List Half)
  | [] => .ok []
  | n :: rest => do
    let x ← readHalf s n h
    let xs ← readGroup s h rest
    return x :: xs

/-- Reads both halves of each register of a group: registers in order, h[0] before h[1] (45_register_transpose.md R242). -/
def readGroupBoth (s : State) : List VReg → Check (List (Half × Half))
  | [] => .ok []
  | n :: rest => do
    let x ← readBoth s n
    let xs ← readGroupBoth s rest
    return x :: xs

/-! ### The decode-time check -/

/-- Step (1) of a command (00_scope.md R13): a command whose fields are out of range is IllegalCommand, with its word as
information (30_encoding.md R106). No word the decoder accepts is one (log 13). -/
def requireLegal (i : Instr) : Check Unit :=
  if i.wellFormed then .ok () else .error ⟨.illegalCommand, encode i⟩

end Sys2Proof.Machine
end

