-- ==== Sys2Proof/Machine/Address.lean ====
section
/-! DEFINITION. The address-unit commands and control-register access (spec/40_control_address.md R126 to R132). -/

namespace Sys2Proof.Machine

/-- LAI Ad, imm (R126): A[ad] <- zext_16(imm16). -/
def execLai (ad : AReg) (imm : BitVec 16) (s : State) : Result :=
  conclude s (.ok (advance (writeA s ad (imm.setWidth 32))))

/-- LAHI Ad, imm (R127): bits 31:16 replaced, bits 15:0 kept. -/
def execLahi (ad : AReg) (imm : BitVec 16) (s : State) : Result :=
  conclude s do
    let t ← readA s ad
    return advance (writeA s ad (imm ++ t.extractLsb' 0 16 : BitVec (16 + 16)))

/-- ADDAI Ad, As, imm (R128). -/
def execAddai (ad ra : AReg) (imm : BitVec 16) (s : State) : Result :=
  conclude s do
    let x ← readA s ra
    return advance (writeA s ad (address16 x imm))

/-- ADDA Ad, As1, As2 (R129). -/
def execAdda (ad ra rb : AReg) (s : State) : Result :=
  conclude s do
    let x ← readA s ra
    let y ← readA s rb
    return advance (writeA s ad (x + y))

/-- LDA Ad, [As + off] (R130). -/
def execLda (ad ra : AReg) (imm : BitVec 16) (s : State) : Result :=
  conclude s do
    let x ← readA s ra
    let ea := addrOf (address16 x imm)
    checkAccess s ea 4 4
    return advance (writeA s ad (s.mem.load 32 ea))

/-- The value a command reads from a control register (R131): STATUS reads 1 and CAUSE, FPC, FINFO read 0, because
commands execute only in RUN (10_state.md R33, R34; log 12). -/
def csrValue (s : State) : Csr → Word
  | .id => Config.idValue
  | .ctrl => 0#32
  | .status => 1#32
  | .cause => 0#32
  | .fpc => 0#32
  | .finfo => 0#32
  | .entry => s.entry
  | .pc => s.pc
  | .src => s.src
  | .len => s.len
  | .dstp => s.dstp
  | .n => s.n
  | .l => s.l

/-- Stores all 32 bits into a read-write control register (10_state.md R30 (e)); a read-only one is not changed. -/
def writeCsr (s : State) (v : Word) : Csr → State
  | .entry => { s with entry := v }
  | .src => { s with src := v }
  | .len => { s with len := v }
  | .dstp => { s with dstp := v }
  | .n => { s with n := v }
  | .l => { s with l := v }
  | .id => s
  | .ctrl => s
  | .status => s
  | .cause => s
  | .fpc => s
  | .finfo => s
  | .pc => s

/-- CSRR Ad, NAME (R131). -/
def execCsrr (ad : AReg) (csr : Csr) (s : State) : Result :=
  conclude s (.ok (advance (writeA s ad (csrValue s csr))))

/-- CSRW NAME, As (R132). -/
def execCsrw (ra : AReg) (csr : Csr) (s : State) : Result :=
  conclude s do
    requireLegal (.csrw ra csr)
    let x ← readA s ra
    return advance (writeCsr s x csr)

end Sys2Proof.Machine
end

