-- ==== Sys2Proof/Machine/Control.lean ====
section
/-! DEFINITION. The control commands (spec/40_control_address.md R120 to R125). -/

namespace Sys2Proof.Machine

/-- NOP (R120). -/
def execNop (s : State) : Result := conclude s (.ok (advance s))

/-- HALT (R121): STATE <- DONE, pc keeps the address of the HALT. -/
def execHalt (s : State) : Result := conclude s (.ok { s with status := .done })

/-- ABORT imm (R122): raises SoftwareAbort(zext_24(imm24)), always. -/
def execAbort (imm : BitVec 24) (s : State) : Result := conclude s (raise .softwareAbort imm.toNat)

/-- JMP target (R124). -/
def execJmp (imm : BitVec 24) (s : State) : Result := conclude s (.ok { s with pc := target24 s.pc imm })

/-- DBNZ Ad, target (R125). -/
def execDbnz (ad : AReg) (imm : BitVec 16) (s : State) : Result :=
  conclude s do
    let x ← readA s ad
    let t := countDown x
    let s' := writeA s ad t
    return if branchTaken t then { s' with pc := target16 s.pc imm } else advance s'

end Sys2Proof.Machine
end

