-- ==== Sys2Proof/Machine/Lanes.lean ====
section
/-! DEFINITION. The pure functions of the shuffle network (spec/44_shuffle_network.md) and of the register transposes
(45_register_transpose.md), on values rather than on register numbers: the commands and the DEMUX strategies share them
(46_demux_simd.md R260). -/

namespace Sys2Proof.Machine

/-! ### The shuffle network -/

/-- PERMB on one half (R221): byte i is the source byte whose index is control byte i. It is used only where every
control byte is at most 15. -/
def permbHalf (x c : Half) : Half := halfOfFn (fun i => byteOf x (byteOf c i).toNat)

/-- The first control byte above 15 of a half, from byte `i` up with `count` bytes to test (R221). -/
def badControl (c : Half) (i : Nat) : Nat → Option Nat
  | 0 => none
  | count + 1 => if (byteOf c i).toNat > 15 then some i else badControl c (i + 1) count

/-- PERMD on one half (R222): dword j is the source dword named by selector j, imm8[2j+1:2j] (30_encoding.md R98). -/
def permdHalf (imm : BitVec 8) (x : Half) : Half :=
  let sel := fun j => (imm.extractLsb' (2 * j) 2).toNat
  halfOfDwords (dwordOf x (sel 0)) (dwordOf x (sel 1)) (dwordOf x (sel 2)) (dwordOf x (sel 3))

/-- UNPKLD on one half (R223). -/
def unpkldHalf (a b : Half) : Half := halfOfDwords (dwordOf a 0) (dwordOf b 0) (dwordOf a 1) (dwordOf b 1)

/-- UNPKHD on one half (R224). -/
def unpkhdHalf (a b : Half) : Half := halfOfDwords (dwordOf a 2) (dwordOf b 2) (dwordOf a 3) (dwordOf b 3)

/-- UNPKLQ on one half (R225). -/
def unpklqHalf (a b : Half) : Half := halfOfQwords (qwordOf a 0) (qwordOf b 0)

/-- UNPKHQ on one half (R226). -/
def unpkhqHalf (a b : Half) : Half := halfOfQwords (qwordOf a 1) (qwordOf b 1)

/-! ### The register transposes -/

/-- BTRN4 on one half (R241): y.b[4k + j] = x.b[4j + k]. -/
def btrn4Half (x : Half) : Half := halfOfFn (fun i => byteOf x (4 * (i % 4) + i / 4))

/-- TRN4D on four halves (R242): out_i.d[j] = in_j.d[i]. -/
def trn4dRows (rows : List Half) : List Half :=
  (List.range 4).map (fun i =>
    let d := fun j => dwordOf (rows.getD j 0#128) i
    halfOfDwords (d 0) (d 1) (d 2) (d 3))

/-- TRN8B on eight halves (R245): out_j.b[i] = in_i.b[j] for i < 8, and bytes 8..15 are zero. -/
def trn8bRows (rows : List Half) : List Half :=
  (List.range 8).map (fun j => halfOfFn (fun i => if i < 8 then byteOf (rows.getD i 0#128) j else 0#8))

/-- TRN16B on sixteen halves (R247): out_j.b[i] = in_i.b[j]. -/
def trn16bRows (rows : List Half) : List Half :=
  (List.range 16).map (fun j => halfOfFn (fun i => byteOf (rows.getD i 0#128) j))

/-- TRN32B on 32 whole registers (R250): out_j.b[i] = in_i.b[j]. -/
def trn32bRows (rows : List Vec) : List Vec :=
  (List.range 32).map (fun j => vecOfFn (fun i => byteOf (rows.getD i 0#256) j))

end Sys2Proof.Machine
end

