-- ==== Sys2Proof/Machine/Demux.lean ====
section
/-! DEFINITION. The DEMUX command: its checks in the order of spec/41_demux_contract.md R157, and each strategy as its own
loops and accesses (42_demux_scalar.md R180 to R186, 46_demux_simd.md R260 to R277). That the strategies 0 to 12 meet
the contract R151 is a statement about these definitions, not part of them. -/

namespace Sys2Proof.Machine

/-! ### The strategy table and the descriptor -/

/-- What a strategy requires: granularities of N and L, alignments of SRC and of every plane (R156). -/
structure StrategyRow where
  gN : Nat
  gL : Nat
  aSrc : Nat
  aDst : Nat
deriving DecidableEq, Repr

/-- The strategy table (R156). -/
def strategyRow : Strategy → StrategyRow
  | .ref => ⟨1, 1, 1, 1⟩
  | .rowm => ⟨1, 1, 1, 1⟩
  | .wc4 => ⟨1, 4, 1, 4⟩
  | .wc8 => ⟨1, 8, 1, 8⟩
  | .rc4 => ⟨4, 4, 4, 4⟩
  | .rc8 => ⟨8, 8, 8, 8⟩
  | .x4s => ⟨4, 4, 4, 4⟩
  | .x4q => ⟨4, 16, 4, 16⟩
  | .x8 => ⟨8, 8, 8, 8⟩
  | .x16 => ⟨16, 16, 16, 16⟩
  | .y4 => ⟨4, 32, 4, 32⟩
  | .y16 => ⟨16, 32, 16, 32⟩
  | .y32 => ⟨32, 32, 32, 32⟩
  | .copy => ⟨1, 1, 1, 1⟩

/-- The five descriptor registers, read as naturals (R150, R152). -/
structure Descriptor where
  src : Nat
  len : Nat
  dstp : Nat
  n : Nat
  l : Nat
deriving DecidableEq, Repr

/-- The descriptor of a state. -/
def descriptor (s : State) : Descriptor := ⟨s.src.toNat, s.len.toNat, s.dstp.toNat, s.n.toNat, s.l.toNat⟩

/-! ### The checks -/

/-- Steps 2 to 6 of R157: shape and granularity, on the register values alone (R153). -/
def checkShape (row : StrategyRow) (d : Descriptor) : Check Unit :=
  if d.n = 0 then raise .shape 0
  else if d.l = 0 then raise .shape 1
  else if d.n * d.l ≠ d.len then raise .shape 2
  else if d.n % row.gN ≠ 0 then raise .granularity 0
  else if d.l % row.gL ≠ 0 then raise .granularity 1
  else .ok ()

/-- Steps 7 and 8 of R157: the alignment of SRC and of DSTP (R154 (1), (2)). -/
def checkAlign (row : StrategyRow) (d : Descriptor) : Check Unit :=
  if d.src % row.aSrc ≠ 0 then raise .misaligned d.src
  else if d.dstp % 4 ≠ 0 then raise .misaligned d.dstp
  else .ok ()

/-- Step 13 of R157: P[0..N−1], read from the pointer table in ascending order (R161). -/
def readTable (m : Memory) (dstp n : Nat) : List Nat :=
  (List.range n).map (fun c => (m.load 32 (dstp + 4 * c)).toNat)

/-- Steps 14 to 16 of R157 for the planes of a list, in order: alignment, then range, plane by plane (R154 (6)). -/
def checkPlanes (s : State) (row : StrategyRow) (l : Nat) : List Nat → Check Unit
  | [] => .ok ()
  | p :: rest => do
    checkAccess s p l row.aDst
    checkPlanes s row l rest

/-- Step 17 of R157, COPY only: the lowest c ≥ 1 with P[c] ≠ P[0] + c·L raises Layout(c) (R155 (1)). -/
def checkLayout (table : List Nat) (l : Nat) : Check Unit :=
  match (List.range table.length).find? (fun c => table.getD c 0 ≠ table.getD 0 0 + c * l) with
  | some c => raise .layout c
  | none => .ok ()

/-- The byte ranges [a, a+m) and [b, b+k) overlap (R155 (2)). -/
def rangesOverlap (a m b k : Nat) : Bool := decide (a < b + k) && decide (b < a + m)

/-- Plane c overlaps the source, the table or an earlier plane (R155 (2)). -/
def planeOverlaps (d : Descriptor) (table : List Nat) (c : Nat) : Bool :=
  let p := table.getD c 0
  rangesOverlap p d.l d.src d.len || rangesOverlap p d.l d.dstp (4 * d.n) ||
    (List.range c).any (fun e => rangesOverlap p d.l (table.getD e 0) d.l)

/-- Step 18 of R157: the lowest c whose plane overlaps raises Overlap(c) (R155 (2)). -/
def checkOverlap (d : Descriptor) (table : List Nat) : Check Unit :=
  match (List.range table.length).find? (planeOverlaps d table) with
  | some c => raise .overlap c
  | none => .ok ()

/-- Steps 2 to 18 of R157: every check of a DEMUX, and the pointer table it read. -/
def demuxChecks (st : Strategy) (s : State) : Check (List Nat) := do
  let row := strategyRow st
  let d := descriptor s
  checkShape row d
  checkAlign row d
  checkAccess s d.src d.len 1
  checkAccess s d.dstp (4 * d.n) 1
  let table := readTable s.mem d.dstp d.n
  checkPlanes s row d.l table
  (match st with
  | .copy => checkLayout table d.l
  | _ => .ok ())
  checkOverlap d table
  return table

/-! ### Execution: common definitions (42_demux_scalar.md R180) -/

/-- for x in 0..count−1, in ascending order. -/
def loop : Nat → (Nat → Memory → Memory) → Memory → Memory
  | 0, _, m => m
  | count + 1, f, m => f count (loop count f m)

/-- for x in 0..total−g step g, in ascending order, where total is a multiple of g. -/
def loopBy (g total : Nat) (f : Nat → Memory → Memory) (m : Memory) : Memory :=
  loop (total / g) (fun k => f (g * k)) m

/-- A block to transform: the source address, the shape, and the plane addresses. -/
structure Block where
  src : Nat
  n : Nat
  l : Nat
  planes : List Nat
deriving DecidableEq, Repr

/-- S(r, c) = SRC + r·N + c, the address of the source byte of row r, channel c (R180). -/
def Block.source (b : Block) (r c : Nat) : Nat := b.src + r * b.n + c

/-- P[c], the address of plane c (R180). -/
def Block.plane (b : Block) (c : Nat) : Nat := b.planes.getD c 0

/-! ### The scalar and word-coalesced strategies (42_demux_scalar.md) -/

/-- REF (R181): channel loop outside, row loop inside, a byte at a time. -/
def demuxRef (b : Block) (m : Memory) : Memory :=
  loop b.n (fun c => loop b.l (fun r m => m.store (b.plane c + r) (m.load 8 (b.source r c)))) m

/-- ROWM (R182): row loop outside, channel loop inside. -/
def demuxRowm (b : Block) (m : Memory) : Memory :=
  loop b.l (fun r => loop b.n (fun c m => m.store (b.plane c + r) (m.load 8 (b.source r c)))) m

/-- WC4 and WC8 (R183, R184): g bytes of one channel packed into one word, the earliest row in the least significant
byte, and one word store. -/
def demuxCoalesced (g : Nat) (b : Block) (m : Memory) : Memory :=
  loop b.n (fun c => loopBy g b.l (fun r m =>
    m.store (b.plane c + r) (ofBytes (8 * g) ((List.range g).map (fun k => m.load 8 (b.source (r + k) c)))))) m

/-- RC4 and RC8 (R185, R186): one word per row of a g by g tile, byte k of the words re-packed for channel k. -/
def demuxRepacked (g : Nat) (b : Block) (m : Memory) : Memory :=
  loopBy g b.l (fun r0 => loopBy g b.n (fun c0 m =>
    let w := (List.range g).map (fun j => m.load (8 * g) (b.source (r0 + j) c0))
    loop g (fun k m => m.store (b.plane (c0 + k) + r0) (ofBytes (8 * g) (w.map (fun x => byteOf x k)))) m)) m

/-! ### The SIMD strategies (46_demux_simd.md)

Channel tiles outside, row tiles inside; all reads of a tile before its writes (R260). -/

/-- Four dwords of rows r .. r+3 at channel c0, as one half: dword lane i is the word of row r + i (R261, R262). -/
def rowWords (b : Block) (m : Memory) (r c0 : Nat) : Half :=
  let d := fun i => m.load 32 (b.source (r + i) c0)
  halfOfDwords (d 0) (d 1) (d 2) (d 3)

/-- X4S (R261): 4 channels by 4 rows in one register. -/
def demuxX4s (b : Block) (m : Memory) : Memory :=
  loopBy 4 b.n (fun c0 => loopBy 4 b.l (fun r0 m =>
    let y := btrn4Half (rowWords b m r0 c0)
    loop 4 (fun k m => m.store (b.plane (c0 + k) + r0) (dwordOf y k)) m)) m

/-- The 4-channel by 16-row tile in four registers: byte-lane transposes, then the dword transpose (R262). -/
def tile4q (b : Block) (m : Memory) (r0 c0 : Nat) : List Half :=
  trn4dRows ((List.range 4).map (fun j => btrn4Half (rowWords b m (r0 + 4 * j) c0)))

/-- X4Q (R262): 4 channels by 16 rows. -/
def demuxX4q (b : Block) (m : Memory) : Memory :=
  loopBy 4 b.n (fun c0 => loopBy 16 b.l (fun r0 m =>
    let o := tile4q b m r0 c0
    loop 4 (fun k m => m.store (b.plane (c0 + k) + r0) (o.getD k 0#128)) m)) m

/-- X8 (R263): 8 by 8 bytes, through TRN8B. -/
def demuxX8 (b : Block) (m : Memory) : Memory :=
  loopBy 8 b.n (fun c0 => loopBy 8 b.l (fun r0 m =>
    let rows := (List.range 8).map (fun i => (m.load 64 (b.source (r0 + i) c0)).setWidth 128)
    let out := trn8bRows rows
    loop 8 (fun j m => m.store (b.plane (c0 + j) + r0) (qwordOf (out.getD j 0#128) 0)) m)) m

/-- The 16 by 16 byte tile through TRN16B (R264). -/
def tile16 (b : Block) (m : Memory) (r0 c0 : Nat) : List Half :=
  trn16bRows ((List.range 16).map (fun i => m.load 128 (b.source (r0 + i) c0)))

/-- X16 (R264): 16 by 16 bytes. -/
def demuxX16 (b : Block) (m : Memory) : Memory :=
  loopBy 16 b.n (fun c0 => loopBy 16 b.l (fun r0 m =>
    let out := tile16 b m r0 c0
    loop 16 (fun j m => m.store (b.plane (c0 + j) + r0) (out.getD j 0#128)) m)) m

/-- Y4 (R265): 4 channels by 32 rows, the earlier 16 rows in the low 128-bit lane, the later 16 in the high one. -/
def demuxY4 (b : Block) (m : Memory) : Memory :=
  loopBy 4 b.n (fun c0 => loopBy 32 b.l (fun r0 m =>
    let low := tile4q b m r0 c0
    let high := tile4q b m (r0 + 16) c0
    loop 4 (fun k m => m.store (b.plane (c0 + k) + r0) (vecOfHalves (low.getD k 0#128) (high.getD k 0#128))) m)) m

/-- Y16 (R266): 16 channels by 32 rows, one 16 by 16 tile in each 128-bit lane. -/
def demuxY16 (b : Block) (m : Memory) : Memory :=
  loopBy 16 b.n (fun c0 => loopBy 32 b.l (fun r0 m =>
    let low := tile16 b m r0 c0
    let high := tile16 b m (r0 + 16) c0
    loop 16 (fun j m => m.store (b.plane (c0 + j) + r0) (vecOfHalves (low.getD j 0#128) (high.getD j 0#128))) m)) m

/-- Y32 (R267): 32 by 32 bytes, through TRN32B. -/
def demuxY32 (b : Block) (m : Memory) : Memory :=
  loopBy 32 b.n (fun c0 => loopBy 32 b.l (fun r0 m =>
    let out := trn32bRows ((List.range 32).map (fun i => m.load 256 (b.source (r0 + i) c0)))
    loop 32 (fun j m => m.store (b.plane (c0 + j) + r0) (out.getD j 0#256)) m)) m

/-- COPY (R277): a block copy of L bytes per channel, not a transpose (R278). -/
def demuxCopy (b : Block) (m : Memory) : Memory :=
  loop b.n (fun c => loop b.l (fun r m => m.store (b.plane c + r) (m.load 8 (b.src + c * b.l + r)))) m

/-- Step 19 of R157: the strategy's own execution (R156). -/
def runStrategy : Strategy → Block → Memory → Memory
  | .ref => demuxRef
  | .rowm => demuxRowm
  | .wc4 => demuxCoalesced 4
  | .wc8 => demuxCoalesced 8
  | .rc4 => demuxRepacked 4
  | .rc8 => demuxRepacked 8
  | .x4s => demuxX4s
  | .x4q => demuxX4q
  | .x8 => demuxX8
  | .x16 => demuxX16
  | .y4 => demuxY4
  | .y16 => demuxY16
  | .y32 => demuxY32
  | .copy => demuxCopy

/-- DEMUX strat (R150): every check, then the strategy; only memory and pc change (R152). -/
def execDemux (st : Strategy) (s : State) : Result :=
  conclude s do
    let table ← demuxChecks st s
    return advance { s with mem := runStrategy st ⟨s.src.toNat, s.n.toNat, s.l.toNat, table⟩ s.mem }

end Sys2Proof.Machine
end

