-- ==== Sys2Proof/Machine/Shuffle.lean ====
section
/-! DEFINITION. The shuffle-network commands (spec/44_shuffle_network.md R220 to R227). -/

namespace Sys2Proof.Machine

/-- A command with one vector source that does the same to each half its width names (10_state.md R25): all halves are
read, h[0] before h[1], before any is written (44_shuffle_network.md R232). -/
def lanewise1 (f : Half → Half) (vd vs : VReg) (w : Width) (s : State) : Check State :=
  match w with
  | .w128 => do
    let x ← readHalf s vs .h0
    return advance (writeHalf s vd .h0 (f x))
  | .w256 => do
    let x ← readBoth s vs
    return advance (writeBoth s vd (f x.1, f x.2))

/-- A command with two vector sources that does the same to each half its width names: the first source is read before
the second (44_shuffle_network.md R223, R232). -/
def lanewise2 (f : Half → Half → Half) (vd va vb : VReg) (w : Width) (s : State) : Check State :=
  match w with
  | .w128 => do
    let x ← readHalf s va .h0
    let y ← readHalf s vb .h0
    return advance (writeHalf s vd .h0 (f x y))
  | .w256 => do
    let x ← readBoth s va
    let y ← readBoth s vb
    return advance (writeBoth s vd (f x.1 y.1, f x.2 y.2))

/-- The control bytes of half h are all at most 15, else ShuffleControl(16h + i) for the first that is not (R221). -/
def checkControl (h : Lane) (c : Half) : Check Unit :=
  match badControl c 0 16 with
  | some i => raise .shuffleControl (16 * h.index + i)
  | none => .ok ()

/-- VMOV.w Vd, Vs (R220). -/
def execVmov (vd vs : VReg) (w : Width) (s : State) : Result := conclude s (lanewise1 (fun x => x) vd vs w s)

/-- PERMB.w Vd, Vs, Vc (R221): the control bytes are checked after all operand halves are read and before any write. -/
def execPermb (vd vs vc : VReg) (w : Width) (s : State) : Result :=
  conclude s
    (match w with
    | .w128 => do
      let x ← readHalf s vs .h0
      let c ← readHalf s vc .h0
      checkControl .h0 c
      return advance (writeHalf s vd .h0 (permbHalf x c))
    | .w256 => do
      let x ← readBoth s vs
      let c ← readBoth s vc
      checkControl .h0 c.1
      checkControl .h1 c.2
      return advance (writeBoth s vd (permbHalf x.1 c.1, permbHalf x.2 c.2)))

/-- PERMD.w Vd, Vs, imm (R222). -/
def execPermd (vd vs : VReg) (w : Width) (imm : BitVec 8) (s : State) : Result :=
  conclude s (lanewise1 (permdHalf imm) vd vs w s)

/-- UNPKLD.w Vd, Vs1, Vs2 (R223). -/
def execUnpkld (vd va vb : VReg) (w : Width) (s : State) : Result := conclude s (lanewise2 unpkldHalf vd va vb w s)

/-- UNPKHD.w Vd, Vs1, Vs2 (R224). -/
def execUnpkhd (vd va vb : VReg) (w : Width) (s : State) : Result := conclude s (lanewise2 unpkhdHalf vd va vb w s)

/-- UNPKLQ.w Vd, Vs1, Vs2 (R225). -/
def execUnpklq (vd va vb : VReg) (w : Width) (s : State) : Result := conclude s (lanewise2 unpklqHalf vd va vb w s)

/-- UNPKHQ.w Vd, Vs1, Vs2 (R226). -/
def execUnpkhq (vd va vb : VReg) (w : Width) (s : State) : Result := conclude s (lanewise2 unpkhqHalf vd va vb w s)

/-- COMB Vd, Vs1.h[sa], Vs2.h[sb] (R227): only the two halves named are read, and both halves of vd are written. -/
def execComb (vd va vb : VReg) (sa sb : Lane) (s : State) : Result :=
  conclude s do
    let lo ← readHalf s va sa
    let hi ← readHalf s vb sb
    return advance (writeBoth s vd (lo, hi))

end Sys2Proof.Machine
end

