-- ==== Sys2Proof/Machine/Transpose.lean ====
section
/-! DEFINITION. The register-transpose commands (spec/45_register_transpose.md R241 to R250). -/

namespace Sys2Proof.Machine

/-- A group transpose (R242, R245, R247): every source half is read, registers ascending and h[0] before h[1] of one
register, before any destination half is written; with w = 1 the two 128-bit lanes are done independently. -/
def groupTranspose (f : List Half → List Half) (dst srcs : List VReg) (w : Width) (s : State) : Check State :=
  match w with
  | .w128 => do
    let xs ← readGroup s .h0 srcs
    return advance (writeGroup s .h0 (dst.zip (f xs)))
  | .w256 => do
    let xs ← readGroupBoth s srcs
    return advance (writeGroup (writeGroup s .h0 (dst.zip (f (xs.map Prod.fst)))) .h1 (dst.zip (f (xs.map Prod.snd))))

/-- BTRN4.w Vd, Vs (R241). -/
def execBtrn4 (vd vs : VReg) (w : Width) (s : State) : Result := conclude s (lanewise1 btrn4Half vd vs w s)

/-- TRN4D.w Vd/2^ds, Vs/2^ss (R242). -/
def execTrn4d (vd vs : VReg) (ds ss : Fin 4) (w : Width) (s : State) : Result :=
  conclude s do
    requireLegal (.trn4d vd vs ds ss w)
    groupTranspose trn4dRows (groupRegs vd ds.val 4) (groupRegs vs ss.val 4) w s

/-- TRN8B Vd, Vs (R245): low halves only. -/
def execTrn8b (vd vs : VReg) (s : State) : Result :=
  conclude s do
    requireLegal (.trn8b vd vs)
    groupTranspose trn8bRows (groupRegs vd 0 8) (groupRegs vs 0 8) .w128 s

/-- TRN16B.w Vd, Vs (R247). -/
def execTrn16b (vd vs : VReg) (w : Width) (s : State) : Result :=
  conclude s do
    requireLegal (.trn16b vd vs w)
    groupTranspose trn16bRows (groupRegs vd 0 16) (groupRegs vs 0 16) w s

/-- TRN32B (R250): all 64 halves are read, registers ascending and h[0] first, then all are written. -/
def execTrn32b (s : State) : Result :=
  conclude s do
    let xs ← readGroupBoth s (groupRegs 0 0 32)
    let out := trn32bRows (xs.map (fun x => vecOfHalves x.1 x.2))
    let low := writeGroup s .h0 ((groupRegs 0 0 32).zip (out.map lowHalf))
    return advance (writeGroup low .h1 ((groupRegs 0 0 32).zip (out.map highHalf)))

end Sys2Proof.Machine
end

