-- ==== Sys2Proof/Machine/VectorMemory.lean ====
section
/-! DEFINITION. The vector load and store commands (spec/43_vector_memory.md R200 to R207). -/

namespace Sys2Proof.Machine

/-- A vector load of a width at an alignment (R200, R201): the checks, then the bytes at ea into the halves the width names,
the byte at ea + i into byte lane i (20_memory.md R64). -/
def loadVec (align : Nat) (vd : VReg) (ra : AReg) (w : Width) (imm : BitVec 12) (s : State) : Check State := do
  let x ← readA s ra
  let ea := addrOf (address12 x imm)
  checkAccess s ea (widthBytes w) align
  match w with
  | .w128 => return advance (writeHalf s vd .h0 (s.mem.load 128 ea))
  | .w256 =>
    let v := s.mem.load 256 ea
    return advance (writeBoth s vd (lowHalf v, highHalf v))

/-- A vector store of a width at an alignment (R202, R203): base register, then the halves, then the checks, then the
bytes. -/
def storeVec (align : Nat) (vs : VReg) (ra : AReg) (w : Width) (imm : BitVec 12) (s : State) : Check State := do
  let x ← readA s ra
  let ea := addrOf (address12 x imm)
  match w with
  | .w128 =>
    let v ← readHalf s vs .h0
    checkAccess s ea 16 align
    return advance { s with mem := s.mem.store ea v }
  | .w256 =>
    let v ← readBoth s vs
    checkAccess s ea 32 align
    return advance { s with mem := s.mem.store ea (vecOfHalves v.1 v.2) }

/-- VLD.w Vd, [As + off] (R200): aligned to its width. -/
def execVld (vd : VReg) (ra : AReg) (w : Width) (imm : BitVec 12) (s : State) : Result :=
  conclude s (loadVec (widthBytes w) vd ra w imm s)

/-- VLDU.w Vd, [As + off] (R201): any address. -/
def execVldu (vd : VReg) (ra : AReg) (w : Width) (imm : BitVec 12) (s : State) : Result :=
  conclude s (loadVec 1 vd ra w imm s)

/-- VST.w Vs, [As + off] (R202): aligned to its width. -/
def execVst (vs : VReg) (ra : AReg) (w : Width) (imm : BitVec 12) (s : State) : Result :=
  conclude s (storeVec (widthBytes w) vs ra w imm s)

/-- VSTU.w Vs, [As + off] (R203): any address. -/
def execVstu (vs : VReg) (ra : AReg) (w : Width) (imm : BitVec 12) (s : State) : Result :=
  conclude s (storeVec 1 vs ra w imm s)

/-- VLDQ Vd, [As + off] (R204): 64 bits, zero-extended to the low half. -/
def execVldq (vd : VReg) (ra : AReg) (imm : BitVec 12) (s : State) : Result :=
  conclude s do
    let x ← readA s ra
    let ea := addrOf (address12 x imm)
    checkAccess s ea 8 8
    return advance (writeHalf s vd .h0 ((s.mem.load 64 ea).setWidth 128))

/-- The 128-bit lane that holds qword lane q of a register (R205: q div 2). -/
def laneOfQword (q : Fin 4) : Lane := if q.val / 2 = 0 then .h0 else .h1

/-- VSTQ Vs.q[q], [As + off] (R205): only the half that holds the lane is read. -/
def execVstq (vs : VReg) (ra : AReg) (q : Fin 4) (imm : BitVec 12) (s : State) : Result :=
  conclude s do
    let x ← readA s ra
    let ea := addrOf (address12 x imm)
    let v ← readHalf s vs (laneOfQword q)
    checkAccess s ea 8 8
    return advance { s with mem := s.mem.store ea (qwordOf v (q.val % 2)) }

/-- The 128-bit lane that holds dword lane k of a register (R206: k div 4). -/
def laneOfDword (k : Fin 8) : Lane := if k.val / 4 = 0 then .h0 else .h1

/-- VSTW Vs.d[k], [As + off] (R206): only the half that holds the lane is read. -/
def execVstw (vs : VReg) (ra : AReg) (k : Fin 8) (imm : BitVec 12) (s : State) : Result :=
  conclude s do
    let x ← readA s ra
    let ea := addrOf (address12 x imm)
    let v ← readHalf s vs (laneOfDword k)
    checkAccess s ea 4 4
    return advance { s with mem := s.mem.store ea (dwordOf v (k.val % 4)) }

/-- The element checks of a gather, in ascending order of the elements, all before any read (R207). -/
def checkElements (s : State) : List Nat → Check Unit
  | [] => .ok ()
  | ea :: rest => do
    checkAccess s ea 4 4
    checkElements s rest

/-- VLDG.w Vd, [As + off], At (R207): 4 or 8 dwords at base + offset + k·stride. -/
def execVldg (vd : VReg) (ra rt : AReg) (w : Width) (imm : BitVec 12) (s : State) : Result :=
  conclude s do
    let base ← readA s ra
    let stride ← readA s rt
    let ea := fun k => addrOf (gatherAddress base stride imm k)
    let e := fun k => s.mem.load 32 (ea k)
    match w with
    | .w128 =>
      checkElements s ((List.range 4).map ea)
      return advance (writeHalf s vd .h0 (halfOfDwords (e 0) (e 1) (e 2) (e 3)))
    | .w256 =>
      checkElements s ((List.range 8).map ea)
      return advance (writeBoth s vd (halfOfDwords (e 0) (e 1) (e 2) (e 3), halfOfDwords (e 4) (e 5) (e 6) (e 7)))

end Sys2Proof.Machine
end

