-- ==== Sys2Proof/Machine/Dispatch.lean ====
section
/-! DEFINITION. The meaning of every command: one arm per constructor of `Instr`. -/

namespace Sys2Proof.Machine

/-- What a command does in a state (spec/00_scope.md R8). The engine executes commands only in RUN: `engineStep` asks. -/
def exec (i : Instr) (s : State) : Host.Outcome State Fault Refusal :=
  match i with
  | .nop => Sys2Proof.Machine.execNop s
  | .halt => Sys2Proof.Machine.execHalt s
  | .abort imm => Sys2Proof.Machine.execAbort imm s
  | .jmp imm => Sys2Proof.Machine.execJmp imm s
  | .dbnz ad imm => Sys2Proof.Machine.execDbnz ad imm s
  | .lai ad imm => Sys2Proof.Machine.execLai ad imm s
  | .lahi ad imm => Sys2Proof.Machine.execLahi ad imm s
  | .addai ad ra imm => Sys2Proof.Machine.execAddai ad ra imm s
  | .adda ad ra rb => Sys2Proof.Machine.execAdda ad ra rb s
  | .lda ad ra imm => Sys2Proof.Machine.execLda ad ra imm s
  | .csrr ad csr => Sys2Proof.Machine.execCsrr ad csr s
  | .csrw ra csr => Sys2Proof.Machine.execCsrw ra csr s
  | .vld vd ra w imm => Sys2Proof.Machine.execVld vd ra w imm s
  | .vldu vd ra w imm => Sys2Proof.Machine.execVldu vd ra w imm s
  | .vst vs ra w imm => Sys2Proof.Machine.execVst vs ra w imm s
  | .vstu vs ra w imm => Sys2Proof.Machine.execVstu vs ra w imm s
  | .vldq vd ra imm => Sys2Proof.Machine.execVldq vd ra imm s
  | .vstq vs ra q imm => Sys2Proof.Machine.execVstq vs ra q imm s
  | .vstw vs ra k imm => Sys2Proof.Machine.execVstw vs ra k imm s
  | .vldg vd ra rt w imm => Sys2Proof.Machine.execVldg vd ra rt w imm s
  | .vmov vd vs w => Sys2Proof.Machine.execVmov vd vs w s
  | .permb vd vs vc w => Sys2Proof.Machine.execPermb vd vs vc w s
  | .permd vd vs w imm => Sys2Proof.Machine.execPermd vd vs w imm s
  | .unpkld vd va vb w => Sys2Proof.Machine.execUnpkld vd va vb w s
  | .unpkhd vd va vb w => Sys2Proof.Machine.execUnpkhd vd va vb w s
  | .unpklq vd va vb w => Sys2Proof.Machine.execUnpklq vd va vb w s
  | .unpkhq vd va vb w => Sys2Proof.Machine.execUnpkhq vd va vb w s
  | .comb vd va vb sa sb => Sys2Proof.Machine.execComb vd va vb sa sb s
  | .btrn4 vd vs w => Sys2Proof.Machine.execBtrn4 vd vs w s
  | .trn4d vd vs ds ss w => Sys2Proof.Machine.execTrn4d vd vs ds ss w s
  | .trn8b vd vs => Sys2Proof.Machine.execTrn8b vd vs s
  | .trn16b vd vs w => Sys2Proof.Machine.execTrn16b vd vs w s
  | .trn32b => Sys2Proof.Machine.execTrn32b s
  | .demux strat => Sys2Proof.Machine.execDemux strat s

end Sys2Proof.Machine
end

