-- ==== Sys2Proof/Machine/Host.lean ====
section
/-! DEFINITION. The host's moves (spec/70_reset_and_hazards.md R336 to R339, 10_state.md R29 to R32). -/

namespace Sys2Proof.Machine

/-- What the host reads from a control register (10_state.md R29 to R43): CTRL reads 0, STATUS the number of STATE, PC the
exact command pointer (log 10). -/
def hostCsrValue (s : State) : Csr → Word
  | .id => Config.idValue
  | .ctrl => 0#32
  | .status => RunState.code s.status
  | .cause => s.cause
  | .fpc => s.fpc
  | .finfo => s.finfo
  | .entry => s.entry
  | .pc => s.pc
  | .src => s.src
  | .len => s.len
  | .dstp => s.dstp
  | .n => s.n
  | .l => s.l

/-- What the host reads from register number k: numbers 13 and above read 0 (10_state.md R30 (a), (f)). -/
def hostReadRegister (s : State) (k : Nat) : Word :=
  match Csr.ofNumber k with
  | some c => hostCsrValue s c
  | none => 0#32

/-- STATE is IDLE or DONE: the host's writes take effect and GO is accepted (10_state.md R30 (c), R32). -/
def hostMayWrite (s : State) : Bool := s.status = .idle || s.status = .done

/-- An accepted GO, one action: all valid bits cleared, pc <- ENTRY, STATE <- RUN (10_state.md R32). -/
def launch (s : State) : State := { invalidate s with pc := s.entry, status := .run }

/-- A host write of CTRL (10_state.md R32): RST = 1 (bit 1) resets in any STATE; else GO = 1 (bit 0) launches if STATE is
IDLE or DONE; bits 31:2 are ignored. -/
def hostWriteCtrl (s : State) (v : Word) : State :=
  if v.getLsbD 1 then resetEngine s
  else if v.getLsbD 0 && hostMayWrite s then launch s
  else s

/-- A host write of a read-write register: stored whole in IDLE and DONE, ignored in RUN and FAULT (10_state.md R30 (c),
(e)). -/
def hostStore (s : State) (t : State) : State := if hostMayWrite s then t else s

/-- A host write of register number k (10_state.md R30, 70_reset_and_hazards.md R339): read-only registers and numbers 13
and above ignore it. -/
def hostWriteRegister (s : State) (k : Nat) (v : Word) : State :=
  match Csr.ofNumber k with
  | some .ctrl => hostWriteCtrl s v
  | some .entry => hostStore s { s with entry := v }
  | some .src => hostStore s { s with src := v }
  | some .len => hostStore s { s with len := v }
  | some .dstp => hostStore s { s with dstp := v }
  | some .n => hostStore s { s with n := v }
  | some .l => hostStore s { s with l := v }
  | some .id => s
  | some .status => s
  | some .cause => s
  | some .fpc => s
  | some .finfo => s
  | some .pc => s
  | none => s

/-- A host memory move over `count` bytes from `addr`: none while STATE = RUN (R337), none outside MEM (log 8); otherwise
the state `t`. -/
def hostMemory (s : State) (addr count : Nat) (t : State) : Result :=
  if s.status = .run then .refused .hostMemoryDuringRun
  else
    match firstMissing s addr count with
    | some a => .fault (.hostOutsideMemory a)
    | none => .next t

/-- One move of the host (R336). -/
def hostStep (m : HostMove) (s : State) : Result :=
  match m with
  | .readRegister _ => .next s
  | .writeRegister k v => .next (hostWriteRegister s k v)
  | .readMemory addr count => hostMemory s addr count s
  | .writeMemory addr bytes => hostMemory s addr bytes.length { s with mem := s.mem.writeBytes addr bytes }
  | .assertReset => .next (resetEngine s)

end Sys2Proof.Machine
end

