-- ==== Sys2Proof/Machine/Engine.lean ====
section
/-! DEFINITION. Command fetch and one step of the engine (spec/00_scope.md R8, 10_state.md R28, 20_memory.md R65,
60_exceptions.md R301, R307, R308). -/

namespace Sys2Proof.Machine

/-- Command fetch: FetchMisaligned, then FetchAccess (both with FINFO = pc), then the little-endian word at pc
(60_exceptions.md R301, R303, R308; 20_memory.md R65). -/
def fetch (s : State) : Check Word :=
  if s.pc.toNat % 4 ≠ 0 then .error ⟨.fetchMisaligned, s.pc⟩
  else if s.pc.toNat + 4 > Config.addressSpace then .error ⟨.fetchAccess, s.pc⟩
  else
    match firstMissing s s.pc.toNat 4 with
    | some _ => .error ⟨.fetchAccess, s.pc⟩
    | none => .ok (s.mem.load 32 s.pc.toNat)

/-- Fetches one command and executes it: a word that is not a command raises IllegalCommand with FINFO = the word
(60_exceptions.md R303, R307). -/
def runCommand (s : State) : Result :=
  match fetch s with
  | .error f => .next (takeFault s f)
  | .ok w =>
    match decode w with
    | .error _ => .next (takeFault s ⟨.illegalCommand, w⟩)
    | .ok i => exec i s

/-- The engine's turn: it executes commands only in RUN; in IDLE, DONE and FAULT it does nothing and all state is kept
(10_state.md R47, 60_exceptions.md R324, 70_reset_and_hazards.md R332; log 6). -/
def engineStep (s : State) : Result :=
  if s.status = .run then runCommand s else .next s

/-- The turn of an agent (70_reset_and_hazards.md R336). -/
def takeTurn (t : Turn) (s : State) : Result :=
  match t with
  | .engine => engineStep s
  | .host m => hostStep m s

/-- The state in which the next step fetches the command word `w` and runs it: the four bytes at pc (moved down to a
multiple of 4) are the word, they are in MEM, STATE is RUN, and it is the engine's turn (log 9). -/
def placeCommand (s : State) (w : Word) : State :=
  let pc := s.pc.toNat - s.pc.toNat % 4
  { s with
    pc := BitVec.ofNat 32 pc
    status := .run
    mem := s.mem.writeBytes pc (commandBytes w)
    populated := if (firstMissing s pc 4).isSome then ⟨pc, 4⟩ :: s.populated else s.populated
    turns := [] }

end Sys2Proof.Machine
end

