-- ==== Sys2Proof/Machine/Step.lean ====
section
/-! DEFINITION. One step of the machine, and the placing of a command where the next step fetches it. -/

namespace Sys2Proof.Machine

/-- One step of the whole system: the next turn of the list, the engine's where the list is empty
(spec/70_reset_and_hazards.md R336; log 5). -/
def step (s : State) : Host.Outcome State Fault Refusal :=
  match s.turns with
  | [] => engineStep s
  | t :: rest => takeTurn t { s with turns := rest }

/-- `s` with a table row's word `w` of `nbits` bits stored where the next step fetches, and the run begun (log 9). -/
def State.withFetchWord (s : State) (nbits w : Nat) : State :=
  placeCommand s (BitVec.ofNat 32 (w % 2 ^ nbits))

end Sys2Proof.Machine
end

