-- ==== Sys2Proof/Safety.lean ====
section
/-! DEFINITION. The terms statements use: what a command leaves unchanged, what a fault entry is, what the commands read
and access, when a DEMUX is legal, the invariants, and when two states cannot be told apart. -/

namespace Sys2Proof.Machine

/-! ### Runs (spec/70_reset_and_hazards.md R334) -/

/-- "run": the engine is running. -/
abbrev Running (s : State) : Prop := s.status = .run

/-- "halted normally". -/
abbrev HaltedNormally (s : State) : Prop := s.status = .done

/-- The agent's turn that the step from s is: the engine's where none is listed. -/
def nextTurn (s : State) : Turn := s.turns.headD .engine

/-- The word at pc: the byte at pc is bits 7:0 (20_memory.md R65). -/
def fetchedWord (s : State) : Word :=
  wordOfBytes (readByte s s.pc.toNat) (readByte s (s.pc.toNat + 1)) (readByte s (s.pc.toNat + 2))
    (readByte s (s.pc.toNat + 3))

/-- The command at pc can be fetched: pc is a multiple of 4 and its four bytes are in MEM (60_exceptions.md R301, R308). -/
abbrev Fetchable (s : State) : Prop := s.pc.toNat % 4 = 0 ∧ ∀ k < 4, inMem s (s.pc.toNat + k) = true

/-! ### Registers -/

/-- The halves a width names: h[0], and with w = 1 also h[1] (10_state.md R25). -/
abbrev UsesLane (w : Width) (h : Lane) : Prop := h = .h0 ∨ w = .w256

/-- A[i] is valid and holds x. -/
abbrev HoldsA (s : State) (i : AReg) (x : Word) : Prop := s.a[i] = ⟨x, true⟩

/-- V[n].h[k] is valid and holds x. -/
abbrev HoldsHalf (s : State) (n : VReg) (h : Lane) (x : Half) : Prop := half s n h = ⟨x, true⟩

/-- Byte lane k (0 to 31) of a whole register (00_scope.md R11). -/
def byteOfReg (s : State) (n : VReg) (k : Nat) : Byte :=
  byteOf (half s n (if k < 16 then .h0 else .h1)).data (k % 16)

/-! ### Frames -/

/-- Every address register is unchanged but those of a set. -/
abbrev SameAddressRegistersBut (written : AReg → Prop) (s t : State) : Prop :=
  ∀ i : AReg, ¬ written i → t.a[i] = s.a[i]

/-- Every half of a vector register is unchanged, valid bit included, but those of a set. -/
abbrev SameHalvesBut (written : VReg → Lane → Prop) (s t : State) : Prop :=
  ∀ (n : VReg) (h : Lane), ¬ written n h → half t n h = half s n h

/-- Every byte of memory reads as before but those of a set. -/
abbrev SameBytesBut (stored : Nat → Prop) (s t : State) : Prop :=
  ∀ x : Nat, ¬ stored x → readByte t x = readByte s x

/-- ENTRY and the descriptor are unchanged. -/
abbrev SameControlRegisters (s t : State) : Prop :=
  t.entry = s.entry ∧ t.src = s.src ∧ t.len = s.len ∧ t.dstp = s.dstp ∧ t.n = s.n ∧ t.l = s.l

/-- CAUSE, FPC and FINFO are unchanged. -/
abbrev SameFaultRegisters (s t : State) : Prop := t.cause = s.cause ∧ t.fpc = s.fpc ∧ t.finfo = s.finfo

/-- MEM and the turns to come are unchanged. -/
abbrev SamePlatform (s t : State) : Prop := t.populated = s.populated ∧ t.turns = s.turns

/-- All is unchanged but pc, STATE, the fault registers, ENTRY and the descriptor, and the given address registers, halves
and bytes of memory. -/
abbrev FrameOfData (a : AReg → Prop) (v : VReg → Lane → Prop) (m : Nat → Prop) (s t : State) : Prop :=
  SameAddressRegistersBut a s t ∧ SameHalvesBut v s t ∧ SameBytesBut m s t ∧ SamePlatform s t

/-- All is unchanged but pc and the given address registers, halves and bytes of memory. -/
abbrev Frame (a : AReg → Prop) (v : VReg → Lane → Prop) (m : Nat → Prop) (s t : State) : Prop :=
  FrameOfData a v m s t ∧ SameControlRegisters s t ∧ t.status = s.status ∧ SameFaultRegisters s t

/-- No address register. -/
abbrev noA : AReg → Prop := fun _ => False

/-- One address register. -/
abbrev onlyA (ad : AReg) : AReg → Prop := fun i => i = ad

/-- No half. -/
abbrev noHalf : VReg → Lane → Prop := fun _ _ => False

/-- The halves of one register that a width names. -/
abbrev halvesOf (vd : VReg) (w : Width) : VReg → Lane → Prop := fun n h => n = vd ∧ UsesLane w h

/-- The halves a width names of registers first + k·2^logStride, k below count (30_encoding.md R93). -/
abbrev groupHalves (first : VReg) (logStride count : Nat) (w : Width) : VReg → Lane → Prop :=
  fun n h => (∃ k < count, n.val = first.val + k * 2 ^ logStride) ∧ UsesLane w h

/-- No byte. -/
abbrev noByte : Nat → Prop := fun _ => False

/-- The `count` bytes from an address up. -/
abbrev bytesAt (a count : Nat) : Nat → Prop := fun x => a ≤ x ∧ x < a + count

/-- Fault entry from s (60_exceptions.md R300): CAUSE, FPC, FINFO and STATE are written, all else is unchanged. -/
def FaultEntry (s t : State) (code : Nat) (info : Word) : Prop :=
  t.status = .fault ∧ t.cause = BitVec.ofNat 32 code ∧ t.fpc = s.pc ∧ t.finfo = info ∧ t.pc = s.pc ∧
    FrameOfData noA noHalf noByte s t ∧ SameControlRegisters s t ∧ t.mem = s.mem

/-- The command ends in that fault entry. -/
def Faults (i : Instr) (s : State) (code : Nat) (info : Word) : Prop :=
  ∃ t, exec i s = .next t ∧ FaultEntry s t code info

/-! ### The host (10_state.md R32, R48; 70_reset_and_hazards.md R330) -/

/-- All 72 valid bits are clear. -/
abbrev NoValidBits (t : State) : Prop :=
  (∀ i : AReg, t.a[i].valid = false) ∧ ∀ (n : VReg) (h : Lane), (half t n h).valid = false

/-- t is s after reset: every piece of state has its reset value, and the memory is that of s. -/
def IsReset (s t : State) : Prop :=
  NoValidBits t ∧ t.pc = 0#32 ∧ t.status = .idle ∧ t.cause = 0#32 ∧ t.fpc = 0#32 ∧ t.finfo = 0#32 ∧ t.entry = 0#32 ∧
    t.src = 0#32 ∧ t.len = 0#32 ∧ t.dstp = 0#32 ∧ t.n = 0#32 ∧ t.l = 0#32 ∧ t.doneOut = false ∧ t.faultOut = false ∧
    t.mem = s.mem ∧ SamePlatform s t

/-- t is s after an accepted GO: all valid bits clear, pc is ENTRY, STATE is RUN, and nothing else changed but the data
bits of registers, which are invalid. -/
def IsLaunched (s t : State) : Prop :=
  NoValidBits t ∧ t.pc = s.entry ∧ t.status = .run ∧ SameControlRegisters s t ∧ SameFaultRegisters s t ∧ t.mem = s.mem ∧
    SamePlatform s t

/-- The turn is an accepted GO: a host write of CTRL with RST = 0 and GO = 1 while STATE is IDLE or DONE. -/
abbrev IsGo (s : State) (turn : Turn) : Prop :=
  ∃ v : Word, turn = .host (.writeRegister 1 v) ∧ v.getLsbD 1 = false ∧ v.getLsbD 0 = true ∧
    (s.status = .idle ∨ s.status = .done)

/-- The turn is a reset: the reset input or a host write of CTRL with RST = 1. -/
abbrev IsResetTurn (turn : Turn) : Prop :=
  turn = .host .assertReset ∨ ∃ v : Word, turn = .host (.writeRegister 1 v) ∧ v.getLsbD 1 = true

/-! ### Accesses -/

/-- The little-endian 32-bit number at an address (20_memory.md R63). -/
def wordAt (s : State) (a : Nat) : Nat :=
  (readByte s a).toNat + 2 ^ 8 * (readByte s (a + 1)).toNat + 2 ^ 16 * (readByte s (a + 2)).toNat +
    2 ^ 24 * (readByte s (a + 3)).toNat

/-- A range lies below 2^32 and in MEM. -/
abbrev RangeInMem (s : State) (a count : Nat) : Prop :=
  a + count ≤ 2 ^ 32 ∧ ∀ k < count, inMem s (a + k) = true

/-- x is the lowest address of a range that is not in MEM. -/
abbrev LowestMissing (s : State) (a count x : Nat) : Prop :=
  ∃ k < count, x = a + k ∧ inMem s (a + k) = false ∧ ∀ j < k, inMem s (a + j) = true

/-- A data access of a command: address, bytes, required alignment (20_memory.md R67). -/
structure Access where
  addr : Nat
  count : Nat
  align : Nat
deriving DecidableEq, Repr

/-- The access passes CheckAccess (20_memory.md R66). -/
abbrev Access.Ok (s : State) (x : Access) : Prop := x.addr % x.align = 0 ∧ RangeInMem s x.addr x.count

/-- The access of a width-w vector command at base + offset, at an alignment. -/
def vectorAccess (s : State) (ra : AReg) (imm : BitVec 12) (count align : Nat) : List Access :=
  [⟨addrOf (address12 s.a[ra].data imm), count, align⟩]

/-- The data accesses of a command other than DEMUX, in the order they are checked (20_memory.md R67, 43_vector_memory.md
R207). -/
def dataAccesses (s : State) : Instr → List Access
  | .lda _ ra imm => [⟨addrOf (address16 s.a[ra].data imm), 4, 4⟩]
  | .vld _ ra w imm => vectorAccess s ra imm (widthBytes w) (widthBytes w)
  | .vldu _ ra w imm => vectorAccess s ra imm (widthBytes w) 1
  | .vst _ ra w imm => vectorAccess s ra imm (widthBytes w) (widthBytes w)
  | .vstu _ ra w imm => vectorAccess s ra imm (widthBytes w) 1
  | .vldq _ ra imm => vectorAccess s ra imm 8 8
  | .vstq _ ra _ imm => vectorAccess s ra imm 8 8
  | .vstw _ ra _ imm => vectorAccess s ra imm 4 4
  | .vldg _ ra rt w imm =>
    (List.range (widthBytes w / 4)).map
      (fun k => ⟨addrOf (gatherAddress s.a[ra].data s.a[rt].data imm k), 4, 4⟩)
  | .nop => []
  | .halt => []
  | .abort _ => []
  | .jmp _ => []
  | .dbnz _ _ => []
  | .lai _ _ => []
  | .lahi _ _ => []
  | .addai _ _ _ => []
  | .adda _ _ _ => []
  | .csrr _ _ => []
  | .csrw _ _ => []
  | .vmov _ _ _ => []
  | .permb _ _ _ _ => []
  | .permd _ _ _ _ => []
  | .unpkld _ _ _ _ => []
  | .unpkhd _ _ _ _ => []
  | .unpklq _ _ _ _ => []
  | .unpkhq _ _ _ _ => []
  | .comb _ _ _ _ _ => []
  | .btrn4 _ _ _ => []
  | .trn4d _ _ _ _ _ => []
  | .trn8b _ _ => []
  | .trn16b _ _ _ => []
  | .trn32b => []
  | .demux _ => []

/-! ### Register operands -/

/-- A register operand that a command reads: an address register or a half of a vector register. -/
inductive Source where
  | address (i : AReg)
  | half (n : VReg) (h : Lane)
deriving DecidableEq, Repr

/-- The operand's valid bit is set. -/
abbrev Source.Valid (s : State) : Source → Prop
  | .address i => s.a[i].valid = true
  | .half n h => (Machine.half s n h).valid = true

/-- The number UninitRead reports: 64 + i for A[i], n + 32·k for V[n].h[k] (10_state.md R23, R26). -/
def Source.identifier : Source → Nat
  | .address i => 64 + i.val
  | .half n h => n.val + 32 * h.index

/-- The halves of one register that a width names, h[0] first. -/
def sourceHalves (n : VReg) : Width → List Source
  | .w128 => [.half n .h0]
  | .w256 => [.half n .h0, .half n .h1]

/-- The halves of a register group, registers ascending and h[0] first (45_register_transpose.md R242). -/
def sourceGroup (first : VReg) (logStride count : Nat) (w : Width) : List Source :=
  (List.range count).flatMap (fun k => sourceHalves (Fin.ofNat 32 (first.val + k * 2 ^ logStride)) w)

/-- The register operands of a command, in the order they are read (60_exceptions.md R303 (4); the fault list of each
command's rule). -/
def sources : Instr → List Source
  | .dbnz ad _ => [.address ad]
  | .lahi ad _ => [.address ad]
  | .addai _ ra _ => [.address ra]
  | .adda _ ra rb => [.address ra, .address rb]
  | .lda _ ra _ => [.address ra]
  | .csrw ra _ => [.address ra]
  | .vld _ ra _ _ => [.address ra]
  | .vldu _ ra _ _ => [.address ra]
  | .vst vs ra w _ => .address ra :: sourceHalves vs w
  | .vstu vs ra w _ => .address ra :: sourceHalves vs w
  | .vldq _ ra _ => [.address ra]
  | .vstq vs ra q _ => [.address ra, .half vs (if q.val < 2 then .h0 else .h1)]
  | .vstw vs ra k _ => [.address ra, .half vs (if k.val < 4 then .h0 else .h1)]
  | .vldg _ ra rt _ _ => [.address ra, .address rt]
  | .vmov _ vs w => sourceHalves vs w
  | .permb _ vs vc w => sourceHalves vs w ++ sourceHalves vc w
  | .permd _ vs w _ => sourceHalves vs w
  | .unpkld _ va vb w => sourceHalves va w ++ sourceHalves vb w
  | .unpkhd _ va vb w => sourceHalves va w ++ sourceHalves vb w
  | .unpklq _ va vb w => sourceHalves va w ++ sourceHalves vb w
  | .unpkhq _ va vb w => sourceHalves va w ++ sourceHalves vb w
  | .comb _ va vb sa sb => [.half va sa, .half vb sb]
  | .btrn4 _ vs w => sourceHalves vs w
  | .trn4d _ vs _ ss w => sourceGroup vs ss.val 4 w
  | .trn8b _ vs => sourceGroup vs 0 8 .w128
  | .trn16b _ vs w => sourceGroup vs 0 16 w
  | .trn32b => sourceGroup 0 0 32 .w256
  | .nop => []
  | .halt => []
  | .abort _ => []
  | .jmp _ => []
  | .lai _ _ => []
  | .csrr _ _ => []
  | .demux _ => []

/-! ### DEMUX (41_demux_contract.md) -/

/-- P[c], the address of plane c, from the pointer table (R161). -/
def planeAddress (s : State) (c : Nat) : Nat := wordAt s (s.dstp.toNat + 4 * c)

/-- The shape and granularity checks pass (R153). -/
abbrev ShapeOk (st : Strategy) (s : State) : Prop :=
  s.n.toNat ≠ 0 ∧ s.l.toNat ≠ 0 ∧ s.n.toNat * s.l.toNat = s.len.toNat ∧
    s.n.toNat % (strategyRow st).gN = 0 ∧ s.l.toNat % (strategyRow st).gL = 0

/-- SRC and DSTP are aligned, and the source and the table lie in memory (R154 (1) to (4)). -/
abbrev BuffersOk (st : Strategy) (s : State) : Prop :=
  s.src.toNat % (strategyRow st).aSrc = 0 ∧ s.dstp.toNat % 4 = 0 ∧
    RangeInMem s s.src.toNat s.len.toNat ∧ RangeInMem s s.dstp.toNat (4 * s.n.toNat)

/-- Plane c is aligned and lies in memory (R154 (6)). -/
abbrev PlaneOk (st : Strategy) (s : State) (c : Nat) : Prop :=
  planeAddress s c % (strategyRow st).aDst = 0 ∧ RangeInMem s (planeAddress s c) s.l.toNat

/-- Plane c is where COPY requires it (R155 (1)). -/
abbrev PlaneContiguous (s : State) (c : Nat) : Prop :=
  planeAddress s c = planeAddress s 0 + c * s.l.toNat

/-- Two byte ranges overlap (R155 (2)). -/
abbrev Overlap (a m b k : Nat) : Prop := a < b + k ∧ b < a + m

/-- Plane c overlaps the source, the table or an earlier plane (R155 (2)). -/
abbrev PlaneOverlaps (s : State) (c : Nat) : Prop :=
  Overlap (planeAddress s c) s.l.toNat s.src.toNat s.len.toNat ∨
    Overlap (planeAddress s c) s.l.toNat s.dstp.toNat (4 * s.n.toNat) ∨
    ∃ e < c, Overlap (planeAddress s c) s.l.toNat (planeAddress s e) s.l.toNat

/-- Every check of a DEMUX passes (R153, R154, R155). -/
abbrev DemuxLegal (st : Strategy) (s : State) : Prop :=
  ShapeOk st s ∧ BuffersOk st s ∧ (∀ c < s.n.toNat, PlaneOk st s c) ∧
    (st = .copy → ∀ c < s.n.toNat, PlaneContiguous s c) ∧ ∀ c < s.n.toNat, ¬ PlaneOverlaps s c

/-- The bytes a DEMUX writes (R159). -/
abbrev planeBytes (s : State) : Nat → Prop :=
  fun x => ∃ c < s.n.toNat, ∃ r < s.l.toNat, x = planeAddress s c + r

/-! ### The opcode table and its value checks (30_encoding.md R104) -/

/-- The 34 rows of the opcode table, in its order. -/
def opcodeTable : List OpcodeRow :=
  [Instr.row .nop, Instr.row .halt, Instr.row (.abort 0), Instr.row (.jmp 0), Instr.row (.dbnz 0 0),
    Instr.row (.lai 0 0), Instr.row (.lahi 0 0), Instr.row (.addai 0 0 0), Instr.row (.adda 0 0 0),
    Instr.row (.lda 0 0 0), Instr.row (.csrr 0 .id), Instr.row (.csrw 0 .n), Instr.row (.vld 0 0 .w128 0),
    Instr.row (.vldu 0 0 .w128 0), Instr.row (.vst 0 0 .w128 0), Instr.row (.vstu 0 0 .w128 0),
    Instr.row (.vldq 0 0 0), Instr.row (.vstq 0 0 0 0), Instr.row (.vstw 0 0 0 0), Instr.row (.vldg 0 0 0 .w128 0),
    Instr.row (.vmov 0 0 .w128), Instr.row (.permb 0 0 0 .w128), Instr.row (.permd 0 0 .w128 0),
    Instr.row (.unpkld 0 0 0 .w128), Instr.row (.unpkhd 0 0 0 .w128), Instr.row (.unpklq 0 0 0 .w128),
    Instr.row (.unpkhq 0 0 0 .w128), Instr.row (.comb 0 0 0 .h0 .h0), Instr.row (.btrn4 0 0 .w128),
    Instr.row (.trn4d 0 0 0 0 .w128), Instr.row (.trn8b 0 0), Instr.row (.trn16b 0 0 .w128), Instr.row .trn32b,
    Instr.row (.demux .ref)]

/-- Bits hi..lo of a word as a natural number (00_scope.md R10). -/
def bits (w : Word) (hi lo : Nat) : Nat := w.toNat / 2 ^ lo % 2 ^ (hi + 1 - lo)

/-- The value check a row makes after the match (R104). -/
abbrev ValueCheck (mnemonic : String) (w : Word) : Prop :=
  (mnemonic = "CSRR" → bits w 7 0 ≤ 12) ∧
  (mnemonic = "CSRW" → bits w 7 0 ∈ [6, 8, 9, 10, 11, 12]) ∧
  (mnemonic = "TRN4D" → bits w 23 19 + 3 * 2 ^ bits w 13 12 ≤ 31 ∧ bits w 18 14 + 3 * 2 ^ bits w 11 10 ≤ 31) ∧
  (mnemonic = "TRN8B" → bits w 23 19 ≤ 24 ∧ bits w 18 14 ≤ 24) ∧
  (mnemonic = "TRN16B" → bits w 23 19 ≤ 16 ∧ bits w 18 14 ≤ 16) ∧
  (mnemonic = "DEMUX" → bits w 3 0 ≤ 13)

/-! ### Invariants -/

/-- The fault registers record the fault exactly in FAULT, and read 0 otherwise (10_state.md R34, R35, R36, R38). -/
def FaultRecord (s : State) : Prop :=
  (s.status = .fault → 1 ≤ s.cause.toNat ∧ s.cause.toNat ≤ 12 ∧ s.fpc = s.pc) ∧
    (s.status ≠ .fault → s.cause = 0#32 ∧ s.fpc = 0#32 ∧ s.finfo = 0#32)

/-- The machine's invariant: the memory is canonical and the fault registers record the fault. -/
def Inv (s : State) : Prop := s.mem.wf ∧ FaultRecord s

/-- Every byte the memory lists is in MEM (10_state.md R20 (f): a byte for each address in MEM). -/
def CellsPopulated (s : State) : Prop := ∀ p ∈ s.mem, inMem s p.1 = true

/-! ### Observation -/

/-- Two registers that no command can tell apart: the same valid bit and, if it is set, the same data (10_state.md R23,
R26). -/
def Slot.Alike {width : Nat} (x y : Slot width) : Prop := x.valid = y.valid ∧ (x.valid = true → x.data = y.data)

/-- Two states that differ at most in the data bits of invalid registers. -/
def Alike (s t : State) : Prop :=
  (∀ i : AReg, Slot.Alike s.a[i] t.a[i]) ∧ (∀ (n : VReg) (h : Lane), Slot.Alike (half s n h) (half t n h)) ∧
    t = { s with a := t.a, vlo := t.vlo, vhi := t.vhi }

/-- Two outcomes that differ at most in the data bits of invalid registers. -/
def AlikeResult : Result → Result → Prop
  | .next s, .next t => Alike s t
  | .fault f, .fault g => f = g
  | .refused f, .refused g => f = g
  | _, _ => False

end Sys2Proof.Machine
end

