-- ==== Sys2Proof/Certificates/Slice0/Obligations.lean ====
section
/-! DEFINITION. The statements for the provers: what the numbered rules of spec/ say of the model. The names of states are
s before a step and t after it. -/

open Sys2Proof Sys2Proof.Machine

/-! ### Encoding (spec/30_encoding.md) -/

/-- Decode and encode agree: every command that has an encoding is read back from its word, and from its four bytes in
memory order (R90, R92, R104). -/
def Obligations.DecodeOfEncodeIsTheCommand : Prop :=
  ∀ i : Instr, i.wellFormed = true →
    decode (encode i) = .ok i ∧ ∀ rest : List Byte, decodeBytes (commandBytes (encode i) ++ rest) = .ok (i, rest)

/-- Every word the decoder accepts is the one encoding of a well-formed command: no bit of a word is dropped (R92,
R106). -/
def Obligations.EncodeOfDecodeIsTheWord : Prop :=
  ∀ (w : Word) (i : Instr), decode w = .ok i → i.wellFormed = true ∧ encode i = w

/-- The decoder accepts exactly the words of the opcode table: a word is a command when it matches a row and passes the
row's value check; the command belongs to that row; rows are disjoint (R104). -/
def Obligations.DecoderAcceptsExactlyTheOpcodeTable : Prop :=
  opcodeTable.length = 34 ∧
    ∀ w : Word,
      ((∃ i, decode w = .ok i) ↔ ∃ r ∈ opcodeTable, w &&& r.mask = r.pattern ∧ ValueCheck r.mnemonic w) ∧
      (∀ i, decode w = .ok i → i.row ∈ opcodeTable ∧ w &&& i.row.mask = i.row.pattern) ∧
      ∀ r₁ ∈ opcodeTable, ∀ r₂ ∈ opcodeTable, w &&& r₁.mask = r₁.pattern → w &&& r₂.mask = r₂.pattern → r₁ = r₂

/-- A few words, one of each family, are read as the commands the spec's formats give them (R92, R104). -/
def Obligations.SampleWordsAreReadRight : Prop :=
  decodeTableWord 32 0x0560FFFC = some (.dbnz 3 0xFFFC#16) ∧
  decodeTableWord 32 0x14B80008 = some (.lda 5 6 8#16) ∧
  decodeTableWord 32 0x16E0000B = some (.csrw 7 .n) ∧
  decodeTableWord 32 0x260A7FFC = some (.vstw 1 2 7 0xFFC#12) ∧
  decodeTableWord 32 0x37184401 = some (.comb 3 1 2 .h1 .h0) ∧
  decodeTableWord 32 0x41040800 = some (.trn4d 0 16 0 2 .w128) ∧
  decodeTableWord 32 0x50000009 = some (.demux .x16) ∧
  decodeTableWord 32 0x00000000 = none ∧
  decodeTableWord 32 0x5000000E = none

/-! ### The step -/

/-- A step runs the decoded command: where the bytes at pc decode to a well-formed command, the engine's step is exec of
it (00_scope.md R8, 20_memory.md R65). The list of turns is the model's choice (log 5): that where the engine's turn stands
first in it the step takes that entry off rests on log 5, not on a rule. -/
def Obligations.StepRunsTheDecodedCommand : Prop :=
  ∀ (s : State) (i : Instr), s.status = .run → Fetchable s → decode (fetchedWord s) = .ok i →
    (s.turns = [] → step s = exec i s) ∧
      ∀ rest, s.turns = .engine :: rest → step s = exec i { s with turns := rest }

/-- A fetch or a decode that fails is a fault: FetchMisaligned, then FetchAccess, then IllegalCommand (60_exceptions.md R301,
R303, R307, R308). It is the engine's turn where the list of turns is empty or has the engine first, and the step takes that
entry off; the list is the model's choice (log 5). -/
def Obligations.FetchAndDecodeFaults : Prop :=
  ∀ s : State, s.status = .run → nextTurn s = .engine →
    let u : State := { s with turns := s.turns.tail }
    (s.pc.toNat % 4 ≠ 0 → ∃ t, step s = .next t ∧ FaultEntry u t 2 s.pc) ∧
    (s.pc.toNat % 4 = 0 → (∃ k < 4, inMem s (s.pc.toNat + k) = false) → ∃ t, step s = .next t ∧ FaultEntry u t 3 s.pc) ∧
    (Fetchable s → (∀ i, decode (fetchedWord s) ≠ .ok i) → ∃ t, step s = .next t ∧ FaultEntry u t 1 (fetchedWord s))

/-- The engine in RUN always takes its next step: no command and no fetch stops the machine (70_reset_and_hazards.md
R346). The first clause says more than R346: it speaks also of commands that are not well formed, whose execution as
IllegalCommand is the model's choice (log 13), and of states outside RUN, in which no step executes a command (log 6). -/
def Obligations.EngineInRunAlwaysSteps : Prop :=
  (∀ (i : Instr) (s : State), ∃ t, exec i s = .next t) ∧
    ∀ s : State, s.status = .run → nextTurn s = .engine → ∃ t, step s = .next t

/-- STATE changes only as 10_state.md R47 lists, the engine acts only in RUN, and the outputs are functions of STATE. That the
engine's turn outside RUN changes nothing but the list of turns is read from R47 (log 6, DEDUCED), and the list is the
model's choice (log 5). -/
def Obligations.StateChangesOnlyAsListed : Prop :=
  (∀ s t : State, step s = .next t → t.status ≠ s.status →
    (IsGo s (nextTurn s) ∧ t.status = .run) ∨
    (nextTurn s = .engine ∧ s.status = .run ∧ t.status = .done ∧ Fetchable s ∧ decode (fetchedWord s) = .ok .halt) ∨
    (nextTurn s = .engine ∧ s.status = .run ∧ t.status = .fault) ∨
    (IsResetTurn (nextTurn s) ∧ t.status = .idle)) ∧
  (∀ s : State, nextTurn s = .engine → s.status ≠ .run → step s = .next { s with turns := s.turns.tail }) ∧
  ∀ s : State, (s.doneOut = true ↔ s.status = .done) ∧ (s.faultOut = true ↔ s.status = .fault)

/-- Every step keeps the memory canonical and the fault registers a record of the fault: CAUSE is a code from 1 to 12
exactly in FAULT, where PC reads the same as FPC, and all three are 0 otherwise (10_state.md R34, R35, R36, R38). -/
def Obligations.StepKeepsTheInvariant : Prop :=
  ∀ s t : State, Inv s → step s = .next t → Inv t

/-- Every step keeps the memory inside MEM: whatever the engine stores, a DEMUX of any strategy included, and whatever the
host writes, every byte the memory lists is at an address in MEM (10_state.md R20, 20_memory.md R62). -/
def Obligations.StepKeepsTheMemoryInsideMem : Prop :=
  ∀ s t : State, CellsPopulated s → step s = .next t → CellsPopulated t

/-- The invariants hold after reset. -/
def Obligations.ResetMeetsTheInvariants : Prop := Inv State.reset ∧ CellsPopulated State.reset

/-- The engine keeps an aligned pc aligned: a misaligned fetch can only be the first of a launch (60_exceptions.md R301,
10_state.md R28). -/
def Obligations.EnginePcStaysAligned : Prop :=
  ∀ s t : State, nextTurn s = .engine → s.pc.toNat % 4 = 0 → step s = .next t → t.pc.toNat % 4 = 0

/-- The commands that set pc other than by adding 4 are JMP and a taken DBNZ; HALT and faults leave it (40_control_address.md
R134). -/
def Obligations.PcChangesOnlyAsListed : Prop :=
  ∀ (i : Instr) (s t : State), s.status = .run → exec i s = .next t →
    (t.status = .fault → t.pc = s.pc) ∧
    (t.status ≠ .fault → t.pc =
      match i with
      | .halt => s.pc
      | .jmp imm => s.pc + BitVec.ofInt 32 (4 * imm.toInt)
      | .dbnz ad imm => if t.a[ad].data = 0#32 then s.pc + 4#32 else s.pc + BitVec.ofInt 32 (4 * imm.toInt)
      | _ => s.pc + 4#32)

/-- A step of the engine that faults is fault entry and nothing else: the faulting command writes nothing (60_exceptions.md
R300, R302). The engine's entry of the list of turns, if there is one, is taken off; the list is the model's choice
(log 5). -/
def Obligations.FaultStepWritesOnlyTheFaultRegisters : Prop :=
  ∀ s t : State, s.status = .run → nextTurn s = .engine → step s = .next t → t.status = .fault →
    t.faultOut = true ∧
      ∃ (code : Nat) (info : Word), 1 ≤ code ∧ code ≤ 12 ∧ FaultEntry { s with turns := s.turns.tail } t code info

/-- MEM does not change while the engine exists (20_memory.md R62), a step takes one turn off the list, and a host turn is
the host's move (70_reset_and_hazards.md R336; the list is the model's, log 5). -/
def Obligations.StepKeepsMemAndTakesOneTurn : Prop :=
  (∀ s t : State, step s = .next t → t.populated = s.populated ∧ t.turns = s.turns.tail) ∧
    ∀ (s : State) (m : HostMove) (rest : List Turn), s.turns = .host m :: rest →
      step s = hostStep m { s with turns := rest }

/-- Which commands write what: address registers by the seven of 10_state.md R22, ENTRY and the descriptor by CSRW, memory
by the vector stores and DEMUX, and nothing else by any. -/
def Obligations.OnlyTheListedCommandsWrite : Prop :=
  ∀ (i : Instr) (s t : State), exec i s = .next t →
    (∀ r : AReg, t.a[r] ≠ s.a[r] →
      match i with
      | .lai ad _ => r = ad
      | .lahi ad _ => r = ad
      | .addai ad _ _ => r = ad
      | .adda ad _ _ => r = ad
      | .lda ad _ _ => r = ad
      | .csrr ad _ => r = ad
      | .dbnz ad _ => r = ad
      | _ => False) ∧
    (∀ c : Csr, c.writable = true → hostReadRegister t c.number ≠ hostReadRegister s c.number →
      ∃ ra, i = .csrw ra c) ∧
    (∀ x : Nat, readByte t x ≠ readByte s x →
      match i with
      | .vst _ _ _ _ => True
      | .vstu _ _ _ _ => True
      | .vstq _ _ _ _ => True
      | .vstw _ _ _ _ => True
      | .demux _ => True
      | _ => False)

/-- No command clears a valid bit; a valid bit is cleared only by an accepted GO or a reset (10_state.md R23, R26, R27). -/
def Obligations.OnlyLaunchAndResetClearValidBits : Prop :=
  (∀ (i : Instr) (s t : State), exec i s = .next t →
    (∀ r : AReg, s.a[r].valid = true → t.a[r].valid = true) ∧
      ∀ (n : VReg) (h : Lane), (half s n h).valid = true → (half t n h).valid = true) ∧
  ∀ s t : State, step s = .next t →
    ((∃ r : AReg, s.a[r].valid = true ∧ t.a[r].valid = false) ∨
      ∃ (n : VReg) (h : Lane), (half s n h).valid = true ∧ (half t n h).valid = false) →
    IsGo s (nextTurn s) ∨ IsResetTurn (nextTurn s)

/-- The data bits of invalid registers can never be observed: two states that differ in nothing else take steps that
differ in nothing else, and read alike for the host (10_state.md R23, R26, R46). -/
def Obligations.InvalidRegisterDataIsUnobservable : Prop :=
  ∀ s t : State, Alike s t →
    AlikeResult (step s) (step t) ∧ (∀ k, hostReadRegister s k = hostReadRegister t k) ∧
      (∀ x, readByte s x = readByte t x)

/-- A launch forgets the registers: from two states that differ in any register data and valid bits, an accepted GO, whatever
the ignored bits 31:2 of CTRL are, and any number of steps after it lead to the same memory, control registers and stops
(10_state.md R27, R32, 00_scope.md R9). That the GO stands first in a list of turns is the model's choice (log 5). -/
def Obligations.LaunchForgetsTheRegisters : Prop :=
  ∀ (s t : State) (v : Word) (rest : List Turn) (k : Nat), t = { s with a := t.a, vlo := t.vlo, vhi := t.vhi } →
    (s.status = .idle ∨ s.status = .done) → v.getLsbD 1 = false → v.getLsbD 0 = true →
    s.turns = .host (.writeRegister 1 v) :: rest →
    AlikeResult (Host.Core.run Sys2Proof.core (k + 1) s) (Host.Core.run Sys2Proof.core (k + 1) t)

/-! ### The host (spec/10_state.md R29 to R43, 70_reset_and_hazards.md R330 to R339) -/

/-- CTRL (10_state.md R32): RST resets in any STATE, GO launches from IDLE and DONE and is ignored in RUN and FAULT, neither
does nothing; CTRL reads 0 and commands cannot write it. -/
def Obligations.CtrlWritesResetOrLaunch : Prop :=
  (∀ (s : State) (v : Word),
    (v.getLsbD 1 = true → ∃ t, hostStep (.writeRegister 1 v) s = .next t ∧ IsReset s t) ∧
    (v.getLsbD 1 = false → v.getLsbD 0 = true → (s.status = .idle ∨ s.status = .done) →
      ∃ t, hostStep (.writeRegister 1 v) s = .next t ∧ IsLaunched s t) ∧
    (v.getLsbD 1 = false → v.getLsbD 0 = true → (s.status = .run ∨ s.status = .fault) →
      hostStep (.writeRegister 1 v) s = .next s) ∧
    (v.getLsbD 1 = false → v.getLsbD 0 = false → hostStep (.writeRegister 1 v) s = .next s) ∧
    hostReadRegister s 1 = 0#32) ∧
  ∀ ra : AReg, (Instr.csrw ra .ctrl).wellFormed = false

/-- Reset (70_reset_and_hazards.md R330, 10_state.md R48): by the reset input and by CTRL.RST alike, in every STATE, every
piece of state takes its reset value and the memory stays; the machine's reset state is such a state. -/
def Obligations.ResetSetsEveryPieceOfState : Prop :=
  (∀ s : State, ∃ t, hostStep .assertReset s = .next t ∧ IsReset s t ∧ hostReadRegister t 0 = 0x54450001#32 ∧
    ∀ v : Word, v.getLsbD 1 = true → hostStep (.writeRegister 1 v) s = .next t) ∧
  IsReset State.reset State.reset

/-- Host register writes by STATE: the whole table of 70_reset_and_hazards.md R339. -/
def Obligations.HostRegisterWritesByState : Prop :=
  ∀ (s : State) (k : Nat) (v : Word),
    (k = 1 → v.getLsbD 1 = true → ∃ t, hostStep (.writeRegister k v) s = .next t ∧ IsReset s t) ∧
    (k = 1 → v.getLsbD 1 = false → v.getLsbD 0 = true → (s.status = .idle ∨ s.status = .done) →
      ∃ t, hostStep (.writeRegister k v) s = .next t ∧ IsLaunched s t) ∧
    (k = 1 → v.getLsbD 1 = false → (v.getLsbD 0 = false ∨ s.status = .run ∨ s.status = .fault) →
      hostStep (.writeRegister k v) s = .next s) ∧
    (k ∈ [6, 8, 9, 10, 11, 12] → (s.status = .idle ∨ s.status = .done) →
      ∃ t, hostStep (.writeRegister k v) s = .next t ∧ hostReadRegister t k = v ∧
        (∀ j, j ≠ k → hostReadRegister t j = hostReadRegister s j) ∧ t.status = s.status ∧
        FrameOfData noA noHalf noByte s t) ∧
    (k ∈ [6, 8, 9, 10, 11, 12] → (s.status = .run ∨ s.status = .fault) → hostStep (.writeRegister k v) s = .next s) ∧
    (k ∉ [1, 6, 8, 9, 10, 11, 12] → hostStep (.writeRegister k v) s = .next s)

/-- Host register reads: allowed in every STATE, with no side effect, of these values (10_state.md R29 to R43). What PC
reads during RUN is left out: the spec does not fix it (70_reset_and_hazards.md R338; log 10). -/
def Obligations.HostRegisterReads : Prop :=
  ∀ s : State,
    (∀ k, hostStep (.readRegister k) s = .next s) ∧
    hostReadRegister s 0 = 0x54450001#32 ∧ hostReadRegister s 1 = 0#32 ∧
    hostReadRegister s 2 =
      (match s.status with
      | .idle => 0#32
      | .run => 1#32
      | .done => 2#32
      | .fault => 3#32) ∧
    hostReadRegister s 3 = s.cause ∧ hostReadRegister s 4 = s.fpc ∧ hostReadRegister s 5 = s.finfo ∧
    hostReadRegister s 6 = s.entry ∧ (s.status ≠ .run → hostReadRegister s 7 = s.pc) ∧ hostReadRegister s 8 = s.src ∧
    hostReadRegister s 9 = s.len ∧ hostReadRegister s 10 = s.dstp ∧ hostReadRegister s 11 = s.n ∧
    hostReadRegister s 12 = s.l ∧ ∀ k, 13 ≤ k → hostReadRegister s k = 0#32

/-- Host memory moves: none in RUN (70_reset_and_hazards.md R336, R337; refused, log 7); otherwise a read changes nothing and
a write puts its bytes there and nothing else. A move outside MEM stops the model by name (the model's choice, log 8). -/
def Obligations.HostMemoryMoves : Prop :=
  ∀ (s : State) (a count : Nat) (bytes : List Byte),
    (s.status = .run → hostStep (.readMemory a count) s = .refused .hostMemoryDuringRun ∧
      hostStep (.writeMemory a bytes) s = .refused .hostMemoryDuringRun) ∧
    (s.status ≠ .run → (∀ k < count, inMem s (a + k) = true) → hostStep (.readMemory a count) s = .next s) ∧
    (s.status ≠ .run → (∀ k < bytes.length, inMem s (a + k) = true) →
      ∃ t, hostStep (.writeMemory a bytes) s = .next t ∧ t.pc = s.pc ∧
        (∀ k < bytes.length, readByte t (a + k) = bytes.getD k 0#8) ∧
        Frame noA noHalf (bytesAt a bytes.length) s t) ∧
    (∀ x, s.status ≠ .run → LowestMissing s a bytes.length x →
      hostStep (.writeMemory a bytes) s = .fault (.hostOutsideMemory x)) ∧
    (∀ x, s.status ≠ .run → LowestMissing s a count x →
      hostStep (.readMemory a count) s = .fault (.hostOutsideMemory x))

/-! ### Control and address commands (spec/40_control_address.md) -/

/-- NOP only advances pc (R120); HALT makes STATE DONE and keeps pc (R121). -/
def Obligations.NopAndHaltComplete : Prop :=
  ∀ s : State,
    (∃ t, exec .nop s = .next t ∧ t.pc = s.pc + 4#32 ∧ Frame noA noHalf noByte s t) ∧
    ∃ t, exec .halt s = .next t ∧ t.status = .done ∧ t.doneOut = true ∧ t.pc = s.pc ∧
      FrameOfData noA noHalf noByte s t ∧ SameControlRegisters s t ∧ SameFaultRegisters s t

/-- ABORT always raises SoftwareAbort with its immediate, zero-extended (R122, 60_exceptions.md R318). -/
def Obligations.AbortRaisesSoftwareAbort : Prop :=
  ∀ (imm : BitVec 24) (s : State), Faults (.abort imm) s 12 (imm.setWidth 32)

/-- JMP: pc becomes pc + 4·sext_24(imm24), modulo 2^32, and nothing else changes (R124). -/
def Obligations.JmpSetsPc : Prop :=
  ∀ (imm : BitVec 24) (s : State), ∃ t, exec (.jmp imm) s = .next t ∧
    (t.pc.toNat : Int) = ((s.pc.toNat : Int) + 4 * imm.toInt) % 2 ^ 32 ∧ Frame noA noHalf noByte s t

/-- DBNZ: the counter goes down by 1 modulo 2^32; pc goes to the target if it is not zero then, else on (R125). -/
def Obligations.DbnzCountsAndBranches : Prop :=
  ∀ (ad : AReg) (imm : BitVec 16) (s : State) (x : Word), HoldsA s ad x →
    ∃ (t : State) (y : Word), exec (.dbnz ad imm) s = .next t ∧ (y.toNat : Int) = ((x.toNat : Int) - 1) % 2 ^ 32 ∧
      HoldsA t ad y ∧
      (y ≠ 0#32 → (t.pc.toNat : Int) = ((s.pc.toNat : Int) + 4 * imm.toInt) % 2 ^ 32) ∧
      (y = 0#32 → t.pc = s.pc + 4#32) ∧ Frame (onlyA ad) noHalf noByte s t

/-- LAI writes the immediate zero-extended (R126), LAHI replaces the upper half (R127), and the pair loads any 32-bit constant
(30_encoding.md R97). -/
def Obligations.LaiAndLahiLoadConstants : Prop :=
  (∀ (ad : AReg) (imm : BitVec 16) (s : State), ∃ t y, exec (.lai ad imm) s = .next t ∧ t.pc = s.pc + 4#32 ∧
    HoldsA t ad y ∧ y.toNat = imm.toNat ∧ Frame (onlyA ad) noHalf noByte s t) ∧
  (∀ (ad : AReg) (imm : BitVec 16) (s : State) (x : Word), HoldsA s ad x →
    ∃ t y, exec (.lahi ad imm) s = .next t ∧ t.pc = s.pc + 4#32 ∧ HoldsA t ad y ∧
      y.toNat = imm.toNat * 2 ^ 16 + x.toNat % 2 ^ 16 ∧ Frame (onlyA ad) noHalf noByte s t) ∧
  ∀ (ad : AReg) (c : Word) (s : State), ∃ t u, exec (.lai ad (c.extractLsb' 0 16)) s = .next t ∧
    exec (.lahi ad (c.extractLsb' 16 16)) t = .next u ∧ HoldsA u ad c ∧ u.pc = s.pc + 8#32

/-- ADDAI and ADDA add modulo 2^32; source and destination may be the same register (R128, R129). -/
def Obligations.AddressAdditions : Prop :=
  (∀ (ad ra : AReg) (imm : BitVec 16) (s : State) (x : Word), HoldsA s ra x →
    ∃ t y, exec (.addai ad ra imm) s = .next t ∧ t.pc = s.pc + 4#32 ∧ HoldsA t ad y ∧
      (y.toNat : Int) = ((x.toNat : Int) + imm.toInt) % 2 ^ 32 ∧ Frame (onlyA ad) noHalf noByte s t) ∧
  ∀ (ad ra rb : AReg) (s : State) (x y : Word), HoldsA s ra x → HoldsA s rb y →
    ∃ t z, exec (.adda ad ra rb) s = .next t ∧ t.pc = s.pc + 4#32 ∧ HoldsA t ad z ∧
      z.toNat = (x.toNat + y.toNat) % 2 ^ 32 ∧ Frame (onlyA ad) noHalf noByte s t

/-- LDA loads the little-endian dword at base + offset; destination and base may be the same register (R130). -/
def Obligations.LdaLoadsADword : Prop :=
  ∀ (ad ra : AReg) (imm : BitVec 16) (s : State) (x : Word), HoldsA s ra x →
    Access.Ok s ⟨addrOf (address16 x imm), 4, 4⟩ →
    ∃ t y, exec (.lda ad ra imm) s = .next t ∧ t.pc = s.pc + 4#32 ∧ HoldsA t ad y ∧
      y.toNat = wordAt s (addrOf (address16 x imm)) ∧ Frame (onlyA ad) noHalf noByte s t

/-- CSRR reads each control register: the constants for ID, CTRL, STATUS, CAUSE, FPC and FINFO, the pc of the CSRR itself for
PC, and the current values of the others (R131; that the constants are read in any STATE is log 12). -/
def Obligations.CsrrReadsAControlRegister : Prop :=
  ∀ (ad : AReg) (c : Csr) (s : State), ∃ t, exec (.csrr ad c) s = .next t ∧ t.pc = s.pc + 4#32 ∧
    HoldsA t ad
      (match c with
      | .id => 0x54450001#32
      | .ctrl => 0#32
      | .status => 1#32
      | .cause => 0#32
      | .fpc => 0#32
      | .finfo => 0#32
      | .entry => s.entry
      | .pc => s.pc
      | .src => s.src
      | .len => s.len
      | .dstp => s.dstp
      | .n => s.n
      | .l => s.l) ∧ Frame (onlyA ad) noHalf noByte s t

/-- CSRW writes all 32 bits of one writable control register and no other; writing ENTRY does not move pc (R132). -/
def Obligations.CsrwWritesAControlRegister : Prop :=
  ∀ (ra : AReg) (c : Csr) (s : State) (x : Word), c.writable = true → HoldsA s ra x →
    ∃ t, exec (.csrw ra c) s = .next t ∧ t.pc = s.pc + 4#32 ∧ hostReadRegister t c.number = x ∧
      (∀ k, k ≠ c.number → k ≠ 7 → hostReadRegister t k = hostReadRegister s k) ∧ t.status = s.status ∧
      FrameOfData noA noHalf noByte s t

/-! ### Vector loads and stores (spec/43_vector_memory.md) -/

/-- VLD and VLDU load 16 or 32 bytes, the byte at ea + 16·h + k into byte lane k of half h; VLD at its width's alignment, VLDU
at any; with w = 0 the upper half is untouched (R200, R201, R209). -/
def Obligations.VectorLoads : Prop :=
  ∀ (vd : VReg) (ra : AReg) (w : Width) (imm : BitVec 12) (s : State) (x : Word), HoldsA s ra x →
    let ea := addrOf (address12 x imm)
    let loaded := fun t : State => t.pc = s.pc + 4#32 ∧
      (∀ h, UsesLane w h → (half t vd h).valid = true ∧
        ∀ k < 16, byteOf (half t vd h).data k = readByte s (ea + 16 * h.index + k)) ∧
      Frame noA (halvesOf vd w) noByte s t
    (Access.Ok s ⟨ea, widthBytes w, widthBytes w⟩ → ∃ t, exec (.vld vd ra w imm) s = .next t ∧ loaded t) ∧
      (Access.Ok s ⟨ea, widthBytes w, 1⟩ → ∃ t, exec (.vldu vd ra w imm) s = .next t ∧ loaded t)

/-- VLDQ loads 8 bytes into the low half and zeroes its upper 8 (R204). -/
def Obligations.VldqLoadsAQword : Prop :=
  ∀ (vd : VReg) (ra : AReg) (imm : BitVec 12) (s : State) (x : Word), HoldsA s ra x →
    let ea := addrOf (address12 x imm)
    Access.Ok s ⟨ea, 8, 8⟩ →
    ∃ t, exec (.vldq vd ra imm) s = .next t ∧ t.pc = s.pc + 4#32 ∧ (half t vd .h0).valid = true ∧
      (∀ k < 8, byteOf (half t vd .h0).data k = readByte s (ea + k)) ∧
      (∀ k < 8, byteOf (half t vd .h0).data (8 + k) = 0#8) ∧ Frame noA (halvesOf vd .w128) noByte s t

/-- VLDG loads 4 or 8 dwords at base + offset + k·stride, modulo 2^32, into the dword lanes in order (R207). -/
def Obligations.VldgGathersDwords : Prop :=
  ∀ (vd : VReg) (ra rt : AReg) (w : Width) (imm : BitVec 12) (s : State) (x y : Word), HoldsA s ra x → HoldsA s rt y →
    let ea := fun k : Nat => addrOf (gatherAddress x y imm k)
    (∀ k < widthBytes w / 4, Access.Ok s ⟨ea k, 4, 4⟩) →
    ∃ t, exec (.vldg vd ra rt w imm) s = .next t ∧ t.pc = s.pc + 4#32 ∧
      (∀ h, UsesLane w h → (half t vd h).valid = true ∧
        ∀ k < 4, (dwordOf (half t vd h).data k).toNat = wordAt s (ea (4 * h.index + k))) ∧
      Frame noA (halvesOf vd w) noByte s t

/-- VST and VSTU store the halves their width names, byte lane k of half h at ea + 16·h + k, and no other byte (R202, R203). -/
def Obligations.VectorStores : Prop :=
  ∀ (vs : VReg) (ra : AReg) (w : Width) (imm : BitVec 12) (s : State) (x : Word), HoldsA s ra x →
    (∀ h, UsesLane w h → (half s vs h).valid = true) →
    let ea := addrOf (address12 x imm)
    let stored := fun t : State => t.pc = s.pc + 4#32 ∧
      (∀ h, UsesLane w h → ∀ k < 16, readByte t (ea + 16 * h.index + k) = byteOf (half s vs h).data k) ∧
      Frame noA noHalf (bytesAt ea (widthBytes w)) s t
    (Access.Ok s ⟨ea, widthBytes w, widthBytes w⟩ → ∃ t, exec (.vst vs ra w imm) s = .next t ∧ stored t) ∧
      (Access.Ok s ⟨ea, widthBytes w, 1⟩ → ∃ t, exec (.vstu vs ra w imm) s = .next t ∧ stored t)

/-- VSTQ and VSTW store one qword or dword lane and no other byte, and read only the half that holds it (R205, R206). -/
def Obligations.LaneStores : Prop :=
  (∀ (vs : VReg) (ra : AReg) (q : Fin 4) (imm : BitVec 12) (s : State) (x : Word), HoldsA s ra x →
    let h : Lane := if q.val < 2 then .h0 else .h1
    let ea := addrOf (address12 x imm)
    (half s vs h).valid = true → Access.Ok s ⟨ea, 8, 8⟩ →
    ∃ t, exec (.vstq vs ra q imm) s = .next t ∧ t.pc = s.pc + 4#32 ∧
      (∀ k < 8, readByte t (ea + k) = byteOf (half s vs h).data (8 * (q.val % 2) + k)) ∧
      Frame noA noHalf (bytesAt ea 8) s t) ∧
  ∀ (vs : VReg) (ra : AReg) (d : Fin 8) (imm : BitVec 12) (s : State) (x : Word), HoldsA s ra x →
    let h : Lane := if d.val < 4 then .h0 else .h1
    let ea := addrOf (address12 x imm)
    (half s vs h).valid = true → Access.Ok s ⟨ea, 4, 4⟩ →
    ∃ t, exec (.vstw vs ra d imm) s = .next t ∧ t.pc = s.pc + 4#32 ∧
      (∀ k < 4, readByte t (ea + k) = byteOf (half s vs h).data (4 * (d.val % 4) + k)) ∧
      Frame noA noHalf (bytesAt ea 4) s t

/-- Effective addresses and branch targets are sums with the signed immediate, modulo 2^32 (20_memory.md R69, 30_encoding.md
R94, R95, R96). -/
def Obligations.EffectiveAddressesAreSignedSums : Prop :=
  ∀ (x y : Word) (i12 : BitVec 12) (i16 : BitVec 16) (i24 : BitVec 24) (k : Nat),
    ((address12 x i12).toNat : Int) = ((x.toNat : Int) + i12.toInt) % 2 ^ 32 ∧
    ((address16 x i16).toNat : Int) = ((x.toNat : Int) + i16.toInt) % 2 ^ 32 ∧
    ((gatherAddress x y i12 k).toNat : Int) = ((x.toNat : Int) + i12.toInt + k * y.toNat) % 2 ^ 32 ∧
    ((target16 x i16).toNat : Int) = ((x.toNat : Int) + 4 * i16.toInt) % 2 ^ 32 ∧
    ((target24 x i24).toNat : Int) = ((x.toNat : Int) + 4 * i24.toInt) % 2 ^ 32

/-- One consistent picture of mixed widths: after a 16-byte store of X at ea, a 4-byte load at ea + 4j returns X.d[j]
(20_memory.md R64, R75). -/
def Obligations.StoreThenDwordLoadReturnsTheLane : Prop :=
  ∀ (vs : VReg) (ra rb ad : AReg) (imm : BitVec 12) (s t u : State) (x y : Word) (v : Half) (j : Nat), j < 4 →
    HoldsA s ra x → HoldsA s rb y → HoldsHalf s vs .h0 v → Access.Ok s ⟨addrOf (address12 x imm), 16, 16⟩ →
    addrOf y = addrOf (address12 x imm) + 4 * j →
    exec (.vst vs ra .w128 imm) s = .next t → exec (.lda ad rb 0#16) t = .next u → HoldsA u ad (dwordOf v j)

/-! ### The shuffle network (spec/44_shuffle_network.md) -/

/-- VMOV copies the halves its width names (R220); PERMD copies dword lane imm8[2j+1:2j] to dword lane j of each (R222). -/
def Obligations.VmovAndPermd : Prop :=
  ∀ (vd vs : VReg) (w : Width) (imm : BitVec 8) (s : State), (∀ h, UsesLane w h → (half s vs h).valid = true) →
    (∃ t, exec (.vmov vd vs w) s = .next t ∧ t.pc = s.pc + 4#32 ∧
      (∀ h, UsesLane w h → half t vd h = half s vs h) ∧ Frame noA (halvesOf vd w) noByte s t) ∧
    ∃ t, exec (.permd vd vs w imm) s = .next t ∧ t.pc = s.pc + 4#32 ∧
      (∀ h, UsesLane w h → (half t vd h).valid = true ∧
        ∀ j < 4, dwordOf (half t vd h).data j = dwordOf (half s vs h).data (imm.toNat / 4 ^ j % 4)) ∧
      Frame noA (halvesOf vd w) noByte s t

/-- PERMB: byte i of each half is the source byte, of the same half, that control byte i names (R221). -/
def Obligations.PermbPermutesBytes : Prop :=
  ∀ (vd vs vc : VReg) (w : Width) (s : State),
    (∀ h, UsesLane w h → (half s vs h).valid = true ∧ (half s vc h).valid = true ∧
      ∀ k < 16, (byteOf (half s vc h).data k).toNat ≤ 15) →
    ∃ t, exec (.permb vd vs vc w) s = .next t ∧ t.pc = s.pc + 4#32 ∧
      (∀ h, UsesLane w h → (half t vd h).valid = true ∧
        ∀ k < 16, byteOf (half t vd h).data k = byteOf (half s vs h).data (byteOf (half s vc h).data k).toNat) ∧
      Frame noA (halvesOf vd w) noByte s t

/-- The four interleaves (R223, R224, R225, R226): all sources are read before the destination is written. -/
def Obligations.Interleaves : Prop :=
  ∀ (vd va vb : VReg) (w : Width) (s : State),
    (∀ h, UsesLane w h → (half s va h).valid = true ∧ (half s vb h).valid = true) →
    let a := fun h => (half s va h).data
    let b := fun h => (half s vb h).data
    let result := fun (t : State) (lanes : Half → Lane → Prop) => t.pc = s.pc + 4#32 ∧
      (∀ h, UsesLane w h → (half t vd h).valid = true ∧ lanes (half t vd h).data h) ∧
      Frame noA (halvesOf vd w) noByte s t
    (∃ t, exec (.unpkld vd va vb w) s = .next t ∧ result t (fun y h =>
      dwordOf y 0 = dwordOf (a h) 0 ∧ dwordOf y 1 = dwordOf (b h) 0 ∧ dwordOf y 2 = dwordOf (a h) 1 ∧
        dwordOf y 3 = dwordOf (b h) 1)) ∧
    (∃ t, exec (.unpkhd vd va vb w) s = .next t ∧ result t (fun y h =>
      dwordOf y 0 = dwordOf (a h) 2 ∧ dwordOf y 1 = dwordOf (b h) 2 ∧ dwordOf y 2 = dwordOf (a h) 3 ∧
        dwordOf y 3 = dwordOf (b h) 3)) ∧
    (∃ t, exec (.unpklq vd va vb w) s = .next t ∧ result t (fun y h =>
      qwordOf y 0 = qwordOf (a h) 0 ∧ qwordOf y 1 = qwordOf (b h) 0)) ∧
    ∃ t, exec (.unpkhq vd va vb w) s = .next t ∧ result t (fun y h =>
      qwordOf y 0 = qwordOf (a h) 1 ∧ qwordOf y 1 = qwordOf (b h) 1)

/-- COMB writes both halves of vd from the two halves named, and reads no other half (R227). -/
def Obligations.CombJoinsTwoHalves : Prop :=
  ∀ (vd va vb : VReg) (sa sb : Lane) (s : State), (half s va sa).valid = true → (half s vb sb).valid = true →
    ∃ t, exec (.comb vd va vb sa sb) s = .next t ∧ t.pc = s.pc + 4#32 ∧ half t vd .h0 = half s va sa ∧
      half t vd .h1 = half s vb sb ∧ Frame noA (halvesOf vd .w256) noByte s t

/-- Laws of the network (R229): (a) the identities, (b) the four low dwords, (c) PERMB composes, (d) the BTRN4 control is its
own inverse. The last clause, that PERMB with it is BTRN4, is 45_register_transpose.md R241. -/
def Obligations.ShuffleLaws : Prop :=
  let identity : Half := 0x0F0E0D0C0B0A09080706050403020100#128
  let grid : Half := 0x0F0B07030E0A06020D0905010C080400#128
  (∀ x : Half, permbHalf x identity = x ∧ permdHalf 0xE4#8 x = x) ∧
  (∀ (vd vs : VReg) (s : State) (x : Half), HoldsHalf s vs .h0 x →
    ∃ t, exec (.vmov vd vs .w128) s = .next t ∧ HoldsHalf t vd .h0 x) ∧
  (∀ a b c d : Half, unpklqHalf (unpkldHalf a b) (unpkldHalf c d) =
    halfOfDwords (dwordOf a 0) (dwordOf b 0) (dwordOf c 0) (dwordOf d 0)) ∧
  (∀ x c₁ c₂ c₃ : Half, (∀ k < 16, (byteOf c₁ k).toNat ≤ 15 ∧ (byteOf c₂ k).toNat ≤ 15) →
    (∀ k < 16, byteOf c₃ k = byteOf c₁ (byteOf c₂ k).toNat) → permbHalf (permbHalf x c₁) c₂ = permbHalf x c₃) ∧
  (∀ k < 16, (byteOf grid (byteOf grid k).toNat).toNat = k) ∧
  ∀ x : Half, permbHalf x grid = btrn4Half x

/-! ### The register transposes (spec/45_register_transpose.md) -/

/-- BTRN4 transposes each half its width names as a 4 by 4 byte matrix (R241). -/
def Obligations.Btrn4TransposesBytes : Prop :=
  ∀ (vd vs : VReg) (w : Width) (s : State), (∀ h, UsesLane w h → (half s vs h).valid = true) →
    ∃ t, exec (.btrn4 vd vs w) s = .next t ∧ t.pc = s.pc + 4#32 ∧
      (∀ h, UsesLane w h → (half t vd h).valid = true ∧
        ∀ j < 4, ∀ k < 4, byteOf (half t vd h).data (4 * k + j) = byteOf (half s vs h).data (4 * j + k)) ∧
      Frame noA (halvesOf vd w) noByte s t

/-- TRN4D transposes 4 by 4 dwords between two strided groups of four registers, each lane by itself; the groups may overlap
(R242, R243). -/
def Obligations.Trn4dTransposesDwords : Prop :=
  ∀ (vd vs : VReg) (ds ss : Fin 4) (w : Width) (s : State), (Instr.trn4d vd vs ds ss w).wellFormed = true →
    (∀ n h, groupHalves vs ss.val 4 w n h → (half s n h).valid = true) →
    ∃ t, exec (.trn4d vd vs ds ss w) s = .next t ∧ t.pc = s.pc + 4#32 ∧
      (∀ h, UsesLane w h → ∀ i < 4, ∀ n : VReg, n.val = vd.val + i * 2 ^ ds.val → (half t n h).valid = true ∧
        ∀ j < 4, ∀ m : VReg, m.val = vs.val + j * 2 ^ ss.val →
          dwordOf (half t n h).data j = dwordOf (half s m h).data i) ∧
      Frame noA (groupHalves vd ds.val 4 w) noByte s t

/-- TRN8B transposes 8 by 8 bytes in low halves and zeroes bytes 8 to 15 (R245); TRN16B transposes 16 by 16 bytes, each lane by
itself (R247). -/
def Obligations.Trn8bAndTrn16bTransposeBytes : Prop :=
  (∀ (vd vs : VReg) (s : State), (Instr.trn8b vd vs).wellFormed = true →
    (∀ n h, groupHalves vs 0 8 .w128 n h → (half s n h).valid = true) →
    ∃ t, exec (.trn8b vd vs) s = .next t ∧ t.pc = s.pc + 4#32 ∧
      (∀ j < 8, ∀ n : VReg, n.val = vd.val + j → (half t n .h0).valid = true ∧
        (∀ i < 8, ∀ m : VReg, m.val = vs.val + i → byteOf (half t n .h0).data i = byteOf (half s m .h0).data j) ∧
        ∀ i < 8, byteOf (half t n .h0).data (8 + i) = 0#8) ∧
      Frame noA (groupHalves vd 0 8 .w128) noByte s t) ∧
  ∀ (vd vs : VReg) (w : Width) (s : State), (Instr.trn16b vd vs w).wellFormed = true →
    (∀ n h, groupHalves vs 0 16 w n h → (half s n h).valid = true) →
    ∃ t, exec (.trn16b vd vs w) s = .next t ∧ t.pc = s.pc + 4#32 ∧
      (∀ h, UsesLane w h → ∀ j < 16, ∀ n : VReg, n.val = vd.val + j → (half t n h).valid = true ∧
        ∀ i < 16, ∀ m : VReg, m.val = vs.val + i → byteOf (half t n h).data i = byteOf (half s m h).data j) ∧
      Frame noA (groupHalves vd 0 16 w) noByte s t

/-- TRN32B transposes the whole register file as a 32 by 32 byte matrix (R250). -/
def Obligations.Trn32bTransposesTheRegisterFile : Prop :=
  ∀ s : State, (∀ n h, (half s n h).valid = true) →
    ∃ t, exec .trn32b s = .next t ∧ t.pc = s.pc + 4#32 ∧ (∀ n h, (half t n h).valid = true) ∧
      (∀ i j : VReg, byteOfReg t j i.val = byteOfReg s i j.val) ∧ Frame noA (fun _ _ => True) noByte s t

/-- The compositions: TRN4D is the eight interleaves (44_shuffle_network.md R230), TRN8B and TRN16B are built from TRN4D and
BTRN4 (R246, R248), TRN32B from TRN16B (R251). -/
def Obligations.TransposeCompositions : Prop :=
  (∀ s0 s1 s2 s3 : Half,
    let t0 := unpkldHalf s0 s1
    let t1 := unpkldHalf s2 s3
    let t2 := unpkhdHalf s0 s1
    let t3 := unpkhdHalf s2 s3
    trn4dRows [s0, s1, s2, s3] = [unpklqHalf t0 t1, unpkhqHalf t0 t1, unpklqHalf t2 t3, unpkhqHalf t2 t3]) ∧
  ∀ (row : Nat → Half) (high : Nat → Half),
    let four := fun (a b c d : Half) (k : Nat) => (trn4dRows [a, b, c, d]).getD k 0#128
    let u := fun g k => btrn4Half (four (row (4 * g)) (row (4 * g + 1)) (row (4 * g + 2)) (row (4 * g + 3)) k)
    let w := fun (f : Nat → Half) (g j : Nat) =>
      (trn16bRows ((List.range 16).map (fun i => f (16 * g + i)))).getD j 0#128
    let out := fun j => (trn32bRows ((List.range 32).map (fun i => vecOfHalves (row i) (high i)))).getD j 0#256
    (∀ k < 2, ∀ p < 4, (trn8bRows ((List.range 8).map row)).getD (4 * k + p) 0#128 =
      four (u 0 k) (u 1 k) 0#128 0#128 p) ∧
    (∀ k < 4, ∀ p < 4, (trn16bRows ((List.range 16).map row)).getD (4 * k + p) 0#128 =
      four (u 0 k) (u 1 k) (u 2 k) (u 3 k) p) ∧
    ∀ j < 16, out j = vecOfHalves (w row 0 j) (w row 1 j) ∧ out (16 + j) = vecOfHalves (w high 0 j) (w high 1 j)

/-- The transposes undo themselves; TRN8B twice keeps bytes 0 to 7 of each row and zeroes bytes 8 to 15 (R254 (a), (b)). -/
def Obligations.TransposesAreInvolutions : Prop :=
  (∀ x : Half, btrn4Half (btrn4Half x) = x) ∧
  (∀ rows : List Half, rows.length = 4 → trn4dRows (trn4dRows rows) = rows) ∧
  (∀ rows : List Half, rows.length = 16 → trn16bRows (trn16bRows rows) = rows) ∧
  (∀ rows : List Vec, rows.length = 32 → trn32bRows (trn32bRows rows) = rows) ∧
  ∀ rows : List Half, rows.length = 8 → ∀ j < 8, ∀ k < 8,
    byteOf ((trn8bRows (trn8bRows rows)).getD j 0#128) k = byteOf (rows.getD j 0#128) k ∧
      byteOf ((trn8bRows (trn8bRows rows)).getD j 0#128) (8 + k) = 0#8

/-! ### DEMUX (spec/41_demux_contract.md, 42_demux_scalar.md, 46_demux_simd.md) -/

/-- The contract (R151): a DEMUX of any strategy but COPY whose checks pass leaves at P[c] + r the byte that was at
SRC + r·N + c, for every r and c, and changes nothing else but pc. -/
def Obligations.DemuxMeetsTheContract : Prop :=
  ∀ (st : Strategy) (s : State), st ≠ .copy → DemuxLegal st s →
    ∃ t, exec (.demux st) s = .next t ∧ t.pc = s.pc + 4#32 ∧
      (∀ c < s.n.toNat, ∀ r < s.l.toNat,
        readByte t (planeAddress s c + r) = readByte s (s.src.toNat + r * s.n.toNat + c)) ∧
      Frame noA noHalf (planeBytes s) s t

/-- COPY whose checks pass copies the source block to P[0] in order and changes nothing else but pc (46_demux_simd.md
R277). -/
def Obligations.DemuxCopyCopiesTheBlock : Prop :=
  ∀ s : State, DemuxLegal .copy s →
    ∃ t, exec (.demux .copy) s = .next t ∧ t.pc = s.pc + 4#32 ∧
      (∀ i < s.n.toNat * s.l.toNat, readByte t (planeAddress s 0 + i) = readByte s (s.src.toNat + i)) ∧
      Frame noA noHalf (planeBytes s) s t

/-- The checks of a DEMUX, in the order of R157, each with its fault and its information (R153, R154, R155). -/
def Obligations.DemuxChecksInOrder : Prop :=
  (∀ w : Word, bits w 31 24 = 0x50 → (bits w 23 4 ≠ 0 ∨ bits w 3 0 > 13) → ∀ i, decode w ≠ .ok i) ∧
  ∀ (st : Strategy) (s : State),
    let g := strategyRow st
    let n := s.n.toNat
    let l := s.l.toNat
    let src := s.src.toNat
    let dstp := s.dstp.toNat
    let p := planeAddress s
    let faults := fun code info : Nat => Faults (.demux st) s code (BitVec.ofNat 32 info)
    let aligned := ShapeOk st s ∧ src % g.aSrc = 0 ∧ dstp % 4 = 0
    let tableRead := ShapeOk st s ∧ BuffersOk st s
    let planesOk := tableRead ∧ ∀ c < n, PlaneOk st s c
    (n = 0 → faults 8 0) ∧
    (n ≠ 0 → l = 0 → faults 8 1) ∧
    (n ≠ 0 → l ≠ 0 → n * l ≠ s.len.toNat → faults 8 2) ∧
    (n ≠ 0 → l ≠ 0 → n * l = s.len.toNat → n % g.gN ≠ 0 → faults 9 0) ∧
    (n ≠ 0 → l ≠ 0 → n * l = s.len.toNat → n % g.gN = 0 → l % g.gL ≠ 0 → faults 9 1) ∧
    (ShapeOk st s → src % g.aSrc ≠ 0 → faults 6 src) ∧
    (ShapeOk st s → src % g.aSrc = 0 → dstp % 4 ≠ 0 → faults 6 dstp) ∧
    (aligned → src + s.len.toNat > 2 ^ 32 → faults 7 src) ∧
    (∀ x, aligned → src + s.len.toNat ≤ 2 ^ 32 → LowestMissing s src s.len.toNat x → faults 7 x) ∧
    (aligned → RangeInMem s src s.len.toNat → dstp + 4 * n > 2 ^ 32 → faults 7 dstp) ∧
    (∀ x, aligned → RangeInMem s src s.len.toNat → dstp + 4 * n ≤ 2 ^ 32 → LowestMissing s dstp (4 * n) x →
      faults 7 x) ∧
    (∀ c < n, tableRead → (∀ e < c, PlaneOk st s e) → p c % g.aDst ≠ 0 → faults 6 (p c)) ∧
    (∀ c < n, tableRead → (∀ e < c, PlaneOk st s e) → p c % g.aDst = 0 → p c + l > 2 ^ 32 → faults 7 (p c)) ∧
    (∀ c < n, ∀ x, tableRead → (∀ e < c, PlaneOk st s e) → p c % g.aDst = 0 → p c + l ≤ 2 ^ 32 →
      LowestMissing s (p c) l x → faults 7 x) ∧
    (∀ c < n, planesOk → st = .copy → (∀ e < c, PlaneContiguous s e) → ¬ PlaneContiguous s c → faults 11 c) ∧
    (∀ c < n, planesOk → (st = .copy → ∀ e < n, PlaneContiguous s e) → (∀ e < c, ¬ PlaneOverlaps s e) →
      PlaneOverlaps s c → faults 10 c)

/-- Equivalence (R160): on a canonical memory, a strategy other than COPY whose checks pass ends in the very state REF ends in;
strategies with the same check parameters are indistinguishable, faults included. -/
def Obligations.DemuxStrategiesAreEquivalent : Prop :=
  ∀ s : State, s.mem.wf →
    (∀ st : Strategy, st ≠ .copy → DemuxLegal st s → exec (.demux st) s = exec (.demux .ref) s) ∧
    exec (.demux .rowm) s = exec (.demux .ref) s ∧ exec (.demux .x4s) s = exec (.demux .rc4) s ∧
    exec (.demux .x8) s = exec (.demux .rc8) s

/-- Re-run (R162): a DEMUX that completes, executed again, completes again and changes nothing but pc, which goes up by 4: the
memory is the very same, and no register, control register or STATE changes. -/
def Obligations.DemuxRerunChangesNothing : Prop :=
  ∀ (st : Strategy) (s t : State), s.mem.wf → DemuxLegal st s → exec (.demux st) s = .next t →
    ∃ u, exec (.demux st) t = .next u ∧ u.pc = t.pc + 4#32 ∧ u.mem = t.mem ∧ Frame noA noHalf noByte t u

/-! ### Faults of commands (spec/60_exceptions.md) -/

/-- UninitRead (R309, R303 (4)): a command whose register operands are not all valid faults with the number of the first that is
not, in the order its rule reads them. -/
def Obligations.FirstInvalidOperandFaults : Prop :=
  ∀ (i : Instr) (s : State) (before after : List Source) (x : Source), i.wellFormed = true →
    sources i = before ++ x :: after → (∀ y ∈ before, y.Valid s) → ¬ x.Valid s →
    Faults i s 4 (BitVec.ofNat 32 x.identifier)

/-- Misaligned and Access (R311, R312; 20_memory.md R66, R67): with all operands valid, the first access of a command that fails
its check decides the fault: the address if it is misaligned, else the address if the access runs past 2^32, else the lowest
address that is not in MEM. VLDU and VSTU have no alignment to miss. -/
def Obligations.FirstFailingAccessFaults : Prop :=
  ∀ (i : Instr) (s : State) (before after : List Access) (x : Access), (∀ y ∈ sources i, y.Valid s) →
    dataAccesses s i = before ++ x :: after → (∀ y ∈ before, y.Ok s) →
    (x.addr % x.align ≠ 0 → Faults i s 6 (BitVec.ofNat 32 x.addr)) ∧
    (x.addr % x.align = 0 → x.addr + x.count > 2 ^ 32 → Faults i s 7 (BitVec.ofNat 32 x.addr)) ∧
    ∀ a, x.addr % x.align = 0 → x.addr + x.count ≤ 2 ^ 32 → LowestMissing s x.addr x.count a →
      Faults i s 7 (BitVec.ofNat 32 a)

/-- ShuffleControl (R310): PERMB with valid operands faults at the first control byte above 15, low half first. -/
def Obligations.PermbBadControlFaults : Prop :=
  ∀ (vd vs vc : VReg) (w : Width) (s : State) (h : Lane) (k : Nat), k < 16 → UsesLane w h →
    (∀ y ∈ sources (.permb vd vs vc w), y.Valid s) →
    (byteOf (half s vc h).data k).toNat > 15 → (∀ j < k, (byteOf (half s vc h).data j).toNat ≤ 15) →
    (h = .h1 → ∀ j < 16, (byteOf (half s vc .h0).data j).toNat ≤ 15) →
    Faults (.permb vd vs vc w) s 5 (BitVec.ofNat 32 (16 * h.index + k))

/-- A command that is not well formed has no encoding the decoder accepts; the model makes its execution IllegalCommand with the
word that would hold its fields (the model's choice, log 13). -/
def Obligations.IllFormedCommandsFault : Prop :=
  ∀ (i : Instr) (s : State), i.wellFormed = false →
    (∀ j, decode (encode i) ≠ .ok j) ∧ Faults i s 1 (encode i)
end

