-- ==== Sys2Proof/Laws/State.lean ====
section
/-! SUPPORT. What each update of the state does to each field: the small lemmas later proofs use instead of unfolding an
update. -/

namespace Sys2Proof.Machine


/-! ### advance -/

@[simp] theorem advance_a (s : State) : (advance s).a = s.a := rfl
@[simp] theorem advance_vlo (s : State) : (advance s).vlo = s.vlo := rfl
@[simp] theorem advance_vhi (s : State) : (advance s).vhi = s.vhi := rfl
@[simp] theorem advance_pc (s : State) : (advance s).pc = s.pc + 4#32 := rfl
@[simp] theorem advance_status (s : State) : (advance s).status = s.status := rfl
@[simp] theorem advance_cause (s : State) : (advance s).cause = s.cause := rfl
@[simp] theorem advance_fpc (s : State) : (advance s).fpc = s.fpc := rfl
@[simp] theorem advance_finfo (s : State) : (advance s).finfo = s.finfo := rfl
@[simp] theorem advance_entry (s : State) : (advance s).entry = s.entry := rfl
@[simp] theorem advance_src (s : State) : (advance s).src = s.src := rfl
@[simp] theorem advance_len (s : State) : (advance s).len = s.len := rfl
@[simp] theorem advance_dstp (s : State) : (advance s).dstp = s.dstp := rfl
@[simp] theorem advance_n (s : State) : (advance s).n = s.n := rfl
@[simp] theorem advance_l (s : State) : (advance s).l = s.l := rfl
@[simp] theorem advance_mem (s : State) : (advance s).mem = s.mem := rfl
@[simp] theorem advance_populated (s : State) : (advance s).populated = s.populated := rfl
@[simp] theorem advance_turns (s : State) : (advance s).turns = s.turns := rfl

/-! ### writeA -/

@[simp] theorem writeA_a (s : State) (i : AReg) (v : Word) : (writeA s i v).a = s.a.set i ⟨v, true⟩ := rfl
@[simp] theorem writeA_vlo (s : State) (i : AReg) (v : Word) : (writeA s i v).vlo = s.vlo := rfl
@[simp] theorem writeA_vhi (s : State) (i : AReg) (v : Word) : (writeA s i v).vhi = s.vhi := rfl
@[simp] theorem writeA_pc (s : State) (i : AReg) (v : Word) : (writeA s i v).pc = s.pc := rfl
@[simp] theorem writeA_status (s : State) (i : AReg) (v : Word) : (writeA s i v).status = s.status := rfl
@[simp] theorem writeA_cause (s : State) (i : AReg) (v : Word) : (writeA s i v).cause = s.cause := rfl
@[simp] theorem writeA_fpc (s : State) (i : AReg) (v : Word) : (writeA s i v).fpc = s.fpc := rfl
@[simp] theorem writeA_finfo (s : State) (i : AReg) (v : Word) : (writeA s i v).finfo = s.finfo := rfl
@[simp] theorem writeA_entry (s : State) (i : AReg) (v : Word) : (writeA s i v).entry = s.entry := rfl
@[simp] theorem writeA_src (s : State) (i : AReg) (v : Word) : (writeA s i v).src = s.src := rfl
@[simp] theorem writeA_len (s : State) (i : AReg) (v : Word) : (writeA s i v).len = s.len := rfl
@[simp] theorem writeA_dstp (s : State) (i : AReg) (v : Word) : (writeA s i v).dstp = s.dstp := rfl
@[simp] theorem writeA_n (s : State) (i : AReg) (v : Word) : (writeA s i v).n = s.n := rfl
@[simp] theorem writeA_l (s : State) (i : AReg) (v : Word) : (writeA s i v).l = s.l := rfl
@[simp] theorem writeA_mem (s : State) (i : AReg) (v : Word) : (writeA s i v).mem = s.mem := rfl
@[simp] theorem writeA_populated (s : State) (i : AReg) (v : Word) : (writeA s i v).populated = s.populated := rfl
@[simp] theorem writeA_turns (s : State) (i : AReg) (v : Word) : (writeA s i v).turns = s.turns := rfl

/-! ### writeHalf -/

@[simp] theorem writeHalf_a (s : State) (n : VReg) (h : Lane) (v : Half) : (writeHalf s n h v).a = s.a := by cases h <;> rfl
@[simp] theorem writeHalf_pc (s : State) (n : VReg) (h : Lane) (v : Half) : (writeHalf s n h v).pc = s.pc := by cases h <;> rfl
@[simp] theorem writeHalf_status (s : State) (n : VReg) (h : Lane) (v : Half) : (writeHalf s n h v).status = s.status := by cases h <;> rfl
@[simp] theorem writeHalf_cause (s : State) (n : VReg) (h : Lane) (v : Half) : (writeHalf s n h v).cause = s.cause := by cases h <;> rfl
@[simp] theorem writeHalf_fpc (s : State) (n : VReg) (h : Lane) (v : Half) : (writeHalf s n h v).fpc = s.fpc := by cases h <;> rfl
@[simp] theorem writeHalf_finfo (s : State) (n : VReg) (h : Lane) (v : Half) : (writeHalf s n h v).finfo = s.finfo := by cases h <;> rfl
@[simp] theorem writeHalf_entry (s : State) (n : VReg) (h : Lane) (v : Half) : (writeHalf s n h v).entry = s.entry := by cases h <;> rfl
@[simp] theorem writeHalf_src (s : State) (n : VReg) (h : Lane) (v : Half) : (writeHalf s n h v).src = s.src := by cases h <;> rfl
@[simp] theorem writeHalf_len (s : State) (n : VReg) (h : Lane) (v : Half) : (writeHalf s n h v).len = s.len := by cases h <;> rfl
@[simp] theorem writeHalf_dstp (s : State) (n : VReg) (h : Lane) (v : Half) : (writeHalf s n h v).dstp = s.dstp := by cases h <;> rfl
@[simp] theorem writeHalf_n (s : State) (n : VReg) (h : Lane) (v : Half) : (writeHalf s n h v).n = s.n := by cases h <;> rfl
@[simp] theorem writeHalf_l (s : State) (n : VReg) (h : Lane) (v : Half) : (writeHalf s n h v).l = s.l := by cases h <;> rfl
@[simp] theorem writeHalf_mem (s : State) (n : VReg) (h : Lane) (v : Half) : (writeHalf s n h v).mem = s.mem := by cases h <;> rfl
@[simp] theorem writeHalf_populated (s : State) (n : VReg) (h : Lane) (v : Half) : (writeHalf s n h v).populated = s.populated := by cases h <;> rfl
@[simp] theorem writeHalf_turns (s : State) (n : VReg) (h : Lane) (v : Half) : (writeHalf s n h v).turns = s.turns := by cases h <;> rfl

/-! ### writeBoth -/

@[simp] theorem writeBoth_a (s : State) (n : VReg) (x : Half × Half) : (writeBoth s n x).a = s.a := rfl
@[simp] theorem writeBoth_pc (s : State) (n : VReg) (x : Half × Half) : (writeBoth s n x).pc = s.pc := rfl
@[simp] theorem writeBoth_status (s : State) (n : VReg) (x : Half × Half) : (writeBoth s n x).status = s.status := rfl
@[simp] theorem writeBoth_cause (s : State) (n : VReg) (x : Half × Half) : (writeBoth s n x).cause = s.cause := rfl
@[simp] theorem writeBoth_fpc (s : State) (n : VReg) (x : Half × Half) : (writeBoth s n x).fpc = s.fpc := rfl
@[simp] theorem writeBoth_finfo (s : State) (n : VReg) (x : Half × Half) : (writeBoth s n x).finfo = s.finfo := rfl
@[simp] theorem writeBoth_entry (s : State) (n : VReg) (x : Half × Half) : (writeBoth s n x).entry = s.entry := rfl
@[simp] theorem writeBoth_src (s : State) (n : VReg) (x : Half × Half) : (writeBoth s n x).src = s.src := rfl
@[simp] theorem writeBoth_len (s : State) (n : VReg) (x : Half × Half) : (writeBoth s n x).len = s.len := rfl
@[simp] theorem writeBoth_dstp (s : State) (n : VReg) (x : Half × Half) : (writeBoth s n x).dstp = s.dstp := rfl
@[simp] theorem writeBoth_n (s : State) (n : VReg) (x : Half × Half) : (writeBoth s n x).n = s.n := rfl
@[simp] theorem writeBoth_l (s : State) (n : VReg) (x : Half × Half) : (writeBoth s n x).l = s.l := rfl
@[simp] theorem writeBoth_mem (s : State) (n : VReg) (x : Half × Half) : (writeBoth s n x).mem = s.mem := rfl
@[simp] theorem writeBoth_populated (s : State) (n : VReg) (x : Half × Half) : (writeBoth s n x).populated = s.populated := rfl
@[simp] theorem writeBoth_turns (s : State) (n : VReg) (x : Half × Half) : (writeBoth s n x).turns = s.turns := rfl

/-! ### writeGroup -/

@[simp] theorem writeGroup_a (s : State) (h : Lane) (ws : List (VReg × Half)) : (writeGroup s h ws).a = s.a := by
  induction ws generalizing s with
  | nil => rfl
  | cons w ws ih => simp [writeGroup, ih]
@[simp] theorem writeGroup_pc (s : State) (h : Lane) (ws : List (VReg × Half)) : (writeGroup s h ws).pc = s.pc := by
  induction ws generalizing s with
  | nil => rfl
  | cons w ws ih => simp [writeGroup, ih]
@[simp] theorem writeGroup_status (s : State) (h : Lane) (ws : List (VReg × Half)) : (writeGroup s h ws).status = s.status := by
  induction ws generalizing s with
  | nil => rfl
  | cons w ws ih => simp [writeGroup, ih]
@[simp] theorem writeGroup_cause (s : State) (h : Lane) (ws : List (VReg × Half)) : (writeGroup s h ws).cause = s.cause := by
  induction ws generalizing s with
  | nil => rfl
  | cons w ws ih => simp [writeGroup, ih]
@[simp] theorem writeGroup_fpc (s : State) (h : Lane) (ws : List (VReg × Half)) : (writeGroup s h ws).fpc = s.fpc := by
  induction ws generalizing s with
  | nil => rfl
  | cons w ws ih => simp [writeGroup, ih]
@[simp] theorem writeGroup_finfo (s : State) (h : Lane) (ws : List (VReg × Half)) : (writeGroup s h ws).finfo = s.finfo := by
  induction ws generalizing s with
  | nil => rfl
  | cons w ws ih => simp [writeGroup, ih]
@[simp] theorem writeGroup_entry (s : State) (h : Lane) (ws : List (VReg × Half)) : (writeGroup s h ws).entry = s.entry := by
  induction ws generalizing s with
  | nil => rfl
  | cons w ws ih => simp [writeGroup, ih]
@[simp] theorem writeGroup_src (s : State) (h : Lane) (ws : List (VReg × Half)) : (writeGroup s h ws).src = s.src := by
  induction ws generalizing s with
  | nil => rfl
  | cons w ws ih => simp [writeGroup, ih]
@[simp] theorem writeGroup_len (s : State) (h : Lane) (ws : List (VReg × Half)) : (writeGroup s h ws).len = s.len := by
  induction ws generalizing s with
  | nil => rfl
  | cons w ws ih => simp [writeGroup, ih]
@[simp] theorem writeGroup_dstp (s : State) (h : Lane) (ws : List (VReg × Half)) : (writeGroup s h ws).dstp = s.dstp := by
  induction ws generalizing s with
  | nil => rfl
  | cons w ws ih => simp [writeGroup, ih]
@[simp] theorem writeGroup_n (s : State) (h : Lane) (ws : List (VReg × Half)) : (writeGroup s h ws).n = s.n := by
  induction ws generalizing s with
  | nil => rfl
  | cons w ws ih => simp [writeGroup, ih]
@[simp] theorem writeGroup_l (s : State) (h : Lane) (ws : List (VReg × Half)) : (writeGroup s h ws).l = s.l := by
  induction ws generalizing s with
  | nil => rfl
  | cons w ws ih => simp [writeGroup, ih]
@[simp] theorem writeGroup_mem (s : State) (h : Lane) (ws : List (VReg × Half)) : (writeGroup s h ws).mem = s.mem := by
  induction ws generalizing s with
  | nil => rfl
  | cons w ws ih => simp [writeGroup, ih]
@[simp] theorem writeGroup_populated (s : State) (h : Lane) (ws : List (VReg × Half)) : (writeGroup s h ws).populated = s.populated := by
  induction ws generalizing s with
  | nil => rfl
  | cons w ws ih => simp [writeGroup, ih]
@[simp] theorem writeGroup_turns (s : State) (h : Lane) (ws : List (VReg × Half)) : (writeGroup s h ws).turns = s.turns := by
  induction ws generalizing s with
  | nil => rfl
  | cons w ws ih => simp [writeGroup, ih]

/-! ### takeFault -/

@[simp] theorem takeFault_a (s : State) (f : Raised) : (takeFault s f).a = s.a := rfl
@[simp] theorem takeFault_vlo (s : State) (f : Raised) : (takeFault s f).vlo = s.vlo := rfl
@[simp] theorem takeFault_vhi (s : State) (f : Raised) : (takeFault s f).vhi = s.vhi := rfl
@[simp] theorem takeFault_pc (s : State) (f : Raised) : (takeFault s f).pc = s.pc := rfl
@[simp] theorem takeFault_status (s : State) (f : Raised) : (takeFault s f).status = .fault := rfl
@[simp] theorem takeFault_cause (s : State) (f : Raised) : (takeFault s f).cause = f.cause.code := rfl
@[simp] theorem takeFault_fpc (s : State) (f : Raised) : (takeFault s f).fpc = s.pc := rfl
@[simp] theorem takeFault_finfo (s : State) (f : Raised) : (takeFault s f).finfo = f.info := rfl
@[simp] theorem takeFault_entry (s : State) (f : Raised) : (takeFault s f).entry = s.entry := rfl
@[simp] theorem takeFault_src (s : State) (f : Raised) : (takeFault s f).src = s.src := rfl
@[simp] theorem takeFault_len (s : State) (f : Raised) : (takeFault s f).len = s.len := rfl
@[simp] theorem takeFault_dstp (s : State) (f : Raised) : (takeFault s f).dstp = s.dstp := rfl
@[simp] theorem takeFault_n (s : State) (f : Raised) : (takeFault s f).n = s.n := rfl
@[simp] theorem takeFault_l (s : State) (f : Raised) : (takeFault s f).l = s.l := rfl
@[simp] theorem takeFault_mem (s : State) (f : Raised) : (takeFault s f).mem = s.mem := rfl
@[simp] theorem takeFault_populated (s : State) (f : Raised) : (takeFault s f).populated = s.populated := rfl
@[simp] theorem takeFault_turns (s : State) (f : Raised) : (takeFault s f).turns = s.turns := rfl

/-! ### writeCsr -/

@[simp] theorem writeCsr_a (s : State) (v : Word) (c : Csr) : (writeCsr s v c).a = s.a := by cases c <;> rfl
@[simp] theorem writeCsr_vlo (s : State) (v : Word) (c : Csr) : (writeCsr s v c).vlo = s.vlo := by cases c <;> rfl
@[simp] theorem writeCsr_vhi (s : State) (v : Word) (c : Csr) : (writeCsr s v c).vhi = s.vhi := by cases c <;> rfl
@[simp] theorem writeCsr_pc (s : State) (v : Word) (c : Csr) : (writeCsr s v c).pc = s.pc := by cases c <;> rfl
@[simp] theorem writeCsr_status (s : State) (v : Word) (c : Csr) : (writeCsr s v c).status = s.status := by cases c <;> rfl
@[simp] theorem writeCsr_cause (s : State) (v : Word) (c : Csr) : (writeCsr s v c).cause = s.cause := by cases c <;> rfl
@[simp] theorem writeCsr_fpc (s : State) (v : Word) (c : Csr) : (writeCsr s v c).fpc = s.fpc := by cases c <;> rfl
@[simp] theorem writeCsr_finfo (s : State) (v : Word) (c : Csr) : (writeCsr s v c).finfo = s.finfo := by cases c <;> rfl
@[simp] theorem writeCsr_mem (s : State) (v : Word) (c : Csr) : (writeCsr s v c).mem = s.mem := by cases c <;> rfl
@[simp] theorem writeCsr_populated (s : State) (v : Word) (c : Csr) : (writeCsr s v c).populated = s.populated := by cases c <;> rfl
@[simp] theorem writeCsr_turns (s : State) (v : Word) (c : Csr) : (writeCsr s v c).turns = s.turns := by cases c <;> rfl
@[simp] theorem writeCsr_entry (s : State) (v : Word) (c : Csr) :
    (writeCsr s v c).entry = if c = .entry then v else s.entry := by cases c <;> rfl
@[simp] theorem writeCsr_src (s : State) (v : Word) (c : Csr) :
    (writeCsr s v c).src = if c = .src then v else s.src := by cases c <;> rfl
@[simp] theorem writeCsr_len (s : State) (v : Word) (c : Csr) :
    (writeCsr s v c).len = if c = .len then v else s.len := by cases c <;> rfl
@[simp] theorem writeCsr_dstp (s : State) (v : Word) (c : Csr) :
    (writeCsr s v c).dstp = if c = .dstp then v else s.dstp := by cases c <;> rfl
@[simp] theorem writeCsr_n (s : State) (v : Word) (c : Csr) :
    (writeCsr s v c).n = if c = .n then v else s.n := by cases c <;> rfl
@[simp] theorem writeCsr_l (s : State) (v : Word) (c : Csr) :
    (writeCsr s v c).l = if c = .l then v else s.l := by cases c <;> rfl

/-! ### invalidate -/

@[simp] theorem invalidate_pc (s : State) : (invalidate s).pc = s.pc := rfl
@[simp] theorem invalidate_status (s : State) : (invalidate s).status = s.status := rfl
@[simp] theorem invalidate_cause (s : State) : (invalidate s).cause = s.cause := rfl
@[simp] theorem invalidate_fpc (s : State) : (invalidate s).fpc = s.fpc := rfl
@[simp] theorem invalidate_finfo (s : State) : (invalidate s).finfo = s.finfo := rfl
@[simp] theorem invalidate_entry (s : State) : (invalidate s).entry = s.entry := rfl
@[simp] theorem invalidate_src (s : State) : (invalidate s).src = s.src := rfl
@[simp] theorem invalidate_len (s : State) : (invalidate s).len = s.len := rfl
@[simp] theorem invalidate_dstp (s : State) : (invalidate s).dstp = s.dstp := rfl
@[simp] theorem invalidate_n (s : State) : (invalidate s).n = s.n := rfl
@[simp] theorem invalidate_l (s : State) : (invalidate s).l = s.l := rfl
@[simp] theorem invalidate_mem (s : State) : (invalidate s).mem = s.mem := rfl
@[simp] theorem invalidate_populated (s : State) : (invalidate s).populated = s.populated := rfl
@[simp] theorem invalidate_turns (s : State) : (invalidate s).turns = s.turns := rfl

/-! ### launch -/

@[simp] theorem launch_a (s : State) : (launch s).a = (invalidate s).a := rfl
@[simp] theorem launch_vlo (s : State) : (launch s).vlo = (invalidate s).vlo := rfl
@[simp] theorem launch_vhi (s : State) : (launch s).vhi = (invalidate s).vhi := rfl
@[simp] theorem launch_pc (s : State) : (launch s).pc = s.entry := rfl
@[simp] theorem launch_status (s : State) : (launch s).status = .run := rfl
@[simp] theorem launch_cause (s : State) : (launch s).cause = s.cause := rfl
@[simp] theorem launch_fpc (s : State) : (launch s).fpc = s.fpc := rfl
@[simp] theorem launch_finfo (s : State) : (launch s).finfo = s.finfo := rfl
@[simp] theorem launch_entry (s : State) : (launch s).entry = s.entry := rfl
@[simp] theorem launch_src (s : State) : (launch s).src = s.src := rfl
@[simp] theorem launch_len (s : State) : (launch s).len = s.len := rfl
@[simp] theorem launch_dstp (s : State) : (launch s).dstp = s.dstp := rfl
@[simp] theorem launch_n (s : State) : (launch s).n = s.n := rfl
@[simp] theorem launch_l (s : State) : (launch s).l = s.l := rfl
@[simp] theorem launch_mem (s : State) : (launch s).mem = s.mem := rfl
@[simp] theorem launch_populated (s : State) : (launch s).populated = s.populated := rfl
@[simp] theorem launch_turns (s : State) : (launch s).turns = s.turns := rfl

/-! ### resetEngine -/

@[simp] theorem resetEngine_a (s : State) : (resetEngine s).a = State.reset.a := rfl
@[simp] theorem resetEngine_vlo (s : State) : (resetEngine s).vlo = State.reset.vlo := rfl
@[simp] theorem resetEngine_vhi (s : State) : (resetEngine s).vhi = State.reset.vhi := rfl
@[simp] theorem resetEngine_pc (s : State) : (resetEngine s).pc = State.reset.pc := rfl
@[simp] theorem resetEngine_status (s : State) : (resetEngine s).status = State.reset.status := rfl
@[simp] theorem resetEngine_cause (s : State) : (resetEngine s).cause = State.reset.cause := rfl
@[simp] theorem resetEngine_fpc (s : State) : (resetEngine s).fpc = State.reset.fpc := rfl
@[simp] theorem resetEngine_finfo (s : State) : (resetEngine s).finfo = State.reset.finfo := rfl
@[simp] theorem resetEngine_entry (s : State) : (resetEngine s).entry = State.reset.entry := rfl
@[simp] theorem resetEngine_src (s : State) : (resetEngine s).src = State.reset.src := rfl
@[simp] theorem resetEngine_len (s : State) : (resetEngine s).len = State.reset.len := rfl
@[simp] theorem resetEngine_dstp (s : State) : (resetEngine s).dstp = State.reset.dstp := rfl
@[simp] theorem resetEngine_n (s : State) : (resetEngine s).n = State.reset.n := rfl
@[simp] theorem resetEngine_l (s : State) : (resetEngine s).l = State.reset.l := rfl
@[simp] theorem resetEngine_mem (s : State) : (resetEngine s).mem = s.mem := rfl
@[simp] theorem resetEngine_populated (s : State) : (resetEngine s).populated = s.populated := rfl
@[simp] theorem resetEngine_turns (s : State) : (resetEngine s).turns = s.turns := rfl

/-! ### Halves and bytes -/

@[simp] theorem half_advance (s : State) (n : VReg) (h : Lane) : half (advance s) n h = half s n h := by cases h <;> rfl

@[simp] theorem half_writeA (s : State) (i : AReg) (v : Word) (n : VReg) (h : Lane) :
    half (writeA s i v) n h = half s n h := by cases h <;> rfl

@[simp] theorem half_takeFault (s : State) (f : Raised) (n : VReg) (h : Lane) :
    half (takeFault s f) n h = half s n h := by cases h <;> rfl

@[simp] theorem half_writeCsr (s : State) (v : Word) (c : Csr) (n : VReg) (h : Lane) :
    half (writeCsr s v c) n h = half s n h := by cases h <;> simp [half]

/-- Writing one half changes that half only, and sets its valid bit. -/
theorem half_writeHalf (s : State) (n : VReg) (h : Lane) (v : Half) (m : VReg) (k : Lane) :
    half (writeHalf s n h v) m k = if m = n ∧ k = h then ⟨v, true⟩ else half s m k := by
  cases h <;> cases k <;> simp [half, writeHalf, Vector.getElem_set, Fin.ext_iff, eq_comm]

@[simp] theorem half_writeHalf_self (s : State) (n : VReg) (h : Lane) (v : Half) :
    half (writeHalf s n h v) n h = ⟨v, true⟩ := by simp [half_writeHalf]

/-- Writing both halves of a register changes that register only. -/
theorem half_writeBoth (s : State) (n : VReg) (x : Half × Half) (m : VReg) (k : Lane) :
    half (writeBoth s n x) m k =
      if m = n then (match k with | .h0 => ⟨x.1, true⟩ | .h1 => ⟨x.2, true⟩) else half s m k := by
  cases k <;> by_cases hm : m = n <;> simp [writeBoth, half_writeHalf, hm]

/-- A[i] after a write of A[j]. -/
theorem writeA_get (s : State) (i j : AReg) (v : Word) :
    (writeA s j v).a[i] = if i = j then ⟨v, true⟩ else s.a[i] := by
  simp [Vector.getElem_set, Fin.ext_iff, eq_comm]

@[simp] theorem readByte_advance (s : State) (x : Nat) : readByte (advance s) x = readByte s x := rfl

@[simp] theorem readByte_writeA (s : State) (i : AReg) (v : Word) (x : Nat) :
    readByte (writeA s i v) x = readByte s x := rfl

@[simp] theorem readByte_writeHalf (s : State) (n : VReg) (h : Lane) (v : Half) (x : Nat) :
    readByte (writeHalf s n h v) x = readByte s x := by simp [readByte]

@[simp] theorem readByte_writeBoth (s : State) (n : VReg) (v : Half × Half) (x : Nat) :
    readByte (writeBoth s n v) x = readByte s x := by simp [readByte]

@[simp] theorem readByte_writeGroup (s : State) (h : Lane) (ws : List (VReg × Half)) (x : Nat) :
    readByte (writeGroup s h ws) x = readByte s x := by simp [readByte]

@[simp] theorem readByte_takeFault (s : State) (f : Raised) (x : Nat) : readByte (takeFault s f) x = readByte s x := rfl

@[simp] theorem readByte_writeCsr (s : State) (v : Word) (c : Csr) (x : Nat) :
    readByte (writeCsr s v c) x = readByte s x := by simp [readByte]

/-- Whether an address is in MEM depends on MEM alone. -/
theorem inMem_congr (s t : State) (h : t.populated = s.populated) (x : Nat) : inMem t x = inMem s x := by
  simp [inMem, h]

end Sys2Proof.Machine
end

