-- ==== Sys2Proof/Laws/Memory.lean ====
section
/-! SUPPORT. Memory and the bytes of values: read after write, the canonical form, little-endian loads and stores
(spec/20_memory.md R63, R64, R71). -/

namespace Sys2Proof.Machine

/-! ### One byte -/

theorem read_filter_ne (m : Memory) (a x : Nat) :
    Memory.read (m.filter (fun p => p.1 ≠ a)) x = if x = a then Config.unwrittenByte else m.read x := by
  induction m with
  | nil => simp [Memory.read]
  | cons p rest ih =>
    obtain ⟨y, b⟩ := p
    by_cases hy : y = a
    · subst hy
      simp only [List.filter_cons, ne_eq, not_true_eq_false, decide_false, Bool.false_eq_true, if_false]
      rw [ih]
      by_cases hx : x = y
      · simp [hx]
      · simp [Memory.read, hx, Ne.symm hx]
    · simp only [List.filter_cons, ne_eq, hy, not_false_eq_true, decide_true, if_true, Memory.read]
      rw [ih]
      by_cases hx : y = x
      · subst hx; simp [hy]
      · simp [hx]

theorem read_insert (m : Memory) (a : Nat) (b : Byte) (x : Nat) (ha : ∀ p ∈ m, p.1 ≠ a) :
    Memory.read (Memory.insert m a b) x = if x = a then b else m.read x := by
  induction m with
  | nil => simp [Memory.insert, Memory.read, eq_comm]
  | cons p rest ih =>
    obtain ⟨y, c⟩ := p
    have hy : y ≠ a := ha (y, c) (by simp)
    simp only [Memory.insert]
    split
    · simp [Memory.read, eq_comm]
    · simp only [Memory.read]
      rw [ih (fun q hq => ha q (by simp [hq]))]
      by_cases hx : y = x
      · subst hx; simp [hy]
      · simp [hx]

/-- Read after write: the byte written, and every other byte as before. It needs no canonical form. -/
theorem read_write (m : Memory) (a : Nat) (b : Byte) (x : Nat) :
    Memory.read (m.write a b) x = if x = a then b else m.read x := by
  unfold Memory.write
  split
  · rename_i hb; rw [read_filter_ne, hb]
  · rw [read_insert _ _ _ _ (by simp), read_filter_ne]
    split <;> rfl

/-! ### The canonical form -/

theorem filter_wf (m : Memory) (a : Nat) (h : m.wf) : Memory.wf (m.filter (fun p => p.1 ≠ a)) :=
  ⟨h.1.filter _, fun p hp => h.2 p (List.mem_of_mem_filter hp)⟩

theorem mem_insert (m : Memory) (a : Nat) (b : Byte) (p : Host.Cell) :
    p ∈ Memory.insert m a b ↔ p = (a, b) ∨ p ∈ m := by
  induction m with
  | nil => simp [Memory.insert]
  | cons q rest ih =>
    obtain ⟨y, c⟩ := q
    simp only [Memory.insert]
    split
    · simp
    · simp only [List.mem_cons, ih]; tauto

theorem insert_wf (m : Memory) (a : Nat) (b : Byte) (h : m.wf) (ha : ∀ p ∈ m, p.1 ≠ a)
    (hb : b ≠ Config.unwrittenByte) : Memory.wf (Memory.insert m a b) := by
  refine ⟨?_, fun p hp => ?_⟩
  · induction m with
    | nil => simp [Memory.insert]
    | cons q rest ih =>
      obtain ⟨y, c⟩ := q
      have hy : y ≠ a := ha (y, c) (by simp)
      have hr : Memory.wf rest := ⟨(List.pairwise_cons.1 h.1).2, fun p hp => h.2 p (by simp [hp])⟩
      simp only [Memory.insert]
      split
      · rename_i hlt
        refine List.pairwise_cons.2 ⟨fun p hp => ?_, h.1⟩
        rcases List.mem_cons.1 hp with rfl | hp
        · exact hlt
        · exact Nat.lt_trans hlt ((List.pairwise_cons.1 h.1).1 p hp)
      · rename_i hge
        refine List.pairwise_cons.2 ⟨fun p hp => ?_, ih hr (fun q hq => ha q (by simp [hq]))⟩
        rcases (mem_insert rest a b p).1 hp with rfl | hp
        · exact Nat.lt_of_le_of_ne (Nat.not_lt.1 hge) hy
        · exact (List.pairwise_cons.1 h.1).1 p hp
  · rcases (mem_insert m a b p).1 hp with rfl | hp
    · exact hb
    · exact h.2 p hp

/-- A write keeps the canonical form. -/
theorem write_wf (m : Memory) (a : Nat) (b : Byte) (h : m.wf) : Memory.wf (m.write a b) := by
  unfold Memory.write
  split
  · exact filter_wf m a h
  · rename_i hb
    exact insert_wf _ a b (filter_wf m a h) (by simp) hb

theorem writeBytes_wf (m : Memory) (a : Nat) (bs : List Byte) (h : m.wf) : Memory.wf (m.writeBytes a bs) := by
  induction bs generalizing m a with
  | nil => exact h
  | cons b bs ih => exact ih _ _ (write_wf m a b h)

theorem store_wf {width : Nat} (m : Memory) (a : Nat) (v : BitVec width) (h : m.wf) : Memory.wf (m.store a v) :=
  writeBytes_wf m a _ h

theorem reset_mem_wf : Memory.wf State.reset.mem := ⟨List.Pairwise.nil, by simp [State.reset]⟩

/-- What a canonical memory lists is what it reads. -/
theorem read_of_mem (m : Memory) (h : m.wf) (p : Host.Cell) (hp : p ∈ m) : m.read p.1 = p.2 := by
  induction m with
  | nil => simp at hp
  | cons q rest ih =>
    have hr : Memory.wf rest := ⟨(List.pairwise_cons.1 h.1).2, fun p hp => h.2 p (by simp [hp])⟩
    rcases List.mem_cons.1 hp with rfl | hq
    · simp [Memory.read]
    · have hlt : q.1 < p.1 := (List.pairwise_cons.1 h.1).1 p hq
      obtain ⟨y, c⟩ := q
      simp only [Memory.read]
      rw [if_neg (by simpa using Nat.ne_of_lt hlt)]
      exact ih hr hq

/-- A byte that differs from what an unlisted address reads as is listed. -/
theorem mem_of_read (m : Memory) (x : Nat) (h : m.read x ≠ Config.unwrittenByte) : (x, m.read x) ∈ m := by
  induction m with
  | nil => simp [Memory.read] at h
  | cons q rest ih =>
    obtain ⟨y, c⟩ := q
    simp only [Memory.read] at h ⊢
    by_cases hy : y = x
    · subst hy; simp
    · simp only [hy, if_false] at h ⊢
      exact List.mem_cons_of_mem _ (ih h)

/-- Two canonical memories that read alike are equal. -/
theorem memory_ext (m k : Memory) (hm : m.wf) (hk : k.wf) (h : ∀ x, m.read x = k.read x) : m = k := by
  have mem_iff : ∀ p, p ∈ m ↔ p ∈ k := by
    intro p
    constructor
    · intro hp
      have hr := read_of_mem m hm p hp
      have hne : k.read p.1 ≠ Config.unwrittenByte := by rw [← h, hr]; exact hm.2 p hp
      have := mem_of_read k p.1 hne
      rwa [← h, hr] at this
    · intro hp
      have hr := read_of_mem k hk p hp
      have hne : m.read p.1 ≠ Config.unwrittenByte := by rw [h, hr]; exact hk.2 p hp
      have := mem_of_read m p.1 hne
      rwa [h, hr] at this
  have irrefl : ∀ l : Memory, l.wf → l.Nodup := fun l hl =>
    hl.1.imp (fun {a b} hab => by intro e; rw [e] at hab; exact Nat.lt_irrefl _ hab)
  have perm : m.Perm k := (List.perm_ext_iff_of_nodup (irrefl m hm) (irrefl k hk)).2 mem_iff
  exact List.Perm.eq_of_pairwise (le := fun p q => p.1 < q.1)
    (fun a b _ _ hab hba => absurd hab (Nat.lt_asymm hba)) hm.1 hk.1 perm

/-! ### Runs of bytes -/

theorem read_writeBytes (m : Memory) (a : Nat) (bs : List Byte) (x : Nat) :
    Memory.read (m.writeBytes a bs) x =
      if a ≤ x ∧ x < a + bs.length then bs.getD (x - a) 0#8 else m.read x := by
  induction bs generalizing m a with
  | nil => simp only [Memory.writeBytes, List.length_nil]; rw [if_neg (by omega)]
  | cons b bs ih =>
    simp only [Memory.writeBytes, ih, read_write, List.length_cons]
    by_cases hx : x = a
    · subst hx; simp
    · by_cases h1 : a + 1 ≤ x ∧ x < a + 1 + bs.length
      · rw [if_pos h1, if_pos (by omega)]
        obtain ⟨d, rfl⟩ : ∃ d, x = a + 1 + d := ⟨x - (a + 1), by omega⟩
        rw [show a + 1 + d - (a + 1) = d by omega, show a + 1 + d - a = d + 1 by omega]
        simp
      · rw [if_neg h1, if_neg hx, if_neg (by omega)]

@[simp] theorem length_bytesOf {width : Nat} (x : BitVec width) : (bytesOf x).length = width / 8 := by
  simp [bytesOf]

@[simp] theorem length_readBytes (m : Memory) (a count : Nat) : (m.readBytes a count).length = count := by
  simp [Memory.readBytes]

theorem getD_bytesOf {width : Nat} (x : BitVec width) (i : Nat) (h : i < width / 8) :
    (bytesOf x).getD i 0#8 = byteOf x i := by
  simp [bytesOf, List.getD_eq_getElem?_getD, h]

theorem getD_readBytes (m : Memory) (a count i : Nat) (h : i < count) :
    (m.readBytes a count).getD i 0#8 = m.read (a + i) := by
  simp [Memory.readBytes, List.getD_eq_getElem?_getD, h]

/-- A store writes byte lane i at address a + i and leaves every other byte alone (20_memory.md R63). -/
theorem read_store {width : Nat} (m : Memory) (a : Nat) (v : BitVec width) (x : Nat) :
    Memory.read (m.store a v) x = if a ≤ x ∧ x < a + width / 8 then byteOf v (x - a) else m.read x := by
  unfold Memory.store
  rw [read_writeBytes, length_bytesOf]
  split
  · rename_i h; rw [getD_bytesOf _ _ (by omega)]
  · rfl

/-! ### Byte lanes -/

theorem byteOf_toNat {width : Nat} (x : BitVec width) (i : Nat) : (byteOf x i).toNat = x.toNat / 2 ^ (8 * i) % 256 := by
  simp [byteOf, BitVec.extractLsb', Nat.shiftRight_eq_div_pow]

theorem natOfBytes_div (bs : List Byte) (i : Nat) : natOfBytes bs / 2 ^ (8 * i) % 256 = (bs.getD i 0#8).toNat := by
  induction bs generalizing i with
  | nil => simp [natOfBytes]
  | cons b bs ih =>
    have hb : b.toNat < 256 := b.isLt
    cases i with
    | zero => simp [natOfBytes]; omega
    | succ i =>
      have : natOfBytes (b :: bs) / 2 ^ (8 * (i + 1)) = natOfBytes bs / 2 ^ (8 * i) := by
        rw [show 8 * (i + 1) = 8 + 8 * i by omega, Nat.pow_add, ← Nat.div_div_eq_div_mul]
        congr 1
        simp [natOfBytes]; omega
      rw [this, ih]; simp

theorem natOfBytes_lt (bs : List Byte) : natOfBytes bs < 2 ^ (8 * bs.length) := by
  induction bs with
  | nil => simp [natOfBytes]
  | cons b bs ih =>
    have hb : b.toNat < 256 := b.isLt
    simp only [natOfBytes, List.length_cons]
    rw [show 8 * (bs.length + 1) = 8 + 8 * bs.length by omega, Nat.pow_add]
    omega

/-- Byte lane i of a value built from bytes is byte i (20_memory.md R63, R64). -/
theorem byteOf_ofBytes (width : Nat) (bs : List Byte) (i : Nat) (h : 8 * bs.length ≤ width) :
    byteOf (ofBytes width bs) i = bs.getD i 0#8 := by
  apply BitVec.eq_of_toNat_eq
  rw [byteOf_toNat, ofBytes, BitVec.toNat_ofNat, Nat.mod_eq_of_lt (b := 2 ^ width), natOfBytes_div]
  exact Nat.lt_of_lt_of_le (natOfBytes_lt bs) (Nat.pow_le_pow_right (by omega) h)

/-- A value is determined by its byte lanes. -/
theorem eq_of_byteOf {width : Nat} (hw : width % 8 = 0) (x y : BitVec width)
    (h : ∀ i < width / 8, byteOf x i = byteOf y i) : x = y := by
  apply BitVec.eq_of_getLsbD_eq
  intro j hj
  have := congrArg (fun b => BitVec.getLsbD b (j % 8)) (h (j / 8) (by omega))
  simp only [byteOf, BitVec.getLsbD_extractLsb'] at this
  have e : 8 * (j / 8) + j % 8 = j := by omega
  rw [e] at this
  simpa [Nat.mod_lt] using this

/-- A load puts the byte at a + i into byte lane i (20_memory.md R63, R64). -/
theorem byteOf_load (width : Nat) (m : Memory) (a i : Nat) (h : i < width / 8) :
    byteOf (m.load width a) i = m.read (a + i) := by
  unfold Memory.load
  rw [byteOf_ofBytes, getD_readBytes _ _ _ _ h]
  simp; omega

/-- A load sees what a store of the same width put there. -/
theorem load_store_same {width : Nat} (hw : width % 8 = 0) (m : Memory) (a : Nat) (v : BitVec width) :
    (m.store a v).load width a = v := by
  apply eq_of_byteOf hw
  intro i hi
  rw [byteOf_load _ _ _ _ hi, read_store, if_pos (by omega)]
  congr 1; omega

/-- Loads from memories that read alike in a range are equal there. -/
theorem load_congr (width : Nat) (m k : Memory) (a : Nat) (h : ∀ i < width / 8, m.read (a + i) = k.read (a + i)) :
    m.load width a = k.load width a := by
  unfold Memory.load Memory.readBytes
  congr 1
  apply List.map_congr_left
  intro i hi
  exact h i (by simpa using hi)

/-- The 32-bit load as the sum of its bytes. -/
theorem load32_toNat (m : Memory) (a : Nat) :
    (m.load 32 a).toNat = (m.read a).toNat + 2 ^ 8 * (m.read (a + 1)).toNat + 2 ^ 16 * (m.read (a + 2)).toNat +
      2 ^ 24 * (m.read (a + 3)).toNat := by
  have h0 := (m.read a).isLt
  have h1 := (m.read (a + 1)).isLt
  have h2 := (m.read (a + 2)).isLt
  have h3 := (m.read (a + 3)).isLt
  simp only [Memory.load, ofBytes, Memory.readBytes, BitVec.toNat_ofNat]
  rw [show List.range (32 / 8) = [0, 1, 2, 3] from rfl]
  simp only [List.map, natOfBytes, Nat.add_zero]
  omega

theorem wordAt_eq (s : State) (a : Nat) : wordAt s a = (s.mem.load 32 a).toNat := (load32_toNat s.mem a).symm

/-! ### The addresses a memory lists -/

theorem mem_write_addr (m : Memory) (a : Nat) (b : Byte) (p : Host.Cell) (h : p ∈ m.write a b) : p.1 = a ∨ p ∈ m := by
  unfold Memory.write at h
  split at h
  · exact .inr (List.mem_of_mem_filter h)
  · rcases (mem_insert _ a b p).1 h with rfl | h
    · exact .inl rfl
    · exact .inr (List.mem_of_mem_filter h)

theorem mem_writeBytes_addr (m : Memory) (a : Nat) (bs : List Byte) (p : Host.Cell) (h : p ∈ m.writeBytes a bs) :
    (a ≤ p.1 ∧ p.1 < a + bs.length) ∨ p ∈ m := by
  induction bs generalizing m a with
  | nil => exact .inr h
  | cons b bs ih =>
    rcases ih _ _ h with h | h
    · exact .inl (by simp; omega)
    · rcases mem_write_addr m a b p h with h | h
      · exact .inl (by simp; omega)
      · exact .inr h

theorem mem_store_addr {width : Nat} (m : Memory) (a : Nat) (v : BitVec width) (p : Host.Cell) (h : p ∈ m.store a v) :
    (a ≤ p.1 ∧ p.1 < a + width / 8) ∨ p ∈ m := by
  simpa using mem_writeBytes_addr m a _ p h

end Sys2Proof.Machine
end

