-- ==== Sys2Proof/Laws/Lanes.lean ====
section
/-! SUPPORT. Lanes of values, and what each pure function of the shuffle network and of the register transposes puts in each
lane (spec/44_shuffle_network.md, 45_register_transpose.md). -/

namespace Sys2Proof.Machine

/-! ### Lanes of lanes -/

theorem getLsbD_byteOf {width : Nat} (x : BitVec width) (i k : Nat) :
    (byteOf x i).getLsbD k = (decide (k < 8) && x.getLsbD (8 * i + k)) := by
  simp [byteOf, BitVec.getLsbD_extractLsb']

theorem byteOf_dwordOf {width : Nat} (x : BitVec width) (j i : Nat) (h : i < 4) :
    byteOf (dwordOf x j) i = byteOf x (4 * j + i) := by
  apply BitVec.eq_of_getLsbD_eq
  intro k hk
  rw [getLsbD_byteOf, getLsbD_byteOf]
  simp only [dwordOf, BitVec.getLsbD_extractLsb', hk, decide_true, Bool.true_and]
  rw [show 32 * j + (8 * i + k) = 8 * (4 * j + i) + k by omega]
  simp; omega

theorem byteOf_qwordOf {width : Nat} (x : BitVec width) (j i : Nat) (h : i < 8) :
    byteOf (qwordOf x j) i = byteOf x (8 * j + i) := by
  apply BitVec.eq_of_getLsbD_eq
  intro k hk
  rw [getLsbD_byteOf, getLsbD_byteOf]
  simp only [qwordOf, BitVec.getLsbD_extractLsb', hk, decide_true, Bool.true_and]
  rw [show 64 * j + (8 * i + k) = 8 * (8 * j + i) + k by omega]
  simp; omega

theorem byteOf_lowHalf (x : Vec) (i : Nat) (h : i < 16) : byteOf (lowHalf x) i = byteOf x i := by
  apply BitVec.eq_of_getLsbD_eq
  intro k hk
  rw [getLsbD_byteOf, getLsbD_byteOf]
  simp only [lowHalf, BitVec.getLsbD_extractLsb', hk, decide_true, Bool.true_and, Nat.zero_add]
  simp; omega

theorem byteOf_highHalf (x : Vec) (i : Nat) (h : i < 16) : byteOf (highHalf x) i = byteOf x (16 + i) := by
  apply BitVec.eq_of_getLsbD_eq
  intro k hk
  rw [getLsbD_byteOf, getLsbD_byteOf]
  simp only [highHalf, BitVec.getLsbD_extractLsb', hk, decide_true, Bool.true_and]
  rw [show 128 + (8 * i + k) = 8 * (16 + i) + k by omega]
  simp; omega

theorem getLsbD_vecOfHalves (lo hi : Half) (k : Nat) :
    (vecOfHalves lo hi).getLsbD k = if k < 128 then lo.getLsbD k else hi.getLsbD (k - 128) :=
  BitVec.getLsbD_append (x := hi) (y := lo)

theorem getLsbD_halfOfQwords (a b : Qword) (k : Nat) :
    (halfOfQwords a b).getLsbD k = if k < 64 then a.getLsbD k else b.getLsbD (k - 64) :=
  BitVec.getLsbD_append (x := b) (y := a)

theorem getLsbD_halfOfDwords (a b c d : Word) (k : Nat) :
    (halfOfDwords a b c d).getLsbD k =
      if k < 32 then a.getLsbD k else if k - 32 < 32 then b.getLsbD (k - 32)
      else if k - 32 - 32 < 32 then c.getLsbD (k - 32 - 32) else d.getLsbD (k - 32 - 32 - 32) := by
  have h1 : (halfOfDwords a b c d).getLsbD k =
      if k < 32 then a.getLsbD k else (d ++ c ++ b).getLsbD (k - 32) := BitVec.getLsbD_append (y := a)
  rw [h1, BitVec.getLsbD_append, BitVec.getLsbD_append]

theorem byteOf_vecOfHalves (lo hi : Half) (i : Nat) (h : i < 32) :
    byteOf (vecOfHalves lo hi) i = if i < 16 then byteOf lo i else byteOf hi (i - 16) := by
  apply BitVec.eq_of_getLsbD_eq
  intro k hk
  rw [getLsbD_byteOf, getLsbD_vecOfHalves]
  by_cases hi : i < 16
  · rw [if_pos (by omega), if_pos hi, getLsbD_byteOf]
  · rw [if_neg (by omega), if_neg hi, getLsbD_byteOf, show 8 * i + k - 128 = 8 * (i - 16) + k by omega]

@[simp] theorem lowHalf_vecOfHalves (lo hi : Half) : lowHalf (vecOfHalves lo hi) = lo := by
  apply eq_of_byteOf (by decide)
  intro i h
  rw [byteOf_lowHalf _ _ h, byteOf_vecOfHalves _ _ _ (by omega), if_pos (by omega)]

@[simp] theorem highHalf_vecOfHalves (lo hi : Half) : highHalf (vecOfHalves lo hi) = hi := by
  apply eq_of_byteOf (by decide)
  intro i h
  rw [byteOf_highHalf _ _ h, byteOf_vecOfHalves _ _ _ (by omega), if_neg (by omega)]
  congr 1; omega

@[simp] theorem vecOfHalves_lanes (x : Vec) : vecOfHalves (lowHalf x) (highHalf x) = x := by
  apply eq_of_byteOf (by decide)
  intro i hi
  rw [byteOf_vecOfHalves _ _ _ hi]
  split
  · rename_i h; exact byteOf_lowHalf x i h
  · rw [byteOf_highHalf x _ (by omega)]; congr 1; omega

/-! ### Values built from lanes -/

theorem dwordOf_halfOfDwords (d : Fin 4 → Word) (j : Fin 4) :
    dwordOf (halfOfDwords (d 0) (d 1) (d 2) (d 3)) j.val = d j := by
  apply BitVec.eq_of_getLsbD_eq
  intro k hk
  simp only [dwordOf, BitVec.getLsbD_extractLsb', hk, decide_true, Bool.true_and, getLsbD_halfOfDwords]
  fin_cases j
  · rw [if_pos (by simpa using hk)]; simp
  · rw [if_neg (by simp), if_pos (by simpa using hk)]; simp
  · rw [if_neg (by simp; omega), if_neg (by simp; omega), if_pos (by simp; omega)]
    congr 1; simp; omega
  · rw [if_neg (by simp; omega), if_neg (by simp; omega), if_neg (by simp; omega)]
    congr 1; simp; omega

theorem qwordOf_halfOfQwords_zero (a b : Qword) : qwordOf (halfOfQwords a b) 0 = a := by
  apply BitVec.eq_of_getLsbD_eq
  intro k hk
  simp only [qwordOf, BitVec.getLsbD_extractLsb', hk, decide_true, Bool.true_and, getLsbD_halfOfQwords]
  rw [if_pos (by omega)]; congr 1; omega

theorem qwordOf_halfOfQwords_one (a b : Qword) : qwordOf (halfOfQwords a b) 1 = b := by
  apply BitVec.eq_of_getLsbD_eq
  intro k hk
  simp only [qwordOf, BitVec.getLsbD_extractLsb', hk, decide_true, Bool.true_and, getLsbD_halfOfQwords]
  rw [if_neg (by omega)]; congr 1; omega

theorem dwordOf_zero (a b c d : Word) : dwordOf (halfOfDwords a b c d) 0 = a :=
  dwordOf_halfOfDwords (fun j => [a, b, c, d].getD j.val 0#32) 0

theorem dwordOf_one (a b c d : Word) : dwordOf (halfOfDwords a b c d) 1 = b :=
  dwordOf_halfOfDwords (fun j => [a, b, c, d].getD j.val 0#32) 1

theorem dwordOf_two (a b c d : Word) : dwordOf (halfOfDwords a b c d) 2 = c :=
  dwordOf_halfOfDwords (fun j => [a, b, c, d].getD j.val 0#32) 2

theorem dwordOf_three (a b c d : Word) : dwordOf (halfOfDwords a b c d) 3 = d :=
  dwordOf_halfOfDwords (fun j => [a, b, c, d].getD j.val 0#32) 3

/-- Dword lane j of a half built from a function of the lane. -/
theorem dwordOf_lanes (f : Nat → Word) (j : Nat) (h : j < 4) : dwordOf (halfOfDwords (f 0) (f 1) (f 2) (f 3)) j = f j :=
  dwordOf_halfOfDwords (fun k => f k.val) ⟨j, h⟩

theorem byteOf_halfOfFn (f : Nat → Byte) (i : Nat) (h : i < 16) : byteOf (halfOfFn f) i = f i := by
  unfold halfOfFn
  rw [byteOf_ofBytes _ _ _ (by simp)]
  simp [List.getD_eq_getElem?_getD, h]

theorem byteOf_vecOfFn (f : Nat → Byte) (i : Nat) (h : i < 32) : byteOf (vecOfFn f) i = f i := by
  unfold vecOfFn
  rw [byteOf_ofBytes _ _ _ (by simp)]
  simp [List.getD_eq_getElem?_getD, h]

/-- A half is determined by its dword lanes. -/
theorem eq_of_dwordOf (x y : Half) (h : ∀ j < 4, dwordOf x j = dwordOf y j) : x = y := by
  apply eq_of_byteOf (by decide)
  intro i hi
  have := congrArg (fun w => byteOf w (i % 4)) (h (i / 4) (by omega))
  beta_reduce at this
  rw [byteOf_dwordOf _ _ _ (by omega), byteOf_dwordOf _ _ _ (by omega)] at this
  rwa [show 4 * (i / 4) + i % 4 = i by omega] at this

/-- A half is determined by its qword lanes. -/
theorem eq_of_qwordOf (x y : Half) (h0 : qwordOf x 0 = qwordOf y 0) (h1 : qwordOf x 1 = qwordOf y 1) : x = y := by
  have h : ∀ j < 2, qwordOf x j = qwordOf y j := by
    intro j hj
    rcases Nat.lt_succ_iff_lt_or_eq.1 hj with hj | rfl
    · obtain rfl : j = 0 := by omega
      exact h0
    · exact h1
  apply eq_of_byteOf (by decide)
  intro i hi
  have := congrArg (fun w => byteOf w (i % 8)) (h (i / 8) (by omega))
  beta_reduce at this
  rw [byteOf_qwordOf _ _ _ (by omega), byteOf_qwordOf _ _ _ (by omega)] at this
  rwa [show 8 * (i / 8) + i % 8 = i by omega] at this

/-- Dword lanes of a qword lane. -/
theorem dwordOf_qwordOf {width : Nat} (x : BitVec width) (j i : Nat) (h : i < 2) :
    dwordOf (qwordOf x j) i = dwordOf x (2 * j + i) := by
  apply eq_of_byteOf (by decide)
  intro k hk
  rw [byteOf_dwordOf _ _ _ hk, byteOf_dwordOf _ _ _ hk, byteOf_qwordOf _ _ _ (by omega)]
  congr 1; omega

/-! ### The shuffle network -/

theorem byteOf_permbHalf (x c : Half) (i : Nat) (h : i < 16) :
    byteOf (permbHalf x c) i = byteOf x (byteOf c i).toNat := byteOf_halfOfFn _ i h

theorem dwordOf_permdHalf (imm : BitVec 8) (x : Half) (j : Nat) (h : j < 4) :
    dwordOf (permdHalf imm x) j = dwordOf x (imm.toNat / 4 ^ j % 4) := by
  unfold permdHalf
  rw [dwordOf_lanes (fun j => dwordOf x (imm.extractLsb' (2 * j) 2).toNat) j h]
  congr 1
  rw [BitVec.extractLsb'_toNat, Nat.shiftRight_eq_div_pow, Nat.pow_mul]

theorem badControl_none (c : Half) (i count : Nat) :
    badControl c i count = none ↔ ∀ k < count, (byteOf c (i + k)).toNat ≤ 15 := by
  induction count generalizing i with
  | zero => simp [badControl]
  | succ count ih =>
    simp only [badControl]
    split
    · rename_i h
      simp only [reduceCtorEq, false_iff]
      intro hk
      have := hk 0 (by omega)
      simp at this h
      omega
    · rename_i h
      rw [ih]
      constructor
      · intro hk k hlt
        cases k with
        | zero => simp at h ⊢; omega
        | succ k => have := hk k (by omega); rwa [Nat.add_assoc, Nat.add_comm 1 k] at this
      · intro hk k hlt
        have := hk (k + 1) (by omega)
        rwa [Nat.add_comm k 1, ← Nat.add_assoc] at this

/-- The first control byte above 15. -/
theorem badControl_first (c : Half) (i count k : Nat) (hk : k < count) (hbad : (byteOf c (i + k)).toNat > 15)
    (hok : ∀ j < k, (byteOf c (i + j)).toNat ≤ 15) : badControl c i count = some (i + k) := by
  induction count generalizing i k with
  | zero => omega
  | succ count ih =>
    simp only [badControl]
    cases k with
    | zero => rw [if_pos (by simpa using hbad)]; rfl
    | succ k =>
      have h0 := hok 0 (by omega)
      rw [if_neg (by simp at h0 ⊢; omega)]
      rw [ih (i + 1) k (by omega) (by rwa [Nat.add_assoc, Nat.add_comm 1 k])
        (fun j hj => by have := hok (j + 1) (by omega); rwa [Nat.add_comm j 1, ← Nat.add_assoc] at this)]
      congr 1; omega

/-! ### The register transposes -/

theorem byteOf_btrn4Half (x : Half) (j k : Nat) (hj : j < 4) (hk : k < 4) :
    byteOf (btrn4Half x) (4 * k + j) = byteOf x (4 * j + k) := by
  unfold btrn4Half
  rw [byteOf_halfOfFn _ _ (by omega)]
  congr 1; omega

theorem getD_map_range {α : Type} (f : Nat → α) (count i : Nat) (d : α) (h : i < count) :
    ((List.range count).map f).getD i d = f i := by
  simp [List.getD_eq_getElem?_getD, h]

@[simp] theorem length_trn4dRows (rows : List Half) : (trn4dRows rows).length = 4 := by simp [trn4dRows]

@[simp] theorem length_trn8bRows (rows : List Half) : (trn8bRows rows).length = 8 := by simp [trn8bRows]

@[simp] theorem length_trn16bRows (rows : List Half) : (trn16bRows rows).length = 16 := by simp [trn16bRows]

@[simp] theorem length_trn32bRows (rows : List Vec) : (trn32bRows rows).length = 32 := by simp [trn32bRows]

theorem dwordOf_trn4dRows (rows : List Half) (i j : Nat) (hi : i < 4) (hj : j < 4) :
    dwordOf ((trn4dRows rows).getD i 0#128) j = dwordOf (rows.getD j 0#128) i := by
  unfold trn4dRows
  rw [getD_map_range _ _ _ _ hi]
  exact dwordOf_lanes (fun j => dwordOf (rows.getD j 0#128) i) j hj

theorem byteOf_trn8bRows (rows : List Half) (i j : Nat) (hi : i < 16) (hj : j < 8) :
    byteOf ((trn8bRows rows).getD j 0#128) i = if i < 8 then byteOf (rows.getD i 0#128) j else 0#8 := by
  unfold trn8bRows
  rw [getD_map_range _ _ _ _ hj, byteOf_halfOfFn _ _ hi]

theorem byteOf_trn16bRows (rows : List Half) (i j : Nat) (hi : i < 16) (hj : j < 16) :
    byteOf ((trn16bRows rows).getD j 0#128) i = byteOf (rows.getD i 0#128) j := by
  unfold trn16bRows
  rw [getD_map_range _ _ _ _ hj, byteOf_halfOfFn _ _ hi]

theorem byteOf_trn32bRows (rows : List Vec) (i j : Nat) (hi : i < 32) (hj : j < 32) :
    byteOf ((trn32bRows rows).getD j 0#256) i = byteOf (rows.getD i 0#256) j := by
  unfold trn32bRows
  rw [getD_map_range _ _ _ _ hj, byteOf_vecOfFn _ _ hi]

end Sys2Proof.Machine
end

