-- ==== Sys2Proof/Laws/Ops.lean ====
section
/-! SUPPORT. What each shared operation can do: checks, raised faults, the access check, register reads, group reads and
writes. Later proofs cite these lemmas and do not unfold the operations. -/

namespace Sys2Proof.Machine

/-! ### Checks in sequence (spec/00_scope.md R13) -/

@[simp] theorem ok_bind {α β : Type} (x : α) (f : α → Check β) : ((Except.ok x : Check α) >>= f) = f x := rfl

@[simp] theorem error_bind {α β : Type} (e : Raised) (f : α → Check β) :
    ((Except.error e : Check α) >>= f) = .error e := rfl

@[simp] theorem pure_check {α : Type} (x : α) : (pure x : Check α) = .ok x := rfl

/-- A sequence of checks passes exactly when each of its parts does. -/
theorem bind_eq_ok {α β : Type} (x : Check α) (f : α → Check β) (y : β) :
    (x >>= f) = .ok y ↔ ∃ z, x = .ok z ∧ f z = .ok y := by
  cases x <;> simp

/-- A check that answers nothing, then another. -/
theorem unit_bind_eq_ok {β : Type} (x : Check Unit) (f : Unit → Check β) (y : β) :
    (x >>= f) = .ok y ↔ x = .ok () ∧ f () = .ok y := by
  cases x <;> simp

/-- A sequence of checks raises the fault of its first part that raises one. -/
theorem bind_eq_error {α β : Type} (x : Check α) (f : α → Check β) (e : Raised) :
    (x >>= f) = .error e ↔ x = .error e ∨ ∃ z, x = .ok z ∧ f z = .error e := by
  cases x <;> simp

/-! ### The end of a command (60_exceptions.md R300) -/

@[simp] theorem conclude_ok (s t : State) : conclude s (.ok t) = .next t := rfl

@[simp] theorem conclude_error (s : State) (f : Raised) : conclude s (.error f) = .next (takeFault s f) := rfl

/-- A command ends in its own effect or in fault entry, and always in a next state. -/
theorem conclude_cases (s t : State) (r : Check State) (h : conclude s r = .next t) :
    r = .ok t ∨ ∃ f, r = .error f ∧ t = takeFault s f := by
  cases r with
  | ok u => left; simpa using h
  | error f => right; exact ⟨f, rfl, by simpa using h.symm⟩

theorem conclude_total (s : State) (r : Check State) : ∃ t, conclude s r = .next t := by
  cases r <;> simp

/-- The code of a cause is between 1 and 12. -/
theorem code_range (c : Cause) : 1 ≤ c.code.toNat ∧ c.code.toNat ≤ 12 := by cases c <;> decide

/-- Fault entry writes CAUSE, FPC, FINFO and STATE, and nothing else. -/
theorem takeFault_isFaultEntry (s : State) (f : Raised) : FaultEntry s (takeFault s f) f.cause.code.toNat f.info := by
  refine ⟨rfl, by simp, rfl, rfl, rfl, ⟨fun _ _ => rfl, fun n h _ => half_takeFault s f n h, fun _ _ => rfl, rfl, rfl⟩,
    ⟨rfl, rfl, rfl, rfl, rfl, rfl⟩, rfl⟩

/-- A command whose checks raise a fault ends in its fault entry. -/
theorem faults_of_error (i : Instr) (s : State) (r : Check State) (c : Cause) (info : Word)
    (h : exec i s = conclude s r) (hr : r = .error ⟨c, info⟩) : Faults i s c.code.toNat info :=
  ⟨takeFault s ⟨c, info⟩, by rw [h, hr, conclude_error], takeFault_isFaultEntry s ⟨c, info⟩⟩

@[simp] theorem raise_eq {α : Type} (c : Cause) (x : Nat) :
    (raise c x : Check α) = .error ⟨c, BitVec.ofNat 32 x⟩ := rfl

/-! ### The access check (20_memory.md R66) -/

theorem firstMissing_none (s : State) (a count : Nat) :
    firstMissing s a count = none ↔ ∀ k < count, inMem s (a + k) = true := by
  induction count generalizing a with
  | zero => simp [firstMissing]
  | succ count ih =>
    simp only [firstMissing]
    split
    · rename_i h
      rw [ih]
      constructor
      · intro hk k hlt
        cases k with
        | zero => exact h
        | succ k => have := hk k (by omega); rwa [Nat.add_assoc, Nat.add_comm 1 k] at this
      · intro hk k hlt
        have := hk (k + 1) (by omega)
        rwa [Nat.add_comm k 1, ← Nat.add_assoc] at this
    · rename_i h
      simp only [reduceCtorEq, false_iff]
      intro hk
      exact h (hk 0 (by omega))

theorem firstMissing_some (s : State) (a count x : Nat) :
    firstMissing s a count = some x ↔ LowestMissing s a count x := by
  induction count generalizing a with
  | zero => simp [firstMissing]
  | succ count ih =>
    simp only [firstMissing]
    split
    · rename_i h
      rw [ih]
      constructor
      · rintro ⟨k, hk, rfl, hf, hj⟩
        refine ⟨k + 1, by omega, by omega, ?_, ?_⟩
        · rwa [Nat.add_comm k 1, ← Nat.add_assoc]
        · intro j hlt
          cases j with
          | zero => exact h
          | succ j => have := hj j (by omega); rwa [Nat.add_assoc, Nat.add_comm 1 j] at this
      · rintro ⟨k, hk, rfl, hf, hj⟩
        cases k with
        | zero => simp at hf; rw [hf] at h; simp at h
        | succ k =>
          refine ⟨k, by omega, by omega, ?_, ?_⟩
          · rwa [Nat.add_comm k 1, ← Nat.add_assoc] at hf
          · intro j hlt
            have := hj (j + 1) (by omega)
            rwa [Nat.add_comm j 1, ← Nat.add_assoc] at this
    · rename_i h
      constructor
      · intro e
        obtain rfl : a = x := by simpa using e
        exact ⟨0, by omega, by omega, by simpa using h, by omega⟩
      · rintro ⟨k, hk, rfl, hf, hj⟩
        cases k with
        | zero => rfl
        | succ k => exact absurd (hj 0 (by omega)) h

theorem firstMissing_congr (s t : State) (h : t.populated = s.populated) (a count : Nat) :
    firstMissing t a count = firstMissing s a count := by
  induction count generalizing a with
  | zero => rfl
  | succ count ih => simp [firstMissing, inMem_congr s t h, ih]

/-- CheckAccess passes exactly on an aligned range below 2^32 and in MEM. -/
theorem checkAccess_ok (s : State) (a count align : Nat) :
    checkAccess s a count align = .ok () ↔ Access.Ok s ⟨a, count, align⟩ := by
  unfold checkAccess Access.Ok RangeInMem Config.addressSpace
  by_cases h1 : a % align = 0
  · by_cases h2 : a + count ≤ 4294967296
    · rw [if_neg (by omega), if_neg (by omega)]
      simp only [h1, true_and]
      cases h3 : firstMissing s a count with
      | none => simpa [h2] using (firstMissing_none s a count).1 h3
      | some x =>
        simp only [raise_eq, reduceCtorEq, false_iff, not_and]
        intro _ h4
        rw [(firstMissing_none s a count).2 h4] at h3
        simp at h3
    · rw [if_neg (by omega), if_pos (by omega)]
      simp only [raise_eq, reduceCtorEq, false_iff]
      omega
  · rw [if_pos h1]; simp [h1]

/-- CheckAccess (1): a misaligned address. -/
theorem checkAccess_misaligned (s : State) (a count align : Nat) (h : a % align ≠ 0) :
    checkAccess s a count align = .error ⟨.misaligned, BitVec.ofNat 32 a⟩ := by simp [checkAccess, h]

/-- CheckAccess (2): the access would run past the top of the address space. -/
theorem checkAccess_top (s : State) (a count align : Nat) (h : a % align = 0) (ht : a + count > 2 ^ 32) :
    checkAccess s a count align = .error ⟨.access, BitVec.ofNat 32 a⟩ := by
  have : a + count > Config.addressSpace := by simpa [Config.addressSpace] using ht
  simp [checkAccess, h, this]

/-- CheckAccess (3): the lowest address that is not in MEM. -/
theorem checkAccess_missing (s : State) (a count align x : Nat) (h : a % align = 0) (ht : a + count ≤ 2 ^ 32)
    (hx : LowestMissing s a count x) : checkAccess s a count align = .error ⟨.access, BitVec.ofNat 32 x⟩ := by
  have : ¬ a + count > Config.addressSpace := by simpa [Config.addressSpace] using ht
  simp [checkAccess, h, this, (firstMissing_some s a count x).2 hx]

/-! ### Register reads (00_scope.md R12) -/

theorem readA_valid (s : State) (i : AReg) (h : s.a[i].valid = true) : readA s i = .ok s.a[i].data := by
  unfold readA; rw [if_pos h]

theorem readA_holds (s : State) (i : AReg) (x : Word) (h : HoldsA s i x) : readA s i = .ok x := by
  unfold readA; rw [h]; rfl

theorem readA_invalid (s : State) (i : AReg) (h : ¬ s.a[i].valid = true) :
    readA s i = .error ⟨.uninitRead, BitVec.ofNat 32 (64 + i.val)⟩ := by
  unfold readA; rw [if_neg h]; rfl

theorem readA_eq_ok (s : State) (i : AReg) (x : Word) : readA s i = .ok x ↔ HoldsA s i x := by
  unfold readA HoldsA
  generalize s.a[i] = r
  obtain ⟨d, v⟩ := r
  cases v <;> simp

theorem readHalf_valid (s : State) (n : VReg) (h : Lane) (hv : (half s n h).valid = true) :
    readHalf s n h = .ok (half s n h).data := by simp [readHalf, hv]

theorem readHalf_holds (s : State) (n : VReg) (h : Lane) (x : Half) (hx : HoldsHalf s n h x) :
    readHalf s n h = .ok x := by
  have h' : half s n h = ⟨x, true⟩ := hx
  simp [readHalf, h']

theorem readHalf_invalid (s : State) (n : VReg) (h : Lane) (hv : ¬ (half s n h).valid = true) :
    readHalf s n h = .error ⟨.uninitRead, BitVec.ofNat 32 (n.val + 32 * h.index)⟩ := by
  cases h <;> simp [readHalf, hv, Lane.index]

theorem readHalf_eq_ok (s : State) (n : VReg) (h : Lane) (x : Half) : readHalf s n h = .ok x ↔ HoldsHalf s n h x := by
  unfold readHalf HoldsHalf
  generalize half s n h = r
  obtain ⟨d, v⟩ := r
  cases v <;> cases h <;> simp

theorem readBoth_valid (s : State) (n : VReg) (h0 : (half s n .h0).valid = true) (h1 : (half s n .h1).valid = true) :
    readBoth s n = .ok ((half s n .h0).data, (half s n .h1).data) := by
  simp [readBoth, readHalf_valid, h0, h1]

theorem readGroup_valid (s : State) (h : Lane) (ns : List VReg) (hv : ∀ n ∈ ns, (half s n h).valid = true) :
    readGroup s h ns = .ok (ns.map (fun n => (half s n h).data)) := by
  induction ns with
  | nil => rfl
  | cons n ns ih =>
    simp [readGroup, readHalf_valid s n h (hv n (by simp)), ih (fun m hm => hv m (by simp [hm]))]

theorem readGroupBoth_valid (s : State) (ns : List VReg) (hv : ∀ n ∈ ns, ∀ h, (half s n h).valid = true) :
    readGroupBoth s ns = .ok (ns.map (fun n => ((half s n .h0).data, (half s n .h1).data))) := by
  induction ns with
  | nil => rfl
  | cons n ns ih =>
    simp [readGroupBoth, readBoth_valid s n (hv n (by simp) .h0) (hv n (by simp) .h1),
      ih (fun m hm => hv m (by simp [hm]))]

/-! ### Group writes -/

/-- Writing one half of each of a group of distinct registers writes those halves and no other. -/
theorem half_writeGroup (s : State) (h : Lane) (ws : List (VReg × Half)) (hn : (ws.map Prod.fst).Nodup) (m : VReg)
    (k : Lane) :
    half (writeGroup s h ws) m k =
      if k = h then (match ws.find? (fun w => w.1 = m) with
        | some w => ⟨w.2, true⟩
        | none => half s m k) else half s m k := by
  induction ws generalizing s with
  | nil => simp [writeGroup]
  | cons w ws ih =>
    obtain ⟨n, x⟩ := w
    simp only [List.map_cons, List.nodup_cons] at hn
    simp only [writeGroup]
    rw [ih _ hn.2]
    by_cases hk : k = h
    · simp only [hk, if_true, List.find?_cons]
      by_cases hm : n = m
      · subst hm
        have : ws.find? (fun w => decide (w.1 = n)) = none := by
          rw [List.find?_eq_none]
          intro w hw hd
          exact hn.1 (by simpa using ⟨w.2, (by simpa using hd) ▸ hw⟩)
        simp [this]
      · have hne : ¬ (m = n) := fun e => hm e.symm
        simp [hm, half_writeHalf, hne]
    · simp [hk, half_writeHalf]

theorem length_groupRegs (first : VReg) (logStride count : Nat) : (groupRegs first logStride count).length = count := by
  simp [groupRegs]

/-- Register k of a group that fits has the number first + k·2^logStride (30_encoding.md R93). -/
theorem groupReg_val (first : VReg) (logStride count k : Nat) (hf : groupFits first logStride count = true)
    (hk : k < count) : (groupReg first logStride k).val = first.val + k * 2 ^ logStride := by
  have h1 : first.val + (count - 1) * 2 ^ logStride ≤ 31 := by simpa [groupFits] using hf
  have h2 : k * 2 ^ logStride ≤ (count - 1) * 2 ^ logStride := Nat.mul_le_mul_right _ (by omega)
  simp only [groupReg, Fin.ofNat]
  exact Nat.mod_eq_of_lt (by omega)

/-- The registers of a group that fits are distinct (45_register_transpose.md R243). -/
theorem groupRegs_nodup (first : VReg) (logStride count : Nat) (hf : groupFits first logStride count = true) :
    (groupRegs first logStride count).Nodup := by
  unfold groupRegs
  refine List.Nodup.map_on ?_ List.nodup_range
  intro x hx y hy e
  have hx' := groupReg_val first logStride count x hf (by simpa using hx)
  have hy' := groupReg_val first logStride count y hf (by simpa using hy)
  rw [e] at hx'
  have h2 : x * 2 ^ logStride = y * 2 ^ logStride := by omega
  exact Nat.eq_of_mul_eq_mul_right (Nat.pow_pos (by omega)) h2

theorem requireLegal_wellFormed (i : Instr) (h : i.wellFormed = true) : requireLegal i = .ok () := by
  simp [requireLegal, h]

theorem requireLegal_illFormed (i : Instr) (h : i.wellFormed = false) :
    requireLegal i = .error ⟨.illegalCommand, encode i⟩ := by simp [requireLegal, h]

end Sys2Proof.Machine
end

