-- ==== Sys2Proof/Laws/Commands.lean ====
section
/-! SUPPORT. What the shared meanings answer when their checks pass, with their frames: one lemma for each. -/

namespace Sys2Proof.Machine

theorem usesLane_w128 {h : Lane} (hl : UsesLane .w128 h) : h = .h0 := by
  rcases hl with hl | hl
  · exact hl
  · exact absurd hl (by decide)

/-! ### Frames of the writes -/

theorem frame_advance (s : State) : Frame noA noHalf noByte s (advance s) :=
  ⟨⟨fun _ _ => rfl, fun n h _ => half_advance s n h, fun _ _ => rfl, rfl, rfl⟩, ⟨rfl, rfl, rfl, rfl, rfl, rfl⟩, rfl,
    rfl, rfl, rfl⟩

theorem frame_writeA (s : State) (ad : AReg) (x : Word) : Frame (onlyA ad) noHalf noByte s (advance (writeA s ad x)) := by
  refine ⟨⟨fun i hi => ?_, fun n h _ => by simp, fun _ _ => rfl, rfl, rfl⟩, ⟨rfl, rfl, rfl, rfl, rfl, rfl⟩, rfl,
    rfl, rfl, rfl⟩
  have := writeA_get s i ad x
  rw [if_neg hi] at this
  exact this

theorem holdsA_writeA (s : State) (ad : AReg) (x : Word) : HoldsA (advance (writeA s ad x)) ad x := by
  have := writeA_get s ad ad x
  rw [if_pos rfl] at this
  exact this

/-- The frame of a write of halves, from what it does to the halves alone. -/
theorem frame_of_halves (s t : State) (written : VReg → Lane → Prop) (hh : SameHalvesBut written s t)
    (ht : t = { s with vlo := t.vlo, vhi := t.vhi, pc := t.pc }) : Frame noA written noByte s t := by
  rw [ht]
  refine ⟨⟨fun _ _ => rfl, fun n h hn => ?_, fun _ _ => rfl, rfl, rfl⟩, ⟨rfl, rfl, rfl, rfl, rfl, rfl⟩, rfl, rfl, rfl, rfl⟩
  rw [← hh n h hn]
  cases h <;> rfl

theorem frame_writeHalf (s : State) (vd : VReg) (x : Half) :
    Frame noA (halvesOf vd .w128) noByte s (advance (writeHalf s vd .h0 x)) := by
  refine frame_of_halves _ _ _ (fun n h hn => ?_) rfl
  rw [half_advance, half_writeHalf, if_neg (fun e => hn ⟨e.1, .inl e.2⟩)]

theorem frame_writeBoth (s : State) (vd : VReg) (x : Half × Half) :
    Frame noA (halvesOf vd .w256) noByte s (advance (writeBoth s vd x)) := by
  refine frame_of_halves _ _ _ (fun n h hn => ?_) rfl
  rw [half_advance, half_writeBoth, if_neg (fun e => hn ⟨e, .inr rfl⟩)]

/-- A store changes only the bytes it stores. -/
theorem frame_store {width : Nat} (s : State) (a : Nat) (v : BitVec width) :
    Frame noA noHalf (bytesAt a (width / 8)) s (advance { s with mem := s.mem.store a v }) := by
  refine ⟨⟨fun _ _ => rfl, fun n h _ => by cases h <;> rfl, fun x hx => ?_, rfl, rfl⟩, ⟨rfl, rfl, rfl, rfl, rfl, rfl⟩,
    rfl, rfl, rfl, rfl⟩
  show Memory.read (s.mem.store a v) x = s.mem.read x
  rw [read_store, if_neg hx]

/-! ### Loads and stores (spec/43_vector_memory.md) -/

/-- A load that passes its checks writes the halves its width names from the bytes at ea. -/
theorem loadVec_ok (align : Nat) (vd : VReg) (ra : AReg) (w : Width) (imm : BitVec 12) (s : State) (x : Word)
    (hx : HoldsA s ra x) (hok : Access.Ok s ⟨addrOf (address12 x imm), widthBytes w, align⟩) :
    ∃ t, loadVec align vd ra w imm s = .ok t ∧ t.pc = s.pc + 4#32 ∧
      (∀ h, UsesLane w h → (half t vd h).valid = true ∧
        ∀ k < 16, byteOf (half t vd h).data k = readByte s (addrOf (address12 x imm) + 16 * h.index + k)) ∧
      Frame noA (halvesOf vd w) noByte s t := by
  have hc := (checkAccess_ok s _ _ _).2 hok
  cases w with
  | w128 =>
    refine ⟨_, by simp only [loadVec, readA_holds s ra x hx, ok_bind, hc, pure_check]; rfl, rfl, fun h hl => ?_,
      frame_writeHalf s vd _⟩
    obtain rfl := usesLane_w128 hl
    rw [half_advance, half_writeHalf_self]
    exact ⟨rfl, fun k hk => by rw [byteOf_load _ _ _ _ hk]; rfl⟩
  | w256 =>
    refine ⟨_, by simp only [loadVec, readA_holds s ra x hx, ok_bind, hc, pure_check]; rfl, rfl, fun h _ => ?_,
      frame_writeBoth s vd _⟩
    rw [half_advance, half_writeBoth, if_pos rfl]
    cases h with
    | h0 => exact ⟨rfl, fun k hk => by rw [byteOf_lowHalf _ _ hk, byteOf_load _ _ _ _ (by omega)]; rfl⟩
    | h1 =>
      refine ⟨rfl, fun k hk => ?_⟩
      rw [byteOf_highHalf _ _ hk, byteOf_load _ _ _ _ (by omega), readByte, ← Nat.add_assoc]
      rfl

/-- A store that passes its checks stores the halves its width names, and no other byte. -/
theorem storeVec_ok (align : Nat) (vs : VReg) (ra : AReg) (w : Width) (imm : BitVec 12) (s : State) (x : Word)
    (hx : HoldsA s ra x) (hv : ∀ h, UsesLane w h → (half s vs h).valid = true)
    (hok : Access.Ok s ⟨addrOf (address12 x imm), widthBytes w, align⟩) :
    ∃ t, storeVec align vs ra w imm s = .ok t ∧ t.pc = s.pc + 4#32 ∧
      (∀ h, UsesLane w h → ∀ k < 16,
        readByte t (addrOf (address12 x imm) + 16 * h.index + k) = byteOf (half s vs h).data k) ∧
      Frame noA noHalf (bytesAt (addrOf (address12 x imm)) (widthBytes w)) s t := by
  have hc := (checkAccess_ok s _ _ _).2 hok
  cases w with
  | w128 =>
    have hc' : checkAccess s (addrOf (address12 x imm)) 16 align = .ok () := hc
    refine ⟨advance { s with mem := s.mem.store (addrOf (address12 x imm)) (half s vs .h0).data }, by
      simp only [storeVec, readA_holds s ra x hx, ok_bind, readHalf_valid s vs .h0 (hv .h0 (.inl rfl)), hc',
        pure_check], rfl, fun h hl k hk => ?_, frame_store s _ _⟩
    obtain rfl := usesLane_w128 hl
    show Memory.read (s.mem.store _ _) _ = _
    rw [read_store, if_pos (by simp [Lane.index]; omega)]
    congr 1; simp [Lane.index]
  | w256 =>
    have hc' : checkAccess s (addrOf (address12 x imm)) 32 align = .ok () := hc
    let v := vecOfHalves (half s vs .h0).data (half s vs .h1).data
    refine ⟨advance { s with mem := s.mem.store (addrOf (address12 x imm)) v }, by
      simp only [storeVec, readA_holds s ra x hx, ok_bind,
        readBoth_valid s vs (hv .h0 (.inl rfl)) (hv .h1 (.inr rfl)), hc', pure_check, v], rfl, fun h hl k hk => ?_,
      frame_store s _ _⟩
    show Memory.read (s.mem.store _ _) _ = _
    cases h with
    | h0 =>
      rw [read_store, if_pos (by simp [Lane.index]; omega), byteOf_vecOfHalves _ _ _ (by simp [Lane.index]; omega),
        if_pos (by simp [Lane.index]; omega)]
      congr 1; simp [Lane.index]
    | h1 =>
      rw [read_store, if_pos (by simp [Lane.index]; omega), byteOf_vecOfHalves _ _ _ (by simp [Lane.index]; omega),
        if_neg (by simp [Lane.index]; omega)]
      congr 1; simp [Lane.index]; omega

/-- The element checks of a gather pass exactly when each does. -/
theorem checkElements_ok (s : State) (eas : List Nat) :
    checkElements s eas = .ok () ↔ ∀ ea ∈ eas, Access.Ok s ⟨ea, 4, 4⟩ := by
  induction eas with
  | nil => simp [checkElements]
  | cons ea eas ih =>
    simp only [checkElements, List.mem_cons, forall_eq_or_imp]
    rw [bind_eq_ok, ← ih, ← checkAccess_ok]
    exact ⟨fun ⟨_, h1, h2⟩ => ⟨h1, h2⟩, fun ⟨h1, h2⟩ => ⟨(), h1, h2⟩⟩

/-! ### Lane-wise commands (44_shuffle_network.md) -/

/-- A one-source lane-wise command with valid sources: each half its width names is the function of the source half. -/
theorem lanewise1_ok (f : Half → Half) (vd vs : VReg) (w : Width) (s : State)
    (hv : ∀ h, UsesLane w h → (half s vs h).valid = true) :
    ∃ t, lanewise1 f vd vs w s = .ok t ∧ t.pc = s.pc + 4#32 ∧
      (∀ h, UsesLane w h → half t vd h = ⟨f (half s vs h).data, true⟩) ∧ Frame noA (halvesOf vd w) noByte s t := by
  cases w with
  | w128 =>
    refine ⟨_, by simp only [lanewise1, readHalf_valid s vs .h0 (hv .h0 (.inl rfl)), ok_bind, pure_check]; rfl, rfl,
      fun h hl => ?_, frame_writeHalf s vd _⟩
    obtain rfl := usesLane_w128 hl
    rw [half_advance, half_writeHalf_self]
  | w256 =>
    refine ⟨_, by simp only [lanewise1, readBoth_valid s vs (hv .h0 (.inl rfl)) (hv .h1 (.inr rfl)), ok_bind,
      pure_check]; rfl, rfl, fun h _ => ?_, frame_writeBoth s vd _⟩
    rw [half_advance, half_writeBoth, if_pos rfl]
    cases h <;> rfl

/-- A two-source lane-wise command with valid sources. -/
theorem lanewise2_ok (f : Half → Half → Half) (vd va vb : VReg) (w : Width) (s : State)
    (hv : ∀ h, UsesLane w h → (half s va h).valid = true ∧ (half s vb h).valid = true) :
    ∃ t, lanewise2 f vd va vb w s = .ok t ∧ t.pc = s.pc + 4#32 ∧
      (∀ h, UsesLane w h → half t vd h = ⟨f (half s va h).data (half s vb h).data, true⟩) ∧
      Frame noA (halvesOf vd w) noByte s t := by
  cases w with
  | w128 =>
    have h0 := hv .h0 (.inl rfl)
    refine ⟨_, by simp only [lanewise2, readHalf_valid s va .h0 h0.1, readHalf_valid s vb .h0 h0.2, ok_bind, pure_check]; rfl,
      rfl, fun h hl => ?_, frame_writeHalf s vd _⟩
    obtain rfl := usesLane_w128 hl
    rw [half_advance, half_writeHalf_self]
  | w256 =>
    have h0 := hv .h0 (.inl rfl)
    have h1 := hv .h1 (.inr rfl)
    refine ⟨_, by simp only [lanewise2, readBoth_valid s va h0.1 h1.1, readBoth_valid s vb h0.2 h1.2, ok_bind,
      pure_check]; rfl, rfl, fun h _ => ?_, frame_writeBoth s vd _⟩
    rw [half_advance, half_writeBoth, if_pos rfl]
    cases h <;> rfl

/-- The control check passes when every control byte is at most 15. -/
theorem checkControl_ok (h : Lane) (c : Half) (hc : ∀ k < 16, (byteOf c k).toNat ≤ 15) : checkControl h c = .ok () := by
  have : badControl c 0 16 = none := (badControl_none c 0 16).2 (fun k hk => by simpa using hc k hk)
  simp [checkControl, this]

/-- The control check raises ShuffleControl(16h + k) for the first control byte above 15. -/
theorem checkControl_bad (h : Lane) (c : Half) (k : Nat) (hk : k < 16) (hbad : (byteOf c k).toNat > 15)
    (hok : ∀ j < k, (byteOf c j).toNat ≤ 15) :
    checkControl h c = .error ⟨.shuffleControl, BitVec.ofNat 32 (16 * h.index + k)⟩ := by
  have : badControl c 0 16 = some (0 + k) :=
    badControl_first c 0 16 k hk (by simpa using hbad) (fun j hj => by simpa using hok j hj)
  simp [checkControl, this]

/-! ### Group transposes (45_register_transpose.md) -/

/-- Writing the k-th value to the k-th register of a group of distinct registers. -/
theorem half_writeGroup_zip (s : State) (h : Lane) (dst : List VReg) (xs : List Half) (hd : dst.Nodup)
    (hl : xs.length = dst.length) (m : VReg) (l : Lane) :
    (∀ k, (hk : k < dst.length) → half (writeGroup s h (dst.zip xs)) dst[k] h = ⟨xs.getD k 0#128, true⟩) ∧
      (¬ (m ∈ dst ∧ l = h) → half (writeGroup s h (dst.zip xs)) m l = half s m l) := by
  induction dst generalizing s xs with
  | nil => simp [writeGroup]
  | cons n dst ih =>
    cases xs with
    | nil => simp at hl
    | cons x xs =>
      simp only [List.nodup_cons] at hd
      have ih' := ih (writeHalf s n h x) xs hd.2 (by simpa using hl)
      constructor
      · intro k hk
        cases k with
        | zero =>
          simp only [List.zip_cons_cons, writeGroup, List.getElem_cons_zero, List.getD_cons_zero]
          rw [(half_writeGroup _ h _ (by
            rw [List.map_fst_zip (by simp at hl; omega)]; exact hd.2) n h), if_pos rfl]
          have hnone : (dst.zip xs).find? (fun w => decide (w.1 = n)) = none := by
            rw [List.find?_eq_none]
            intro w hw he
            have : w.1 ∈ dst := (List.of_mem_zip (a := w.1) (b := w.2) hw).1
            exact hd.1 (by simpa using (of_decide_eq_true he) ▸ this)
          rw [hnone]
          simp
        | succ k =>
          simp only [List.zip_cons_cons, writeGroup, List.getElem_cons_succ, List.getD_cons_succ]
          exact ih'.1 k (by simpa using hk)
      · intro hm
        simp only [List.zip_cons_cons, writeGroup]
        rw [ih'.2 (fun e => hm ⟨by simp [e.1], e.2⟩), half_writeHalf,
          if_neg (fun e => hm ⟨by simp [e.1], e.2⟩)]

/-- A group transpose with valid sources and distinct destinations: destination k of each lane its width names is the k-th
result on the sources of that lane, all read before any write. -/
theorem groupTranspose_ok (f : List Half → List Half) (dst srcs : List VReg) (w : Width) (s : State)
    (hf : ∀ xs, (f xs).length = dst.length) (hd : dst.Nodup)
    (hv : ∀ n ∈ srcs, ∀ h, UsesLane w h → (half s n h).valid = true) :
    ∃ t, groupTranspose f dst srcs w s = .ok t ∧ t.pc = s.pc + 4#32 ∧
      (∀ h, UsesLane w h → ∀ k, (hk : k < dst.length) →
        half t dst[k] h = ⟨(f (srcs.map (fun n => (half s n h).data))).getD k 0#128, true⟩) ∧
      Frame noA (fun n h => n ∈ dst ∧ UsesLane w h) noByte s t := by
  cases w with
  | w128 =>
    refine ⟨_, by simp only [groupTranspose, readGroup_valid s .h0 srcs (fun n hn => hv n hn .h0 (.inl rfl)), ok_bind,
      pure_check]; rfl, by simp, fun h hl k hk => ?_, frame_of_halves _ _ _ (fun m l hm => ?_) ?_⟩
    · obtain rfl := usesLane_w128 hl
      rw [half_advance]
      exact (half_writeGroup_zip s .h0 dst _ hd (hf _) 0 .h0).1 k hk
    · rw [half_advance]
      exact (half_writeGroup_zip s .h0 dst _ hd (hf _) m l).2 (fun e => hm ⟨e.1, .inl e.2⟩)
    · generalize dst.zip (f (srcs.map (fun n => (half s n .h0).data))) = ws
      have : ∀ (ws : List (VReg × Half)) (u : State), writeGroup u .h0 ws =
          { u with vlo := (writeGroup u .h0 ws).vlo, vhi := (writeGroup u .h0 ws).vhi } := by
        intro ws
        induction ws with
        | nil => intro u; rfl
        | cons w ws ih => intro u; simp only [writeGroup]; rw [ih]; simp [writeHalf]
      rw [this ws s]; rfl
  | w256 =>
    have hread := readGroupBoth_valid s srcs (fun n hn h => hv n hn h (.inr rfl))
    refine ⟨_, by simp only [groupTranspose, hread, ok_bind, pure_check]; rfl, by simp, fun h hl k hk => ?_,
      frame_of_halves _ _ _ (fun m l hm => ?_) ?_⟩
    · rw [half_advance]
      cases h with
      | h0 =>
        rw [(half_writeGroup_zip _ .h1 dst _ hd (hf _) dst[k] .h0).2 (by simp)]
        rw [(half_writeGroup_zip s .h0 dst _ hd (hf _) 0 .h0).1 k hk]
        simp [List.map_map, Function.comp_def]
      | h1 =>
        rw [(half_writeGroup_zip _ .h1 dst _ hd (hf _) 0 .h0).1 k hk]
        simp [List.map_map, Function.comp_def]
    · have hm' : ¬ m ∈ dst := fun e => hm ⟨e, .inr rfl⟩
      rw [half_advance, (half_writeGroup_zip _ .h1 dst _ hd (hf _) m l).2 (fun e => hm' e.1),
        (half_writeGroup_zip s .h0 dst _ hd (hf _) m l).2 (fun e => hm' e.1)]
    · have : ∀ (h : Lane) (ws : List (VReg × Half)) (u : State), writeGroup u h ws =
          { u with vlo := (writeGroup u h ws).vlo, vhi := (writeGroup u h ws).vhi } := by
        intro h ws
        induction ws with
        | nil => intro u; rfl
        | cons w ws ih => intro u; simp only [writeGroup]; rw [ih]; cases h <;> simp [writeHalf]
      rw [this .h1, this .h0]; rfl

end Sys2Proof.Machine
end

