-- ==== Sys2Proof/Laws/Alike.lean ====
section
/-! SUPPORT. Alike states: two states that differ at most in the data bits of invalid registers answer alike to every
shared operation. A command's meaning is a chain of these, so that what holds of the operations holds of the command. -/

namespace Sys2Proof.Machine

/-- The rest of two alike states agrees. -/
theorem Alike.rest {s t : State} (h : Alike s t) :
    t.pc = s.pc ∧ t.status = s.status ∧ SameControlRegisters s t ∧ SameFaultRegisters s t ∧ t.mem = s.mem ∧
      SamePlatform s t := by
  obtain ⟨-, -, e⟩ := h
  rw [e]
  exact ⟨rfl, rfl, ⟨rfl, rfl, rfl, rfl, rfl, rfl⟩, ⟨rfl, rfl, rfl⟩, rfl, rfl, rfl⟩

theorem Slot.Alike.refl {width : Nat} (x : Slot width) : Slot.Alike x x := ⟨rfl, fun _ => rfl⟩

theorem Alike.refl (s : State) : Alike s s := ⟨fun _ => Slot.Alike.refl _, fun _ _ => Slot.Alike.refl _, rfl⟩

/-! ### Reads and checks -/

theorem Alike.readA {s t : State} (h : Alike s t) (i : AReg) : readA t i = readA s i := by
  obtain ⟨v, d⟩ := h.1 i
  unfold Machine.readA
  rw [← v]
  split
  · rename_i k
    rw [d k]
  · rfl

theorem Alike.readHalf {s t : State} (h : Alike s t) (n : VReg) (l : Lane) : readHalf t n l = readHalf s n l := by
  obtain ⟨v, d⟩ := h.2.1 n l
  unfold Machine.readHalf
  rw [← v]
  split
  · rename_i k
    rw [d k]
  · rfl

theorem Alike.readBoth {s t : State} (h : Alike s t) (n : VReg) : readBoth t n = readBoth s n := by
  unfold Machine.readBoth
  rw [h.readHalf, h.readHalf]

theorem Alike.readGroup {s t : State} (h : Alike s t) (l : Lane) (ns : List VReg) :
    readGroup t l ns = readGroup s l ns := by
  induction ns with
  | nil => rfl
  | cons n ns ih => simp only [Machine.readGroup, h.readHalf, ih]

theorem Alike.readGroupBoth {s t : State} (h : Alike s t) (ns : List VReg) : readGroupBoth t ns = readGroupBoth s ns := by
  induction ns with
  | nil => rfl
  | cons n ns ih => simp only [Machine.readGroupBoth, h.readBoth, ih]

theorem Alike.inMem {s t : State} (h : Alike s t) (a : Nat) : inMem t a = inMem s a := by
  unfold Machine.inMem
  rw [h.rest.2.2.2.2.2.1]

theorem Alike.checkAccess {s t : State} (h : Alike s t) (a count align : Nat) :
    checkAccess t a count align = checkAccess s a count align := by
  unfold Machine.checkAccess
  rw [firstMissing_congr s t h.rest.2.2.2.2.2.1]

theorem Alike.checkElements {s t : State} (h : Alike s t) (eas : List Nat) :
    checkElements t eas = checkElements s eas := by
  induction eas with
  | nil => rfl
  | cons a eas ih => simp only [Machine.checkElements, h.checkAccess, ih]

/-! ### Writes -/

/-- Changing only what is no register, by the same function in both. -/
theorem Alike.update {s t : State} (h : Alike s t) (f : State → State)
    (hf : ∀ u a lo hi, f { u with a := a, vlo := lo, vhi := hi } = { f u with a := a, vlo := lo, vhi := hi }) :
    Alike (f s) (f t) := by
  have fs : f s = { f s with a := s.a, vlo := s.vlo, vhi := s.vhi } := hf s s.a s.vlo s.vhi
  have ft : f t = { f s with a := t.a, vlo := t.vlo, vhi := t.vhi } := by rw [← hf, ← h.2.2]
  refine ⟨fun i => ?_, fun n l => ?_, ?_⟩
  · rw [fs, ft]
    exact h.1 i
  · have v := h.2.1 n l
    rw [fs, ft]
    cases l <;> exact v
  · rw [ft]

theorem Alike.advance {s t : State} (h : Alike s t) : Alike (advance s) (advance t) :=
  h.update Machine.advance (fun _ _ _ _ => rfl)

theorem Alike.takeFault {s t : State} (h : Alike s t) (f : Raised) : Alike (takeFault s f) (takeFault t f) :=
  h.update (Machine.takeFault · f) (fun _ _ _ _ => rfl)

theorem Alike.writeCsr {s t : State} (h : Alike s t) (v : Word) (c : Csr) : Alike (writeCsr s v c) (writeCsr t v c) :=
  h.update (Machine.writeCsr · v c) (fun _ _ _ _ => by cases c <;> rfl)

theorem Alike.withMem {s t : State} (h : Alike s t) (m : Memory) : Alike { s with mem := m } { t with mem := m } :=
  h.update (fun u => { u with mem := m }) (fun _ _ _ _ => rfl)

theorem Alike.writeA {s t : State} (h : Alike s t) (i : AReg) (v : Word) : Alike (writeA s i v) (writeA t i v) := by
  refine ⟨fun r => ?_, fun n l => ?_, ?_⟩
  · show Slot.Alike (s.a.set i ⟨v, true⟩)[r] (t.a.set i ⟨v, true⟩)[r]
    by_cases e : i = r
    · subst e
      simpa using Slot.Alike.refl _
    · have e' : i.val ≠ r.val := fun k => e (Fin.ext k)
      simpa [Vector.getElem_set, e'] using h.1 r
  · have k := h.2.1 n l
    cases l <;> exact k
  · rw [h.2.2]
    rfl

theorem Alike.writeHalf {s t : State} (h : Alike s t) (n : VReg) (l : Lane) (x : Half) :
    Alike (writeHalf s n l x) (writeHalf t n l x) := by
  refine ⟨fun r => ?_, fun m k => ?_, ?_⟩
  · have e := h.1 r
    cases l <;> exact e
  · rw [half_writeHalf, half_writeHalf]
    split
    · exact Slot.Alike.refl _
    · exact h.2.1 m k
  · rw [h.2.2]
    cases l <;> rfl

theorem Alike.writeBoth {s t : State} (h : Alike s t) (n : VReg) (x : Half × Half) :
    Alike (writeBoth s n x) (writeBoth t n x) :=
  (h.writeHalf n .h0 x.1).writeHalf n .h1 x.2

theorem Alike.writeGroup {s t : State} (h : Alike s t) (l : Lane) (ws : List (VReg × Half)) :
    Alike (writeGroup s l ws) (writeGroup t l ws) := by
  induction ws generalizing s t with
  | nil => exact h
  | cons w ws ih => exact ih (h.writeHalf w.1 l w.2)

/-! ### Checks that lead to states -/

/-- Two checks that raise the same fault or give alike states. -/
def AlikeCheck : Check State → Check State → Prop
  | .ok s, .ok t => Alike s t
  | .error f, .error g => f = g
  | _, _ => False

/-- After the same check, alike answers for each value it can give. -/
theorem AlikeCheck.bind {α : Type} (x : Check α) {f g : α → Check State} (h : ∀ a, AlikeCheck (f a) (g a)) :
    AlikeCheck (x >>= f) (x >>= g) := by
  cases x with
  | ok a => exact h a
  | error e => exact rfl

theorem AlikeCheck.conclude {s t : State} (h : Alike s t) {x y : Check State} (k : AlikeCheck x y) :
    AlikeResult (conclude s x) (conclude t y) := by
  match x, y, k with
  | .ok _, .ok _, k => exact k
  | .error f, .error _, rfl => exact h.takeFault f

end Sys2Proof.Machine
end

