-- ==== Sys2Proof/Laws/Writes.lean ====
section
/-! SUPPORT. Sequences of byte writes: what a store and a loop of stores do to a memory, said once. `Wrote P C m m'` says
that m' is m after some writes, each of them allowed by P, that reach every address of C. -/

namespace Sys2Proof.Machine

/-- m' is m after a sequence of byte writes, each of which satisfies P, and which reach every address of C. -/
def Wrote (P : Nat → Byte → Prop) (C : Nat → Prop) (m m' : Memory) : Prop :=
  ∃ ws : List Host.Cell, (∀ w ∈ ws, P w.1 w.2) ∧ (∀ a, C a → ∃ w ∈ ws, w.1 = a) ∧
    m' = ws.foldl (fun m w => m.write w.1 w.2) m

variable {P Q : Nat → Byte → Prop} {C D : Nat → Prop} {m m' m'' : Memory}

theorem Wrote.refl (P : Nat → Byte → Prop) (m : Memory) : Wrote P (fun _ => False) m m :=
  ⟨[], by simp, by simp, rfl⟩

theorem Wrote.trans (h : Wrote P C m m') (k : Wrote P D m' m'') : Wrote P (fun a => C a ∨ D a) m m'' := by
  obtain ⟨ws, hw, hc, rfl⟩ := h
  obtain ⟨vs, hv, hd, rfl⟩ := k
  refine ⟨ws ++ vs, fun w h => (List.mem_append.1 h).elim (hw w) (hv w), ?_, by simp⟩
  rintro a (ha | ha)
  · obtain ⟨w, hm, e⟩ := hc a ha
    exact ⟨w, by simp [hm], e⟩
  · obtain ⟨w, hm, e⟩ := hd a ha
    exact ⟨w, by simp [hm], e⟩

theorem Wrote.mono (h : Wrote P C m m') (hp : ∀ a v, P a v → Q a v) (hd : ∀ a, D a → C a) : Wrote Q D m m' := by
  obtain ⟨ws, hw, hc, e⟩ := h
  exact ⟨ws, fun w k => hp _ _ (hw w k), fun a k => hc a (hd a k), e⟩

theorem Wrote.write (a : Nat) (v : Byte) (h : P a v) (m : Memory) : Wrote P (fun x => x = a) m (m.write a v) :=
  ⟨[(a, v)], by simpa using h, fun x hx => ⟨(a, v), by simp, hx.symm⟩, rfl⟩

theorem Wrote.writeBytes (a : Nat) (bs : List Byte) (m : Memory) (h : ∀ i < bs.length, P (a + i) (bs.getD i 0#8)) :
    Wrote P (bytesAt a bs.length) m (m.writeBytes a bs) := by
  induction bs generalizing a m with
  | nil => exact (Wrote.refl P m).mono (fun _ _ => id) (fun x hx => by simp at hx; omega)
  | cons b bs ih =>
    have first : P a b := by simpa using h 0 (by simp)
    have rest : ∀ i < bs.length, P (a + 1 + i) (bs.getD i 0#8) := fun i hi => by
      have := h (i + 1) (by simpa using hi)
      rwa [show a + (i + 1) = a + 1 + i by omega] at this
    refine ((Wrote.write a b first m).trans (ih (a + 1) (m.write a b) rest)).mono (fun _ _ => id) (fun x hx => ?_)
    simp only [List.length_cons] at hx
    by_cases e : x = a
    · exact .inl e
    · exact .inr ⟨by omega, by omega⟩

/-- A store writes the byte lanes of its value, and reaches exactly the bytes of its range. -/
theorem Wrote.store {width : Nat} (a : Nat) (v : BitVec width) (m : Memory)
    (h : ∀ i < width / 8, P (a + i) (byteOf v i)) : Wrote P (bytesAt a (width / 8)) m (m.store a v) := by
  have := Wrote.writeBytes (P := P) a (bytesOf v) m (fun i hi => by
    rw [length_bytesOf] at hi
    rw [getD_bytesOf v i hi]
    exact h i hi)
  rwa [length_bytesOf] at this

/-! ### What follows from a sequence of writes -/

theorem Wrote.wf (h : Wrote P C m m') (hm : m.wf) : m'.wf := by
  obtain ⟨ws, -, -, rfl⟩ := h
  induction ws generalizing m with
  | nil => exact hm
  | cons w ws ih => exact ih (write_wf m w.1 w.2 hm)

/-- Every address the memory lists after was listed before or may be written. -/
theorem Wrote.mem_addr (h : Wrote P C m m') (p : Host.Cell) (hp : p ∈ m') : (∃ v, P p.1 v) ∨ p ∈ m := by
  obtain ⟨ws, hw, -, rfl⟩ := h
  induction ws generalizing m with
  | nil => exact .inr hp
  | cons w ws ih =>
    rcases ih (fun v k => hw v (by simp [k])) hp with k | k
    · exact .inl k
    · rcases mem_write_addr _ _ _ _ k with e | e
      · exact .inl ⟨w.2, e ▸ hw w (by simp)⟩
      · exact .inr e

/-- An address reads as before, or what it reads was allowed to be written there. -/
theorem Wrote.read_or (h : Wrote P C m m') (a : Nat) : P a (m'.read a) ∨ m'.read a = m.read a := by
  obtain ⟨ws, hw, -, rfl⟩ := h
  induction ws generalizing m with
  | nil => exact .inr rfl
  | cons w ws ih =>
    rcases ih (m := m.write w.1 w.2) (fun v k => hw v (by simp [k])) with k | k
    · exact .inl k
    · rw [read_write] at k
      split at k
      · rename_i e
        exact .inl (by rw [List.foldl_cons, k, e]; exact hw w (by simp))
      · exact .inr k

/-- An address the writes reach reads something that was allowed to be written there. -/
theorem Wrote.read (h : Wrote P C m m') (a : Nat) (ha : C a) : P a (m'.read a) := by
  obtain ⟨ws, hw, hc, rfl⟩ := h
  obtain ⟨w, hm, e⟩ := hc a ha
  clear hc
  induction ws generalizing m with
  | nil => simp at hm
  | cons u ws ih =>
    by_cases k : w ∈ ws
    · exact ih (fun v hv => hw v (by simp [hv])) k
    · obtain rfl : w = u := by simpa [k] using hm
      have rest : Wrote P (fun _ => False) (m.write w.1 w.2) (ws.foldl (fun m w => m.write w.1 w.2) (m.write w.1 w.2)) :=
        ⟨ws, fun v hv => hw v (by simp [hv]), by simp, rfl⟩
      rcases rest.read_or a with k | k
      · exact k
      · rw [read_write, if_pos e.symm] at k
        rw [List.foldl_cons, k, ← e]
        exact hw w (by simp)

/-- An address that may not be written reads as before. -/
theorem Wrote.read_same (h : Wrote P C m m') (a : Nat) (ha : ∀ v, ¬ P a v) : m'.read a = m.read a :=
  (h.read_or a).resolve_left (ha _)

/-! ### Loops -/

/-- A loop of writes. R is what the body may assume of the memory: it holds before and no allowed write spoils it. -/
theorem Wrote.loop (R : Memory → Prop) (stable : ∀ m m', R m → Wrote P (fun _ => False) m m' → R m') (count : Nat)
    (f : Nat → Memory → Memory) (F : Nat → Nat → Prop) (body : ∀ k < count, ∀ m, R m → Wrote P (F k) m (f k m))
    (m : Memory) (hm : R m) : Wrote P (fun a => ∃ k < count, F k a) m (loop count f m) := by
  induction count with
  | zero => exact (Wrote.refl P m).mono (fun _ _ => id) (by simp)
  | succ count ih =>
    have before := ih (fun k hk => body k (by omega))
    have now := body count (by omega) _ (stable _ _ hm (before.mono (fun _ _ => id) (by simp)))
    refine (before.trans now).mono (fun _ _ => id) (fun a => ?_)
    rintro ⟨k, hk, ha⟩
    by_cases e : k = count
    · exact .inr (e ▸ ha)
    · exact .inl ⟨k, by omega, ha⟩

/-- A loop of step g over a multiple of g: the body runs at every multiple of g below the total. -/
theorem Wrote.loopBy (R : Memory → Prop) (stable : ∀ m m', R m → Wrote P (fun _ => False) m m' → R m') (g total : Nat)
    (hg : total % g = 0) (f : Nat → Memory → Memory) (F : Nat → Nat → Prop)
    (body : ∀ k, k + g ≤ total → ∀ m, R m → Wrote P (F k) m (f k m)) (m : Memory) (hm : R m) :
    Wrote P (fun a => ∃ k < total, F (g * (k / g)) a) m (loopBy g total f m) := by
  have whole : g * (total / g) = total := Nat.mul_div_cancel' (Nat.dvd_of_mod_eq_zero hg)
  refine (Wrote.loop R stable (total / g) (fun k => f (g * k)) (fun k => F (g * k)) (fun k hk m h => ?_) m hm).mono
    (fun _ _ => id) (fun a => ?_)
  · refine body (g * k) ?_ m h
    calc g * k + g = g * (k + 1) := by ring
      _ ≤ g * (total / g) := Nat.mul_le_mul_left g hk
      _ = total := whole
  · rintro ⟨k, hk, ha⟩
    refine ⟨k / g, ?_, ha⟩
    rcases Nat.eq_zero_or_pos g with rfl | h
    · simp at hg; omega
    · exact Nat.div_lt_div_of_lt_of_dvd (Nat.dvd_of_mod_eq_zero hg) hk

end Sys2Proof.Machine
end

