-- ==== Sys2Proof/Laws/Strategies.lean ====
section
/-! SUPPORT. The DEMUX strategies (spec/42_demux_scalar.md, 46_demux_simd.md): each is a sequence of writes of source bytes
to plane bytes that reaches every plane byte. -/

namespace Sys2Proof.Machine

/-! ### Blocks -/

/-- The planes of a block are apart from its source (41_demux_contract.md R155 (2)). -/
def Block.Apart (b : Block) : Prop := ∀ c < b.n, ∀ r < b.l, ∀ i < b.n * b.l, b.plane c + r ≠ b.src + i

/-- What the transform may write: the source byte of row r, channel c, at row r of plane c (R151). -/
def Block.Target (b : Block) (m₀ : Memory) (a : Nat) (v : Byte) : Prop :=
  ∃ c < b.n, ∃ r < b.l, a = b.plane c + r ∧ v = m₀.read (b.source r c)

/-- What COPY may write: source byte c·L + r at row r of plane c (46_demux_simd.md R277). -/
def Block.CopyTarget (b : Block) (m₀ : Memory) (a : Nat) (v : Byte) : Prop :=
  ∃ c < b.n, ∃ r < b.l, a = b.plane c + r ∧ v = m₀.read (b.src + c * b.l + r)

/-- The addresses of the planes (R159). -/
def Block.All (b : Block) (a : Nat) : Prop := ∃ c < b.n, ∃ r < b.l, a = b.plane c + r

/-- The source block reads as in m₀. -/
def Block.Same (b : Block) (m₀ m : Memory) : Prop := ∀ i < b.n * b.l, m.read (b.src + i) = m₀.read (b.src + i)

variable {b : Block} {m₀ m m' : Memory}

theorem Block.same_refl (b : Block) (m : Memory) : b.Same m m := fun _ _ => rfl

/-- No write to a plane changes the source. -/
theorem Block.same_stable (apart : b.Apart) (h : b.Same m₀ m) (k : Wrote (b.Target m₀) (fun _ => False) m m') :
    b.Same m₀ m' := fun i hi => by
  rw [k.read_same _ (fun v hv => ?_), h i hi]
  obtain ⟨c, hc, r, hr, e, -⟩ := hv
  exact apart c hc r hr i hi e.symm

/-- No write of COPY to a plane changes the source. -/
theorem Block.same_stable_copy (apart : b.Apart) (h : b.Same m₀ m) (k : Wrote (b.CopyTarget m₀) (fun _ => False) m m') :
    b.Same m₀ m' := fun i hi => by
  rw [k.read_same _ (fun v hv => ?_), h i hi]
  obtain ⟨c, hc, r, hr, e, -⟩ := hv
  exact apart c hc r hr i hi e.symm

theorem Block.source_lt {r c : Nat} (hr : r < b.l) (hc : c < b.n) : r * b.n + c < b.n * b.l := by
  calc r * b.n + c < r * b.n + b.n := by omega
    _ = (r + 1) * b.n := by ring
    _ ≤ b.l * b.n := Nat.mul_le_mul_right _ hr
    _ = b.n * b.l := Nat.mul_comm _ _

theorem Block.read_source (h : b.Same m₀ m) {r c : Nat} (hr : r < b.l) (hc : c < b.n) :
    m.read (b.source r c) = m₀.read (b.source r c) := by
  have := h (r * b.n + c) (source_lt hr hc)
  rwa [← Nat.add_assoc] at this

/-- Byte k of a word loaded at row r, channel c is the source byte of channel c + k. -/
theorem Block.byteOf_load_source (h : b.Same m₀ m) {width r c k : Nat} (hr : r < b.l) (hc : c + k < b.n)
    (hk : k < width / 8) : byteOf (m.load width (b.source r c)) k = m₀.read (b.source r (c + k)) := by
  rw [byteOf_load _ _ _ _ hk, ← read_source h hr hc]
  simp only [source, Nat.add_assoc]

/-! ### Tiles -/

/-- The stores of one tile: g words, word k the rows from r0 up of channel c0 + k. -/
theorem Block.tile (g width r0 c0 : Nat) (o : Nat → BitVec width) (hc : c0 + g ≤ b.n) (hr : r0 + width / 8 ≤ b.l)
    (ho : ∀ k < g, ∀ j < width / 8, byteOf (o k) j = m₀.read (b.source (r0 + j) (c0 + k))) (m : Memory) :
    Wrote (b.Target m₀) (fun a => ∃ k < g, ∃ j < width / 8, a = b.plane (c0 + k) + (r0 + j)) m
      (loop g (fun k m => m.store (b.plane (c0 + k) + r0) (o k)) m) := by
  refine Wrote.loop (fun _ => True) (fun _ _ _ _ => trivial) g _
    (fun k a => ∃ j < width / 8, a = b.plane (c0 + k) + (r0 + j)) (fun k hk m _ => ?_) m trivial
  refine (Wrote.store _ (o k) m (fun i hi => ⟨c0 + k, by omega, r0 + i, by omega, by omega, ho k hk i hi⟩)).mono
    (fun _ _ => id) ?_
  rintro a ⟨j, hj, rfl⟩
  exact ⟨by omega, by omega⟩

/-- Channel tiles outside, row tiles inside: every plane byte is reached. -/
theorem Block.tiled_channels (apart : b.Apart) (g h : Nat) (hg : b.n % g = 0) (hh : b.l % h = 0)
    (body : Nat → Nat → Memory → Memory)
    (hb : ∀ c0 r0, c0 + g ≤ b.n → r0 + h ≤ b.l → ∀ m, b.Same m₀ m →
      Wrote (b.Target m₀) (fun a => ∃ k < g, ∃ j < h, a = b.plane (c0 + k) + (r0 + j)) m (body c0 r0 m))
    (hm : b.Same m₀ m) :
    Wrote (b.Target m₀) b.All m (loopBy g b.n (fun c0 => loopBy h b.l (fun r0 => body c0 r0)) m) := by
  have stable : ∀ m m', b.Same m₀ m → Wrote (b.Target m₀) (fun _ => False) m m' → b.Same m₀ m' :=
    fun _ _ => same_stable apart
  refine (Wrote.loopBy _ stable g b.n hg _
    (fun c0 a => ∃ r < b.l, ∃ k < g, ∃ j < h, a = b.plane (c0 + k) + (h * (r / h) + j))
    (fun c0 hc m hm => Wrote.loopBy _ stable h b.l hh _ _ (fun r0 hr m hm => hb c0 r0 hc hr m hm) m hm) m hm).mono
    (fun _ _ => id) ?_
  rintro a ⟨c, hc, r, hr, rfl⟩
  have gpos : 0 < g := Nat.pos_of_ne_zero fun e => by subst e; simp at hg; omega
  have hpos : 0 < h := Nat.pos_of_ne_zero fun e => by subst e; simp at hh; omega
  refine ⟨c, hc, r, hr, c % g, Nat.mod_lt _ gpos, r % h, Nat.mod_lt _ hpos, ?_⟩
  rw [Nat.div_add_mod, Nat.div_add_mod]

/-- Row tiles outside, channel tiles inside: every plane byte is reached. -/
theorem Block.tiled_rows (apart : b.Apart) (g h : Nat) (hg : b.n % g = 0) (hh : b.l % h = 0)
    (body : Nat → Nat → Memory → Memory)
    (hb : ∀ c0 r0, c0 + g ≤ b.n → r0 + h ≤ b.l → ∀ m, b.Same m₀ m →
      Wrote (b.Target m₀) (fun a => ∃ k < g, ∃ j < h, a = b.plane (c0 + k) + (r0 + j)) m (body c0 r0 m))
    (hm : b.Same m₀ m) :
    Wrote (b.Target m₀) b.All m (loopBy h b.l (fun r0 => loopBy g b.n (fun c0 => body c0 r0)) m) := by
  have stable : ∀ m m', b.Same m₀ m → Wrote (b.Target m₀) (fun _ => False) m m' → b.Same m₀ m' :=
    fun _ _ => same_stable apart
  refine (Wrote.loopBy _ stable h b.l hh _
    (fun r0 a => ∃ c < b.n, ∃ k < g, ∃ j < h, a = b.plane (g * (c / g) + k) + (r0 + j))
    (fun r0 hr m hm => Wrote.loopBy _ stable g b.n hg _ _ (fun c0 hc m hm => hb c0 r0 hc hr m hm) m hm) m hm).mono
    (fun _ _ => id) ?_
  rintro a ⟨c, hc, r, hr, rfl⟩
  have gpos : 0 < g := Nat.pos_of_ne_zero fun e => by subst e; simp at hg; omega
  have hpos : 0 < h := Nat.pos_of_ne_zero fun e => by subst e; simp at hh; omega
  refine ⟨r, hr, c, hc, c % g, Nat.mod_lt _ gpos, r % h, Nat.mod_lt _ hpos, ?_⟩
  rw [Nat.div_add_mod, Nat.div_add_mod]

theorem loop_eq_loopBy (count : Nat) (f : Nat → Memory → Memory) : loop count f = loopBy 1 count f := by
  funext m
  simp [loopBy]

/-- A tile of one channel and one word. -/
theorem Block.column (width r0 c0 : Nat) (o : BitVec width) (hc : c0 + 1 ≤ b.n) (hr : r0 + width / 8 ≤ b.l)
    (ho : ∀ j < width / 8, byteOf o j = m₀.read (b.source (r0 + j) c0)) (m : Memory) :
    Wrote (b.Target m₀) (fun a => ∃ k < 1, ∃ j < width / 8, a = b.plane (c0 + k) + (r0 + j)) m
      (m.store (b.plane c0 + r0) o) := by
  have := tile (b := b) (m₀ := m₀) 1 width r0 c0 (fun _ => o) hc hr (fun k hk j hj => by
    obtain rfl : k = 0 := by omega
    exact ho j hj) m
  simpa [loop] using this

/-! ### The scalar and word-coalesced strategies -/

theorem Block.wrote_ref (apart : b.Apart) : Wrote (b.Target m₀) b.All m₀ (demuxRef b m₀) := by
  unfold demuxRef
  simp only [loop_eq_loopBy]
  refine tiled_channels apart 1 1 (Nat.mod_one _) (Nat.mod_one _) _ (fun c0 r0 hc hr m hm => ?_) (same_refl b m₀)
  refine column 8 r0 c0 _ hc (by omega) (fun j hj => ?_) m
  obtain rfl : j = 0 := by omega
  exact byteOf_load_source hm (by omega) (by omega) (by omega)

theorem Block.wrote_rowm (apart : b.Apart) : Wrote (b.Target m₀) b.All m₀ (demuxRowm b m₀) := by
  unfold demuxRowm
  simp only [loop_eq_loopBy]
  refine tiled_rows apart 1 1 (Nat.mod_one _) (Nat.mod_one _)
    (fun c r m => m.store (b.plane c + r) (m.load 8 (b.source r c))) (fun c0 r0 hc hr m hm => ?_) (same_refl b m₀)
  refine column 8 r0 c0 _ hc (by omega) (fun j hj => ?_) m
  obtain rfl : j = 0 := by omega
  exact byteOf_load_source hm (by omega) (by omega) (by omega)

theorem byteOf_ofBytes_map_range (g : Nat) (f : Nat → Byte) (j : Nat) (hj : j < g) :
    byteOf (ofBytes (8 * g) ((List.range g).map f)) j = f j := by
  rw [byteOf_ofBytes _ _ _ (by simp), getD_map_range _ _ _ _ hj]

theorem Block.wrote_coalesced (apart : b.Apart) (g : Nat) (hl : b.l % g = 0) :
    Wrote (b.Target m₀) b.All m₀ (demuxCoalesced g b m₀) := by
  unfold demuxCoalesced
  rw [loop_eq_loopBy]
  refine tiled_channels apart 1 g (Nat.mod_one _) hl _ (fun c0 r0 hc hr m hm => ?_) (same_refl b m₀)
  have key := column (b := b) (m₀ := m₀) (8 * g) r0 c0
    (ofBytes (8 * g) ((List.range g).map (fun k => m.load 8 (b.source (r0 + k) c0)))) hc
    (by rw [Nat.mul_div_cancel_left _ (by omega)]; omega) (fun j hj => ?_) m
  · rwa [Nat.mul_div_cancel_left _ (by omega)] at key
  · rw [Nat.mul_div_cancel_left _ (by omega)] at hj
    rw [byteOf_ofBytes_map_range g _ j hj]
    have load : byteOf (m.load 8 (b.source (r0 + j) c0)) 0 = _ :=
      byteOf_load_source hm (width := 8) (r := r0 + j) (c := c0) (k := 0) (by omega) (by omega) (by omega)
    rw [Nat.add_zero] at load
    rw [← load]
    apply BitVec.eq_of_getLsbD_eq
    intro i hi
    rw [getLsbD_byteOf]
    simp [hi]

theorem Block.wrote_repacked (apart : b.Apart) (g : Nat) (hn : b.n % g = 0) (hl : b.l % g = 0) :
    Wrote (b.Target m₀) b.All m₀ (demuxRepacked g b m₀) := by
  unfold demuxRepacked
  dsimp only
  refine tiled_rows apart g g hn hl
    (fun c0 r0 m => loop g (fun k m' => m'.store (b.plane (c0 + k) + r0) (ofBytes (8 * g)
      (((List.range g).map (fun j => Memory.load (8 * g) m (b.source (r0 + j) c0))).map (fun x => byteOf x k)))) m)
    (fun c0 r0 hc hr m hm => ?_) (same_refl b m₀)
  have width : 8 * g / 8 = g := Nat.mul_div_cancel_left _ (by omega)
  have key := tile (b := b) (m₀ := m₀) g (8 * g) r0 c0 (fun k => ofBytes (8 * g)
      (((List.range g).map (fun j => m.load (8 * g) (b.source (r0 + j) c0))).map (fun x => byteOf x k))) hc
      (by rw [width]; omega) (fun k hk j hj => ?_) m
  · rwa [width] at key
  · rw [width] at hj
    rw [List.map_map, byteOf_ofBytes_map_range g _ j hj]
    exact byteOf_load_source hm (by omega) (by omega) (by omega)

/-! ### The SIMD strategies -/

theorem Block.dwordOf_rowWords (m : Memory) (r c0 i : Nat) (hi : i < 4) :
    dwordOf (rowWords b m r c0) i = m.load 32 (b.source (r + i) c0) :=
  dwordOf_lanes (fun i => m.load 32 (b.source (r + i) c0)) i hi

/-- Byte 4j + k of four row words is the byte of row r + j, channel c0 + k. -/
theorem Block.byteOf_rowWords (hm : b.Same m₀ m) (r c0 j k : Nat) (hj : j < 4) (hk : k < 4) (hr : r + 4 ≤ b.l)
    (hc : c0 + 4 ≤ b.n) : byteOf (rowWords b m r c0) (4 * j + k) = m₀.read (b.source (r + j) (c0 + k)) := by
  rw [← byteOf_dwordOf _ _ _ hk, dwordOf_rowWords _ _ _ _ hj]
  exact byteOf_load_source hm (by omega) (by omega) (by omega)

/-- Byte 4k + j of the byte-lane transpose of four row words is the byte of row r + j, channel c0 + k. -/
theorem Block.byteOf_btrn4_rowWords (hm : b.Same m₀ m) (r c0 j k : Nat) (hj : j < 4) (hk : k < 4) (hr : r + 4 ≤ b.l)
    (hc : c0 + 4 ≤ b.n) :
    byteOf (btrn4Half (rowWords b m r c0)) (4 * k + j) = m₀.read (b.source (r + j) (c0 + k)) := by
  rw [byteOf_btrn4Half _ _ _ hj hk, byteOf_rowWords hm r c0 j k hj hk hr hc]

theorem Block.wrote_x4s (apart : b.Apart) (hn : b.n % 4 = 0) (hl : b.l % 4 = 0) :
    Wrote (b.Target m₀) b.All m₀ (demuxX4s b m₀) := by
  unfold demuxX4s
  refine tiled_channels apart 4 4 hn hl _ (fun c0 r0 hc hr m hm => ?_) (same_refl b m₀)
  exact tile 4 32 r0 c0 _ hc hr (fun k hk j hj => by
    rw [byteOf_dwordOf _ _ _ (by omega), byteOf_btrn4_rowWords hm r0 c0 j k (by omega) hk hr hc]) m

/-- Byte j of half k of a 4 by 16 tile is the byte of row r0 + j, channel c0 + k. -/
theorem Block.byteOf_tile4q (hm : b.Same m₀ m) (r0 c0 k j : Nat) (hk : k < 4) (hj : j < 16) (hr : r0 + 16 ≤ b.l)
    (hc : c0 + 4 ≤ b.n) : byteOf ((tile4q b m r0 c0).getD k 0#128) j = m₀.read (b.source (r0 + j) (c0 + k)) := by
  have split : j = 4 * (j / 4) + j % 4 := by omega
  unfold tile4q
  rw [split, ← byteOf_dwordOf _ _ _ (by omega), dwordOf_trn4dRows _ _ _ hk (by omega),
    getD_map_range _ _ _ _ (by omega), byteOf_dwordOf _ _ _ (by omega),
    byteOf_btrn4_rowWords hm _ c0 (j % 4) k (by omega) hk (by omega) hc]
  rw [Nat.add_assoc]

theorem Block.wrote_x4q (apart : b.Apart) (hn : b.n % 4 = 0) (hl : b.l % 16 = 0) :
    Wrote (b.Target m₀) b.All m₀ (demuxX4q b m₀) := by
  unfold demuxX4q
  refine tiled_channels apart 4 16 hn hl _ (fun c0 r0 hc hr m hm => ?_) (same_refl b m₀)
  exact tile 4 128 r0 c0 _ hc hr (fun k hk j hj => byteOf_tile4q hm r0 c0 k j hk (by omega) hr hc) m

theorem Block.wrote_x8 (apart : b.Apart) (hn : b.n % 8 = 0) (hl : b.l % 8 = 0) :
    Wrote (b.Target m₀) b.All m₀ (demuxX8 b m₀) := by
  unfold demuxX8
  refine tiled_channels apart 8 8 hn hl _ (fun c0 r0 hc hr m hm => ?_) (same_refl b m₀)
  refine tile 8 64 r0 c0 _ hc hr (fun k hk j hj => ?_) m
  rw [byteOf_qwordOf _ _ _ (by omega), byteOf_trn8bRows _ _ _ (by omega) hk, if_pos (by omega),
    getD_map_range _ _ _ _ (by omega)]
  rw [Nat.mul_zero, Nat.zero_add]
  have low : byteOf ((m.load 64 (b.source (r0 + j) c0)).setWidth 128) k = byteOf (m.load 64 (b.source (r0 + j) c0)) k := by
    apply BitVec.eq_of_getLsbD_eq
    intro i hi
    rw [getLsbD_byteOf, getLsbD_byteOf, BitVec.getLsbD_setWidth]
    have : 8 * k + i < 128 := by omega
    simp [this]
  rw [low]
  exact byteOf_load_source hm (by omega) (by omega) (by omega)

/-- Byte j of half k of a 16 by 16 tile is the byte of row r0 + j, channel c0 + k. -/
theorem Block.byteOf_tile16 (hm : b.Same m₀ m) (r0 c0 k j : Nat) (hk : k < 16) (hj : j < 16) (hr : r0 + 16 ≤ b.l)
    (hc : c0 + 16 ≤ b.n) : byteOf ((tile16 b m r0 c0).getD k 0#128) j = m₀.read (b.source (r0 + j) (c0 + k)) := by
  unfold tile16
  rw [byteOf_trn16bRows _ _ _ hj hk, getD_map_range _ _ _ _ hj]
  exact byteOf_load_source hm (by omega) (by omega) (by omega)

theorem Block.wrote_x16 (apart : b.Apart) (hn : b.n % 16 = 0) (hl : b.l % 16 = 0) :
    Wrote (b.Target m₀) b.All m₀ (demuxX16 b m₀) := by
  unfold demuxX16
  refine tiled_channels apart 16 16 hn hl _ (fun c0 r0 hc hr m hm => ?_) (same_refl b m₀)
  exact tile 16 128 r0 c0 _ hc hr (fun k hk j hj => byteOf_tile16 hm r0 c0 k j hk (by omega) hr hc) m

/-- A 256-bit word made of two 16-row tiles, the earlier rows in the low half. -/
theorem Block.byteOf_twoTiles (lowTile highTile : Half) (r0 c : Nat)
    (hlow : ∀ j < 16, byteOf lowTile j = m₀.read (b.source (r0 + j) c))
    (hhigh : ∀ j < 16, byteOf highTile j = m₀.read (b.source (r0 + 16 + j) c)) (j : Nat) (hj : j < 32) :
    byteOf (vecOfHalves lowTile highTile) j = m₀.read (b.source (r0 + j) c) := by
  rw [byteOf_vecOfHalves _ _ _ hj]
  split
  · exact hlow j (by omega)
  · rw [hhigh (j - 16) (by omega), Nat.add_assoc, show 16 + (j - 16) = j by omega]

theorem Block.wrote_y4 (apart : b.Apart) (hn : b.n % 4 = 0) (hl : b.l % 32 = 0) :
    Wrote (b.Target m₀) b.All m₀ (demuxY4 b m₀) := by
  unfold demuxY4
  refine tiled_channels apart 4 32 hn hl _ (fun c0 r0 hc hr m hm => ?_) (same_refl b m₀)
  exact tile 4 256 r0 c0 _ hc hr (fun k hk j hj => byteOf_twoTiles _ _ r0 (c0 + k)
    (fun j hj => byteOf_tile4q hm r0 c0 k j hk hj (by omega) hc)
    (fun j hj => byteOf_tile4q hm (r0 + 16) c0 k j hk hj (by omega) hc) j (by omega)) m

theorem Block.wrote_y16 (apart : b.Apart) (hn : b.n % 16 = 0) (hl : b.l % 32 = 0) :
    Wrote (b.Target m₀) b.All m₀ (demuxY16 b m₀) := by
  unfold demuxY16
  refine tiled_channels apart 16 32 hn hl _ (fun c0 r0 hc hr m hm => ?_) (same_refl b m₀)
  exact tile 16 256 r0 c0 _ hc hr (fun k hk j hj => byteOf_twoTiles _ _ r0 (c0 + k)
    (fun j hj => byteOf_tile16 hm r0 c0 k j hk hj (by omega) hc)
    (fun j hj => byteOf_tile16 hm (r0 + 16) c0 k j hk hj (by omega) hc) j (by omega)) m

theorem Block.wrote_y32 (apart : b.Apart) (hn : b.n % 32 = 0) (hl : b.l % 32 = 0) :
    Wrote (b.Target m₀) b.All m₀ (demuxY32 b m₀) := by
  unfold demuxY32
  refine tiled_channels apart 32 32 hn hl _ (fun c0 r0 hc hr m hm => ?_) (same_refl b m₀)
  refine tile 32 256 r0 c0 _ hc hr (fun k hk j hj => ?_) m
  rw [byteOf_trn32bRows _ _ _ (by omega) hk, getD_map_range _ _ _ _ (by omega)]
  exact byteOf_load_source hm (by omega) (by omega) (by omega)

/-! ### All strategies -/

/-- A strategy other than COPY, on a block its granularities admit, writes source bytes to plane bytes and reaches every
plane byte (41_demux_contract.md R151, R159). -/
theorem Block.wrote_strategy (st : Strategy) (hst : st ≠ .copy) (apart : b.Apart) (hn : b.n % (strategyRow st).gN = 0)
    (hl : b.l % (strategyRow st).gL = 0) : Wrote (b.Target m₀) b.All m₀ (runStrategy st b m₀) := by
  cases st with
  | ref => exact wrote_ref apart
  | rowm => exact wrote_rowm apart
  | wc4 => exact wrote_coalesced apart 4 hl
  | wc8 => exact wrote_coalesced apart 8 hl
  | rc4 => exact wrote_repacked apart 4 hn hl
  | rc8 => exact wrote_repacked apart 8 hn hl
  | x4s => exact wrote_x4s apart hn hl
  | x4q => exact wrote_x4q apart hn hl
  | x8 => exact wrote_x8 apart hn hl
  | x16 => exact wrote_x16 apart hn hl
  | y4 => exact wrote_y4 apart hn hl
  | y16 => exact wrote_y16 apart hn hl
  | y32 => exact wrote_y32 apart hn hl
  | copy => exact absurd rfl hst

/-- COPY writes the source block to the planes in order and reaches every plane byte (46_demux_simd.md R277). -/
theorem Block.wrote_copy (apart : b.Apart) : Wrote (b.CopyTarget m₀) b.All m₀ (runStrategy .copy b m₀) := by
  have stable : ∀ m m', b.Same m₀ m → Wrote (b.CopyTarget m₀) (fun _ => False) m m' → b.Same m₀ m' :=
    fun _ _ => same_stable_copy apart
  refine Wrote.loop _ stable b.n _ (fun c a => ∃ r < b.l, a = b.plane c + r) (fun c hc m hm => ?_) m₀ (same_refl b m₀)
  refine Wrote.loop _ stable b.l _ (fun r a => a = b.plane c + r) (fun r hr m hm => ?_) m hm
  have inside : c * b.l + r < b.n * b.l := by
    calc c * b.l + r < c * b.l + b.l := by omega
      _ = (c + 1) * b.l := by ring
      _ ≤ b.n * b.l := Nat.mul_le_mul_right _ hc
  refine (Wrote.store _ _ m (fun i hi => ⟨c, hc, r, hr, by omega, ?_⟩)).mono (fun _ _ => id) ?_
  · rintro a rfl
    exact ⟨by omega, by omega⟩
  · obtain rfl : i = 0 := by omega
    rw [byteOf_load _ _ _ _ (by omega), Nat.add_zero, Nat.add_assoc, hm _ inside, ← Nat.add_assoc]

end Sys2Proof.Machine
end

