-- ==== Sys2Proof/Laws/Demux.lean ====
section
/-! SUPPORT. The checks of a DEMUX (spec/41_demux_contract.md R153 to R157), each with what makes it pass and what it raises,
and the DEMUX whose checks pass. -/

namespace Sys2Proof.Machine

/-! ### Shape, granularity, alignment -/

theorem checkShape_ok (st : Strategy) (s : State) :
    checkShape (strategyRow st) (descriptor s) = .ok () ↔ ShapeOk st s := by
  unfold checkShape ShapeOk descriptor
  split_ifs with h1 h2 h3 h4 h5 <;> simp_all

theorem checkAlign_ok (st : Strategy) (s : State) :
    checkAlign (strategyRow st) (descriptor s) = .ok () ↔
      s.src.toNat % (strategyRow st).aSrc = 0 ∧ s.dstp.toNat % 4 = 0 := by
  unfold checkAlign descriptor
  split_ifs with h1 h2 <;> simp_all

/-- A range check is CheckAccess with alignment 1 (R154). -/
theorem checkAccess_range (s : State) (a count : Nat) : checkAccess s a count 1 = .ok () ↔ RangeInMem s a count := by
  rw [checkAccess_ok]
  simp [Access.Ok, Nat.mod_one]

/-! ### The pointer table -/

@[simp] theorem length_readTable (m : Memory) (dstp n : Nat) : (readTable m dstp n).length = n := by simp [readTable]

/-- Entry c of the table is P[c] (R161). -/
theorem getD_readTable (s : State) (c : Nat) (hc : c < s.n.toNat) :
    (readTable s.mem s.dstp.toNat s.n.toNat).getD c 0 = planeAddress s c := by
  unfold readTable planeAddress
  rw [getD_map_range _ _ _ _ hc, wordAt_eq]

/-! ### The planes -/

theorem checkPlanes_ok (s : State) (row : StrategyRow) (l : Nat) (ps : List Nat) :
    checkPlanes s row l ps = .ok () ↔ ∀ c < ps.length, Access.Ok s ⟨ps.getD c 0, l, row.aDst⟩ := by
  induction ps with
  | nil => simp [checkPlanes]
  | cons p ps ih =>
    simp only [checkPlanes, unit_bind_eq_ok, checkAccess_ok, ih]
    constructor
    · rintro ⟨h, k⟩ c hc
      cases c with
      | zero => simpa using h
      | succ c => simpa using k c (by simpa using hc)
    · intro h
      exact ⟨by simpa using h 0 (by simp), fun c hc => by simpa using h (c + 1) (by simpa using hc)⟩

/-- The first plane that fails its check decides what the check of the planes raises (R154 (6)). -/
theorem checkPlanes_error (s : State) (row : StrategyRow) (l : Nat) (ps : List Nat) (c : Nat) (f : Raised)
    (hc : c < ps.length) (before : ∀ e < c, Access.Ok s ⟨ps.getD e 0, l, row.aDst⟩)
    (hf : checkAccess s (ps.getD c 0) l row.aDst = .error f) : checkPlanes s row l ps = .error f := by
  induction ps generalizing c with
  | nil => simp at hc
  | cons p ps ih =>
    cases c with
    | zero =>
      have hf' : checkAccess s p l row.aDst = .error f := by simpa using hf
      simp [checkPlanes, hf']
    | succ c =>
      have h0 : checkAccess s p l row.aDst = .ok () := (checkAccess_ok _ _ _ _).2 (by simpa using before 0 (by omega))
      have rest := ih c (by simpa using hc) (fun e he => by simpa using before (e + 1) (by omega)) (by simpa using hf)
      simp [checkPlanes, h0, rest]

/-! ### Layout and overlap -/

theorem find_range_none (count : Nat) (p : Nat → Bool) :
    (List.range count).find? p = none ↔ ∀ c < count, p c = false := by
  simp

theorem find_range_some (count : Nat) (p : Nat → Bool) (c : Nat) (hc : c < count) (h : p c = true)
    (before : ∀ e < c, p e = false) : (List.range count).find? p = some c := by
  rw [List.find?_range_eq_some]
  exact ⟨h, by simpa using hc, fun e he => by simp [before e he]⟩

theorem rangesOverlap_eq (a m b k : Nat) : rangesOverlap a m b k = true ↔ Overlap a m b k := by
  simp [rangesOverlap, Overlap]

/-- The overlap test of plane c on the table read from memory (R155 (2)). -/
theorem planeOverlaps_eq (s : State) (c : Nat) (hc : c < s.n.toNat) :
    planeOverlaps (descriptor s) (readTable s.mem s.dstp.toNat s.n.toNat) c = true ↔ PlaneOverlaps s c := by
  unfold planeOverlaps PlaneOverlaps
  rw [getD_readTable s c hc]
  simp only [descriptor, Bool.or_eq_true, rangesOverlap_eq, List.any_eq_true, List.mem_range, or_assoc]
  constructor
  · rintro (h | h | ⟨e, he, h⟩)
    · exact .inl h
    · exact .inr (.inl h)
    · rw [getD_readTable s e (by omega)] at h
      exact .inr (.inr ⟨e, he, h⟩)
  · rintro (h | h | ⟨e, he, h⟩)
    · exact .inl h
    · exact .inr (.inl h)
    · exact .inr (.inr ⟨e, he, by rwa [getD_readTable s e (by omega)]⟩)

theorem checkLayout_ok (s : State) :
    checkLayout (readTable s.mem s.dstp.toNat s.n.toNat) s.l.toNat = .ok () ↔ ∀ c < s.n.toNat, PlaneContiguous s c := by
  unfold checkLayout
  rw [length_readTable]
  cases h : (List.range s.n.toNat).find? (fun c => decide
      ((readTable s.mem s.dstp.toNat s.n.toNat).getD c 0 ≠
        (readTable s.mem s.dstp.toNat s.n.toNat).getD 0 0 + c * s.l.toNat)) with
  | none =>
    rw [find_range_none] at h
    simp only [true_iff]
    intro c hc
    have := h c hc
    rw [getD_readTable s c hc, getD_readTable s 0 (by omega)] at this
    simpa using this
  | some c =>
    simp only [raise_eq, reduceCtorEq, false_iff, not_forall]
    obtain ⟨hp, hm, -⟩ := List.find?_range_eq_some.1 h
    have hc : c < s.n.toNat := by simpa using hm
    rw [getD_readTable s c hc, getD_readTable s 0 (by omega)] at hp
    exact ⟨c, hc, by simpa using hp⟩

/-- The lowest plane out of place decides what the layout check raises. -/
theorem checkLayout_error (s : State) (c : Nat) (hc : c < s.n.toNat) (before : ∀ e < c, PlaneContiguous s e)
    (h : ¬ PlaneContiguous s c) :
    checkLayout (readTable s.mem s.dstp.toNat s.n.toNat) s.l.toNat = .error ⟨.layout, BitVec.ofNat 32 c⟩ := by
  unfold checkLayout
  rw [length_readTable, find_range_some _ _ c hc]
  · rfl
  · rw [getD_readTable s c hc, getD_readTable s 0 (by omega)]
    simpa using h
  · intro e he
    rw [getD_readTable s e (by omega), getD_readTable s 0 (by omega)]
    simpa using before e he

theorem checkOverlap_ok (s : State) :
    checkOverlap (descriptor s) (readTable s.mem s.dstp.toNat s.n.toNat) = .ok () ↔
      ∀ c < s.n.toNat, ¬ PlaneOverlaps s c := by
  unfold checkOverlap
  rw [length_readTable]
  cases h : (List.range s.n.toNat).find? (planeOverlaps (descriptor s) (readTable s.mem s.dstp.toNat s.n.toNat)) with
  | none =>
    rw [find_range_none] at h
    simp only [true_iff]
    intro c hc k
    rw [← planeOverlaps_eq s c hc, h c hc] at k
    simp at k
  | some c =>
    simp only [raise_eq, reduceCtorEq, false_iff, not_forall]
    obtain ⟨hp, hm, -⟩ := List.find?_range_eq_some.1 h
    have hc : c < s.n.toNat := by simpa using hm
    exact ⟨c, hc, not_not_intro ((planeOverlaps_eq s c hc).1 hp)⟩

/-- The lowest plane that overlaps decides what the overlap check raises. -/
theorem checkOverlap_error (s : State) (c : Nat) (hc : c < s.n.toNat) (before : ∀ e < c, ¬ PlaneOverlaps s e)
    (h : PlaneOverlaps s c) :
    checkOverlap (descriptor s) (readTable s.mem s.dstp.toNat s.n.toNat) = .error ⟨.overlap, BitVec.ofNat 32 c⟩ := by
  unfold checkOverlap
  rw [length_readTable, find_range_some _ _ c hc ((planeOverlaps_eq s c hc).2 h)]
  · rfl
  · intro e he
    exact Bool.eq_false_iff.2 (fun k => before e he ((planeOverlaps_eq s e (by omega)).1 k))

/-! ### All checks -/

/-- The layout step of the checks: COPY only. -/
def checkLayoutOf (st : Strategy) (s : State) : Check Unit :=
  match st with
  | .copy => checkLayout (readTable s.mem s.dstp.toNat s.n.toNat) s.l.toNat
  | _ => .ok ()

theorem checkLayoutOf_ok (st : Strategy) (s : State) :
    checkLayoutOf st s = .ok () ↔ (st = .copy → ∀ c < s.n.toNat, PlaneContiguous s c) := by
  cases st <;> simp [checkLayoutOf, checkLayout_ok]

/-- The checks of a DEMUX in their order (R157). -/
theorem demuxChecks_eq (st : Strategy) (s : State) :
    demuxChecks st s =
      (checkShape (strategyRow st) (descriptor s) >>= fun _ =>
        checkAlign (strategyRow st) (descriptor s) >>= fun _ =>
          checkAccess s s.src.toNat s.len.toNat 1 >>= fun _ =>
            checkAccess s s.dstp.toNat (4 * s.n.toNat) 1 >>= fun _ =>
              checkPlanes s (strategyRow st) s.l.toNat (readTable s.mem s.dstp.toNat s.n.toNat) >>= fun _ =>
                checkLayoutOf st s >>= fun _ =>
                  checkOverlap (descriptor s) (readTable s.mem s.dstp.toNat s.n.toNat) >>= fun _ =>
                    .ok (readTable s.mem s.dstp.toNat s.n.toNat)) := by
  cases st <;> rfl

theorem checkPlanes_readTable (st : Strategy) (s : State) :
    checkPlanes s (strategyRow st) s.l.toNat (readTable s.mem s.dstp.toNat s.n.toNat) = .ok () ↔
      ∀ c < s.n.toNat, PlaneOk st s c := by
  rw [checkPlanes_ok, length_readTable]
  constructor
  · intro h c hc
    have := h c hc
    rwa [getD_readTable s c hc] at this
  · intro h c hc
    rw [getD_readTable s c hc]
    exact h c hc

/-- The checks pass exactly where the DEMUX is legal, and they answer the pointer table. -/
theorem demuxChecks_ok (st : Strategy) (s : State) (table : List Nat) :
    demuxChecks st s = .ok table ↔ DemuxLegal st s ∧ table = readTable s.mem s.dstp.toNat s.n.toNat := by
  rw [demuxChecks_eq]
  simp only [unit_bind_eq_ok, checkShape_ok, checkAlign_ok, checkAccess_range, checkPlanes_readTable, checkLayoutOf_ok,
    checkOverlap_ok, Except.ok.injEq]
  constructor
  · rintro ⟨h1, ⟨h2, h3⟩, h4, h5, h6, h7, h8, e⟩
    exact ⟨⟨h1, ⟨h2, h3, h4, h5⟩, h6, h7, h8⟩, e.symm⟩
  · rintro ⟨⟨h1, ⟨h2, h3, h4, h5⟩, h6, h7, h8⟩, e⟩
    exact ⟨h1, ⟨h2, h3⟩, h4, h5, h6, h7, h8, e.symm⟩

/-! ### A DEMUX whose checks pass -/

/-- The block a DEMUX transforms (R150). -/
def blockOf (s : State) : Block := ⟨s.src.toNat, s.n.toNat, s.l.toNat, readTable s.mem s.dstp.toNat s.n.toNat⟩

theorem plane_blockOf (s : State) (c : Nat) (hc : c < s.n.toNat) : (blockOf s).plane c = planeAddress s c :=
  getD_readTable s c hc

theorem source_blockOf (s : State) (r c : Nat) : (blockOf s).source r c = s.src.toNat + r * s.n.toNat + c := rfl

theorem exec_demux_legal (st : Strategy) (s : State) (h : DemuxLegal st s) :
    exec (.demux st) s = .next (advance { s with mem := runStrategy st (blockOf s) s.mem }) := by
  have ok := (demuxChecks_ok st s _).2 ⟨h, rfl⟩
  simp [exec, execDemux, ok, blockOf]

theorem exec_demux_error (st : Strategy) (s : State) (f : Raised) (h : demuxChecks st s = .error f) :
    exec (.demux st) s = .next (takeFault s f) := by
  simp [exec, execDemux, h]

/-- The planes of a legal DEMUX are apart from its source. -/
theorem apart_of_legal (st : Strategy) (s : State) (h : DemuxLegal st s) : (blockOf s).Apart := by
  intro c hc r hr i hi e
  have hc' : c < s.n.toNat := hc
  have hr' : r < s.l.toNat := hr
  have hi' : i < s.n.toNat * s.l.toNat := hi
  rw [h.1.2.2.1] at hi'
  rw [plane_blockOf s c hc'] at e
  have e' : planeAddress s c + r = s.src.toNat + i := e
  exact h.2.2.2.2 c hc' (.inl ⟨by omega, by omega⟩)

/-- The addresses of the planes are the bytes a DEMUX writes (R159). -/
theorem all_blockOf (s : State) (a : Nat) : (blockOf s).All a ↔ planeBytes s a := by
  constructor
  · rintro ⟨c, hc, r, hr, rfl⟩
    exact ⟨c, hc, r, hr, by rw [plane_blockOf s c hc]⟩
  · rintro ⟨c, hc, r, hr, rfl⟩
    exact ⟨c, hc, r, hr, by rw [plane_blockOf s c hc]⟩

/-- The planes of a legal DEMUX are apart from one another: an address is in one place only. -/
theorem plane_unique (st : Strategy) (s : State) (h : DemuxLegal st s) (c r e q : Nat) (hc : c < s.n.toNat)
    (hr : r < s.l.toNat) (he : e < s.n.toNat) (hq : q < s.l.toNat)
    (eq : planeAddress s c + r = planeAddress s e + q) : c = e ∧ r = q := by
  rcases Nat.lt_trichotomy c e with k | rfl | k
  · exact absurd (.inr (.inr ⟨c, k, ⟨by omega, by omega⟩⟩)) (h.2.2.2.2 e he)
  · exact ⟨rfl, by omega⟩
  · exact absurd (.inr (.inr ⟨e, k, ⟨by omega, by omega⟩⟩)) (h.2.2.2.2 c hc)

/-- What a legal DEMUX of any strategy but COPY does to memory: the writes of the contract (R151). -/
theorem wrote_of_legal (st : Strategy) (s : State) (hst : st ≠ .copy) (h : DemuxLegal st s) :
    Wrote ((blockOf s).Target s.mem) (blockOf s).All s.mem (runStrategy st (blockOf s) s.mem) :=
  Block.wrote_strategy st hst (apart_of_legal st s h) h.1.2.2.2.1 h.1.2.2.2.2

/-- What a legal COPY does to memory. -/
theorem wrote_of_legal_copy (s : State) (h : DemuxLegal .copy s) :
    Wrote ((blockOf s).CopyTarget s.mem) (blockOf s).All s.mem (runStrategy .copy (blockOf s) s.mem) :=
  Block.wrote_copy (apart_of_legal .copy s h)

/-- Every DEMUX whose checks pass writes only plane bytes, all in MEM. -/
theorem wrote_inMem (st : Strategy) (s : State) (h : DemuxLegal st s) :
    Wrote (fun a _ => planeBytes s a ∧ inMem s a = true) (fun _ => False) s.mem (runStrategy st (blockOf s) s.mem) := by
  have inside : ∀ c < s.n.toNat, ∀ r < s.l.toNat, inMem s (planeAddress s c + r) = true := fun c hc r hr =>
    (h.2.2.1 c hc).2.2 r hr
  by_cases e : st = .copy
  · subst e
    refine (wrote_of_legal_copy s h).mono ?_ (fun _ k => k.elim)
    rintro a v ⟨c, hc, r, hr, rfl, -⟩
    rw [plane_blockOf s c hc]
    exact ⟨⟨c, hc, r, hr, rfl⟩, inside c hc r hr⟩
  · refine (wrote_of_legal st s e h).mono ?_ (fun _ k => k.elim)
    rintro a v ⟨c, hc, r, hr, rfl, -⟩
    rw [plane_blockOf s c hc]
    exact ⟨⟨c, hc, r, hr, rfl⟩, inside c hc r hr⟩

end Sys2Proof.Machine
end

