-- ==== Sys2Proof/Laws/Exec.lean ====
section
/-! SUPPORT. What a command can do, said once: it ends in fault entry, it is HALT, or it has an effect whose outline is
`Effect`. Statements about all commands follow from `exec_cases` without unfolding a meaning. -/

namespace Sys2Proof.Machine

/-! ### The outline of an effect -/

/-- The address register a command writes (10_state.md R22). -/
def destA : Instr → Option AReg
  | .lai ad _ => some ad
  | .lahi ad _ => some ad
  | .addai ad _ _ => some ad
  | .adda ad _ _ => some ad
  | .lda ad _ _ => some ad
  | .csrr ad _ => some ad
  | .dbnz ad _ => some ad
  | _ => none

/-- The command may store to memory. -/
def storing : Instr → Bool
  | .vst _ _ _ _ => true
  | .vstu _ _ _ _ => true
  | .vstq _ _ _ _ => true
  | .vstw _ _ _ _ => true
  | .demux _ => true
  | _ => false

/-- pc after a command that does not fault and is not HALT (40_control_address.md R134). -/
def nextPc (s : State) : Instr → Word
  | .jmp imm => target24 s.pc imm
  | .dbnz ad imm => if s.a[ad].data - 1#32 = 0#32 then s.pc + 4#32 else target16 s.pc imm
  | _ => s.pc + 4#32

/-- The control registers of t are those of s, but for the one a CSRW writes. -/
def CsrEffect (i : Instr) (s t : State) : Prop :=
  match i with
  | .csrw _ c => ∃ v, SameControlRegisters (writeCsr s v c) t
  | _ => SameControlRegisters s t

/-- What every effect keeps, and which pieces of state it may change. -/
structure Effect (i : Instr) (s t : State) : Prop where
  status : t.status = s.status
  faults : SameFaultRegisters s t
  platform : SamePlatform s t
  pc : t.pc = nextPc s i
  a : ∀ r : AReg, t.a[r] = s.a[r] ∨ (destA i = some r ∧ t.a[r].valid = true)
  halves : ∀ (n : VReg) (h : Lane), half t n h = half s n h ∨ (half t n h).valid = true
  csr : CsrEffect i s t
  mem : Wrote (fun x _ => inMem s x = true) (fun _ => False) s.mem t.mem
  kept : storing i = false → t.mem = s.mem

/-! ### Effects of the shared shapes -/

theorem effect_advance (i : Instr) (s : State) (hp : nextPc s i = s.pc + 4#32) (hc : CsrEffect i s (advance s)) :
    Effect i s (advance s) where
  status := rfl
  faults := ⟨rfl, rfl, rfl⟩
  platform := ⟨rfl, rfl⟩
  pc := hp.symm
  a _ := .inl rfl
  halves n h := .inl (half_advance s n h)
  csr := hc
  mem := Wrote.refl _ _
  kept _ := rfl

theorem effect_writeA (i : Instr) (s : State) (ad : AReg) (x : Word) (hp : nextPc s i = s.pc + 4#32)
    (hd : destA i = some ad) (hc : CsrEffect i s (advance (writeA s ad x))) :
    Effect i s (advance (writeA s ad x)) where
  status := rfl
  faults := ⟨rfl, rfl, rfl⟩
  platform := ⟨rfl, rfl⟩
  pc := hp.symm
  a r := by
    have := writeA_get s r ad x
    by_cases e : r = ad
    · subst e
      rw [if_pos rfl] at this
      exact .inr ⟨hd, by rw [advance_a, this]⟩
    · rw [if_neg e] at this
      exact .inl (by rw [advance_a, this])
  halves n h := .inl (by simp)
  csr := hc
  mem := Wrote.refl _ _
  kept _ := rfl

/-- An effect on halves only: u is s but for halves, each of them as before or valid. -/
theorem effect_halves (i : Instr) (s u : State) (hp : nextPc s i = s.pc + 4#32) (hu : u = { s with vlo := u.vlo, vhi := u.vhi })
    (hh : ∀ (n : VReg) (h : Lane), half u n h = half s n h ∨ (half u n h).valid = true)
    (hc : CsrEffect i s (advance s)) : Effect i s (advance u) := by
  have control : CsrEffect i s (advance u) := by
    unfold CsrEffect at hc ⊢
    split at hc
    · obtain ⟨v, k⟩ := hc
      exact ⟨v, by rw [hu]; exact k⟩
    · rw [hu]
      exact hc
  have fields : u.status = s.status ∧ SameFaultRegisters s u ∧ SamePlatform s u ∧ u.pc = s.pc ∧ u.a = s.a ∧ u.mem = s.mem := by
    rw [hu]
    exact ⟨rfl, ⟨rfl, rfl, rfl⟩, ⟨rfl, rfl⟩, rfl, rfl, rfl⟩
  obtain ⟨h1, h2, h3, h4, h5, h6⟩ := fields
  exact {
    status := h1
    faults := h2
    platform := h3
    pc := by rw [hp, advance_pc, h4]
    a := fun r => .inl (by rw [advance_a, h5])
    halves := fun n h => by rw [half_advance]; exact hh n h
    csr := control
    mem := by rw [advance_mem, h6]; exact Wrote.refl _ _
    kept := fun _ => h6 }

theorem halves_writeHalf (s u : State) (n : VReg) (h : Lane) (x : Half)
    (hh : ∀ (m : VReg) (k : Lane), half u m k = half s m k ∨ (half u m k).valid = true) (m : VReg) (k : Lane) :
    half (writeHalf u n h x) m k = half s m k ∨ (half (writeHalf u n h x) m k).valid = true := by
  rw [half_writeHalf]
  split
  · exact .inr rfl
  · exact hh m k

theorem halves_writeGroup (s u : State) (h : Lane) (ws : List (VReg × Half))
    (hh : ∀ (m : VReg) (k : Lane), half u m k = half s m k ∨ (half u m k).valid = true) :
    ∀ (m : VReg) (k : Lane), half (writeGroup u h ws) m k = half s m k ∨ (half (writeGroup u h ws) m k).valid = true := by
  induction ws generalizing u with
  | nil => exact hh
  | cons w ws ih => exact ih _ (halves_writeHalf s u w.1 h w.2 hh)

theorem only_halves_writeHalf (s u : State) (n : VReg) (h : Lane) (x : Half) (hu : u = { s with vlo := u.vlo, vhi := u.vhi }) :
    writeHalf u n h x = { s with vlo := (writeHalf u n h x).vlo, vhi := (writeHalf u n h x).vhi } := by
  rw [hu]
  cases h <;> rfl

theorem only_halves_writeGroup (s u : State) (h : Lane) (ws : List (VReg × Half))
    (hu : u = { s with vlo := u.vlo, vhi := u.vhi }) :
    writeGroup u h ws = { s with vlo := (writeGroup u h ws).vlo, vhi := (writeGroup u h ws).vhi } := by
  induction ws generalizing u with
  | nil => exact hu
  | cons w ws ih => exact ih _ (only_halves_writeHalf s u w.1 h w.2 hu)

theorem effect_writeHalf (i : Instr) (s : State) (n : VReg) (h : Lane) (x : Half) (hp : nextPc s i = s.pc + 4#32)
    (hc : CsrEffect i s (advance s)) : Effect i s (advance (writeHalf s n h x)) :=
  effect_halves i s _ hp (only_halves_writeHalf s s n h x rfl) (halves_writeHalf s s n h x fun _ _ => .inl rfl) hc

theorem effect_writeBoth (i : Instr) (s : State) (n : VReg) (x : Half × Half) (hp : nextPc s i = s.pc + 4#32)
    (hc : CsrEffect i s (advance s)) : Effect i s (advance (writeBoth s n x)) :=
  effect_halves i s _ hp (only_halves_writeHalf s _ n .h1 x.2 (only_halves_writeHalf s s n .h0 x.1 rfl))
    (halves_writeHalf s _ n .h1 x.2 (halves_writeHalf s s n .h0 x.1 fun _ _ => .inl rfl)) hc

theorem effect_writeGroup (i : Instr) (s : State) (h : Lane) (ws : List (VReg × Half)) (hp : nextPc s i = s.pc + 4#32)
    (hc : CsrEffect i s (advance s)) : Effect i s (advance (writeGroup s h ws)) :=
  effect_halves i s _ hp (only_halves_writeGroup s s h ws rfl) (halves_writeGroup s s h ws fun _ _ => .inl rfl) hc

theorem effect_writeGroups (i : Instr) (s : State) (h k : Lane) (ws vs : List (VReg × Half))
    (hp : nextPc s i = s.pc + 4#32) (hc : CsrEffect i s (advance s)) :
    Effect i s (advance (writeGroup (writeGroup s h ws) k vs)) :=
  effect_halves i s _ hp (only_halves_writeGroup s _ k vs (only_halves_writeGroup s s h ws rfl))
    (halves_writeGroup s _ k vs (halves_writeGroup s s h ws fun _ _ => .inl rfl)) hc

/-- An effect on memory only, by writes inside MEM. -/
theorem effect_mem (i : Instr) (s : State) (m : Memory) (hp : nextPc s i = s.pc + 4#32) (hs : storing i = true)
    (hm : Wrote (fun x _ => inMem s x = true) (fun _ => False) s.mem m) (hc : CsrEffect i s (advance s)) :
    Effect i s (advance { s with mem := m }) where
  status := rfl
  faults := ⟨rfl, rfl, rfl⟩
  platform := ⟨rfl, rfl⟩
  pc := hp.symm
  a _ := .inl rfl
  halves n h := .inl (by cases h <;> rfl)
  csr := by
    unfold CsrEffect at hc ⊢
    split at hc <;> exact hc
  mem := hm
  kept h := by rw [hs] at h; simp at h

/-- A store whose access passed its check writes inside MEM. -/
theorem wrote_store {width : Nat} (s : State) (a align : Nat) (v : BitVec width) (h : Access.Ok s ⟨a, width / 8, align⟩) :
    Wrote (fun x _ => inMem s x = true) (fun _ => False) s.mem (s.mem.store a v) :=
  (Wrote.store (P := fun x _ => inMem s x = true) a v s.mem (fun i hi => h.2.2 i hi)).mono (fun _ _ => id)
    (fun _ k => k.elim)

/-! ### Effects of the shared meanings -/

theorem effect_lanewise1 (i : Instr) (f : Half → Half) (vd vs : VReg) (w : Width) (s t : State)
    (hp : nextPc s i = s.pc + 4#32) (hc : CsrEffect i s (advance s)) (h : lanewise1 f vd vs w s = .ok t) :
    Effect i s t := by
  cases w <;> simp only [lanewise1, bind_eq_ok, pure_check, Except.ok.injEq] at h
  · obtain ⟨x, -, rfl⟩ := h
    exact effect_writeHalf i s _ _ _ hp hc
  · obtain ⟨x, -, rfl⟩ := h
    exact effect_writeBoth i s _ _ hp hc

theorem effect_lanewise2 (i : Instr) (f : Half → Half → Half) (vd va vb : VReg) (w : Width) (s t : State)
    (hp : nextPc s i = s.pc + 4#32) (hc : CsrEffect i s (advance s)) (h : lanewise2 f vd va vb w s = .ok t) :
    Effect i s t := by
  cases w <;> simp only [lanewise2, bind_eq_ok, pure_check, Except.ok.injEq] at h
  · obtain ⟨x, -, y, -, rfl⟩ := h
    exact effect_writeHalf i s _ _ _ hp hc
  · obtain ⟨x, -, y, -, rfl⟩ := h
    exact effect_writeBoth i s _ _ hp hc

theorem effect_loadVec (i : Instr) (align : Nat) (vd : VReg) (ra : AReg) (w : Width) (imm : BitVec 12) (s t : State)
    (hp : nextPc s i = s.pc + 4#32) (hc : CsrEffect i s (advance s)) (h : loadVec align vd ra w imm s = .ok t) :
    Effect i s t := by
  cases w <;> simp only [loadVec, bind_eq_ok, pure_check, Except.ok.injEq] at h
  · obtain ⟨x, -, -, -, rfl⟩ := h
    exact effect_writeHalf i s _ _ _ hp hc
  · obtain ⟨x, -, -, -, rfl⟩ := h
    exact effect_writeBoth i s _ _ hp hc

theorem effect_storeVec (i : Instr) (align : Nat) (vs : VReg) (ra : AReg) (w : Width) (imm : BitVec 12) (s t : State)
    (hp : nextPc s i = s.pc + 4#32) (hs : storing i = true) (hc : CsrEffect i s (advance s))
    (h : storeVec align vs ra w imm s = .ok t) : Effect i s t := by
  cases w <;> simp only [storeVec, bind_eq_ok, pure_check, Except.ok.injEq] at h
  · obtain ⟨x, -, v, -, _, ok, rfl⟩ := h
    exact effect_mem i s _ hp hs (wrote_store s _ _ v ((checkAccess_ok _ _ _ _).1 ok)) hc
  · obtain ⟨x, -, v, -, _, ok, rfl⟩ := h
    exact effect_mem i s _ hp hs (wrote_store s _ _ (vecOfHalves v.1 v.2) ((checkAccess_ok _ _ _ _).1 ok)) hc

theorem effect_groupTranspose (i : Instr) (f : List Half → List Half) (dst srcs : List VReg) (w : Width) (s t : State)
    (hp : nextPc s i = s.pc + 4#32) (hc : CsrEffect i s (advance s)) (h : groupTranspose f dst srcs w s = .ok t) :
    Effect i s t := by
  cases w <;> simp only [groupTranspose, bind_eq_ok, pure_check, Except.ok.injEq] at h
  · obtain ⟨x, -, rfl⟩ := h
    exact effect_writeGroup i s _ _ hp hc
  · obtain ⟨x, -, rfl⟩ := h
    exact effect_writeGroups i s _ _ _ _ hp hc

/-! ### Every command -/

/-- SameControlRegisters holds of a state and itself. -/
theorem sameControl_refl (s : State) : SameControlRegisters s s := ⟨rfl, rfl, rfl, rfl, rfl, rfl⟩

/-- What a command can do: fault entry, the end of the run, or its effect. -/
def Outcomes (i : Instr) (s t : State) : Prop :=
  (∃ f, t = takeFault s f) ∨ (i = .halt ∧ t = { s with status := .done }) ∨ Effect i s t

theorem outcomes_conclude (i : Instr) (s t : State) (r : Check State) (h : conclude s r = .next t)
    (k : r = .ok t → Effect i s t) : Outcomes i s t :=
  (conclude_cases s t r h).elim (fun e => .inr (.inr (k e))) (fun ⟨f, _, e⟩ => .inl ⟨f, e⟩)

theorem outcomes_dbnz (ad : AReg) (imm : BitVec 16) (s t : State) (h : exec (.dbnz ad imm) s = .next t) :
    Outcomes (.dbnz ad imm) s t := by
  refine outcomes_conclude _ s t _ h (fun k => ?_)
  simp only [bind_eq_ok, pure_check, Except.ok.injEq, readA_eq_ok] at k
  obtain ⟨x, hx, rfl⟩ := k
  have hd : s.a[ad].data = x := by rw [show s.a[ad] = ⟨x, true⟩ from hx]
  have written := effect_writeA (.lai ad 0) s ad (countDown x) rfl rfl (sameControl_refl s)
  by_cases zero : countDown x = 0#32
  · have untaken : branchTaken (countDown x) = false := by simp [branchTaken, zero]
    have pc : nextPc s (.dbnz ad imm) = s.pc + 4#32 := by
      show (if s.a[ad].data - 1#32 = 0#32 then s.pc + 4#32 else target16 s.pc imm) = _
      rw [hd]
      exact if_pos zero
    rw [untaken]
    exact effect_writeA (.dbnz ad imm) s ad (countDown x) pc rfl (sameControl_refl s)
  · have taken : branchTaken (countDown x) = true := by simp [branchTaken, zero]
    have pc : nextPc s (.dbnz ad imm) = target16 s.pc imm := by
      show (if s.a[ad].data - 1#32 = 0#32 then s.pc + 4#32 else target16 s.pc imm) = _
      rw [hd]
      exact if_neg zero
    rw [taken]
    exact ⟨rfl, ⟨rfl, rfl, rfl⟩, ⟨rfl, rfl⟩, pc.symm, written.a, fun n h => .inl (by cases h <;> rfl), sameControl_refl s,
      Wrote.refl _ _, fun _ => rfl⟩

theorem outcomes_csrw (ra : AReg) (c : Csr) (s t : State) (h : exec (.csrw ra c) s = .next t) :
    Outcomes (.csrw ra c) s t := by
  refine outcomes_conclude _ s t _ h (fun k => ?_)
  simp only [bind_eq_ok, pure_check, Except.ok.injEq] at k
  obtain ⟨-, -, x, -, rfl⟩ := k
  exact ⟨by simp, ⟨by simp, by simp, by simp⟩, ⟨by simp, by simp⟩, by simp [nextPc], fun _ => .inl (by simp), fun n h => .inl (by simp),
    ⟨x, sameControl_refl _⟩, by rw [advance_mem, writeCsr_mem]; exact Wrote.refl _ _, fun _ => by simp⟩

/-- Control and address commands. -/
theorem outcomes_address (i : Instr) (s t : State) (h : exec i s = .next t)
    (hi : match i with
      | .nop | .halt | .abort _ | .jmp _ | .lai _ _ | .lahi _ _ | .addai _ _ _ | .adda _ _ _ | .lda _ _ _ | .csrr _ _ => True
      | _ => False) : Outcomes i s t := by
  have same : SameControlRegisters s (advance s) := sameControl_refl s
  cases i <;> simp only at hi
  case nop => exact outcomes_conclude _ s t (.ok (advance s)) h (fun k => by
    injection k with k; subst k; exact effect_advance _ s rfl same)
  case halt => exact .inr (.inl ⟨rfl, by simpa [exec, execHalt] using h.symm⟩)
  case abort imm => exact outcomes_conclude _ s t (raise .softwareAbort imm.toNat) h (fun k => by simp at k)
  case jmp imm => exact outcomes_conclude _ s t (.ok { s with pc := target24 s.pc imm }) h (fun k => by
    injection k with k
    subst k
    exact ⟨rfl, ⟨rfl, rfl, rfl⟩, ⟨rfl, rfl⟩, rfl, fun _ => .inl rfl, fun n h => .inl (by cases h <;> rfl),
      sameControl_refl s, Wrote.refl _ _, fun _ => rfl⟩)
  case lai ad imm => exact outcomes_conclude _ s t (.ok (advance (writeA s ad (imm.setWidth 32)))) h (fun k => by
    injection k with k; subst k; exact effect_writeA _ s _ _ rfl rfl same)
  case csrr ad c => exact outcomes_conclude _ s t (.ok (advance (writeA s ad (csrValue s c)))) h (fun k => by
    injection k with k; subst k; exact effect_writeA _ s _ _ rfl rfl same)
  all_goals
    refine outcomes_conclude _ s t _ h (fun k => ?_)
    simp only [bind_eq_ok, pure_check, Except.ok.injEq] at k
  case lahi => obtain ⟨x, -, rfl⟩ := k; exact effect_writeA _ s _ _ rfl rfl same
  case addai => obtain ⟨x, -, rfl⟩ := k; exact effect_writeA _ s _ _ rfl rfl same
  case adda => obtain ⟨x, -, y, -, rfl⟩ := k; exact effect_writeA _ s _ _ rfl rfl same
  case lda => obtain ⟨x, -, -, -, rfl⟩ := k; exact effect_writeA _ s _ _ rfl rfl same

theorem outcomes_vldg (vd : VReg) (ra rt : AReg) (w : Width) (imm : BitVec 12) (s t : State)
    (h : exec (.vldg vd ra rt w imm) s = .next t) : Outcomes (.vldg vd ra rt w imm) s t := by
  refine outcomes_conclude _ s t _ h (fun k => ?_)
  simp only [bind_eq_ok] at k
  obtain ⟨x, -, y, -, k⟩ := k
  cases w <;> simp only [bind_eq_ok, pure_check, Except.ok.injEq] at k <;> obtain ⟨-, -, rfl⟩ := k
  · exact effect_writeHalf _ s _ _ _ rfl (sameControl_refl s)
  · exact effect_writeBoth _ s _ _ rfl (sameControl_refl s)

theorem outcomes_vstq (vs : VReg) (ra : AReg) (q : Fin 4) (imm : BitVec 12) (s t : State)
    (h : exec (.vstq vs ra q imm) s = .next t) : Outcomes (.vstq vs ra q imm) s t := by
  refine outcomes_conclude _ s t _ h (fun k => ?_)
  simp only [bind_eq_ok, pure_check, Except.ok.injEq] at k
  obtain ⟨x, -, v, -, _, ok, rfl⟩ := k
  exact effect_mem _ s _ rfl rfl (wrote_store s _ _ (qwordOf v (q.val % 2)) ((checkAccess_ok _ _ _ _).1 ok))
    (sameControl_refl s)

theorem outcomes_vstw (vs : VReg) (ra : AReg) (d : Fin 8) (imm : BitVec 12) (s t : State)
    (h : exec (.vstw vs ra d imm) s = .next t) : Outcomes (.vstw vs ra d imm) s t := by
  refine outcomes_conclude _ s t _ h (fun k => ?_)
  simp only [bind_eq_ok, pure_check, Except.ok.injEq] at k
  obtain ⟨x, -, v, -, _, ok, rfl⟩ := k
  exact effect_mem _ s _ rfl rfl (wrote_store s _ _ (dwordOf v (d.val % 4)) ((checkAccess_ok _ _ _ _).1 ok))
    (sameControl_refl s)

theorem outcomes_permb (vd vs vc : VReg) (w : Width) (s t : State) (h : exec (.permb vd vs vc w) s = .next t) :
    Outcomes (.permb vd vs vc w) s t := by
  refine outcomes_conclude _ s t _ h (fun k => ?_)
  cases w <;> simp only [bind_eq_ok, pure_check, Except.ok.injEq] at k
  · obtain ⟨x, -, c, -, -, -, rfl⟩ := k
    exact effect_writeHalf _ s _ _ _ rfl (sameControl_refl s)
  · obtain ⟨x, -, c, -, -, -, -, -, rfl⟩ := k
    exact effect_writeBoth _ s _ _ rfl (sameControl_refl s)

theorem outcomes_demux (st : Strategy) (s t : State) (h : exec (.demux st) s = .next t) : Outcomes (.demux st) s t := by
  refine outcomes_conclude _ s t _ h (fun k => ?_)
  simp only [bind_eq_ok, pure_check, Except.ok.injEq] at k
  obtain ⟨table, ok, rfl⟩ := k
  obtain ⟨legal, rfl⟩ := (demuxChecks_ok st s table).1 ok
  exact effect_mem _ s _ rfl rfl ((wrote_inMem st s legal).mono (fun _ _ k => k.2) (fun _ k => k)) (sameControl_refl s)

/-- What a command can do, for every command. -/
theorem exec_cases (i : Instr) (s t : State) (h : exec i s = .next t) : Outcomes i s t := by
  have same : SameControlRegisters s (advance s) := sameControl_refl s
  cases i
  case dbnz => exact outcomes_dbnz _ _ s t h
  case csrw => exact outcomes_csrw _ _ s t h
  case vldg => exact outcomes_vldg _ _ _ _ _ s t h
  case vstq => exact outcomes_vstq _ _ _ _ s t h
  case vstw => exact outcomes_vstw _ _ _ _ s t h
  case permb => exact outcomes_permb _ _ _ _ s t h
  case demux => exact outcomes_demux _ s t h
  case vld => exact outcomes_conclude _ s t _ h (effect_loadVec _ _ _ _ _ _ s t rfl same)
  case vldu => exact outcomes_conclude _ s t _ h (effect_loadVec _ _ _ _ _ _ s t rfl same)
  case vst => exact outcomes_conclude _ s t _ h (effect_storeVec _ _ _ _ _ _ s t rfl rfl same)
  case vstu => exact outcomes_conclude _ s t _ h (effect_storeVec _ _ _ _ _ _ s t rfl rfl same)
  case vmov => exact outcomes_conclude _ s t _ h (effect_lanewise1 _ _ _ _ _ s t rfl same)
  case permd => exact outcomes_conclude _ s t _ h (effect_lanewise1 _ _ _ _ _ s t rfl same)
  case unpkld => exact outcomes_conclude _ s t _ h (effect_lanewise2 _ _ _ _ _ _ s t rfl same)
  case unpkhd => exact outcomes_conclude _ s t _ h (effect_lanewise2 _ _ _ _ _ _ s t rfl same)
  case unpklq => exact outcomes_conclude _ s t _ h (effect_lanewise2 _ _ _ _ _ _ s t rfl same)
  case unpkhq => exact outcomes_conclude _ s t _ h (effect_lanewise2 _ _ _ _ _ _ s t rfl same)
  case btrn4 => exact outcomes_conclude _ s t _ h (effect_lanewise1 _ _ _ _ _ s t rfl same)
  case vldq =>
    refine outcomes_conclude _ s t _ h (fun k => ?_)
    simp only [bind_eq_ok, pure_check, Except.ok.injEq] at k
    obtain ⟨x, -, -, -, rfl⟩ := k
    exact effect_writeHalf _ s _ _ _ rfl same
  case comb =>
    refine outcomes_conclude _ s t _ h (fun k => ?_)
    simp only [bind_eq_ok, pure_check, Except.ok.injEq] at k
    obtain ⟨x, -, y, -, rfl⟩ := k
    exact effect_writeBoth _ s _ _ rfl same
  case trn4d =>
    refine outcomes_conclude _ s t _ h (fun k => ?_)
    obtain ⟨-, -, k⟩ := (bind_eq_ok _ _ _).1 k
    exact effect_groupTranspose _ _ _ _ _ s t rfl same k
  case trn8b =>
    refine outcomes_conclude _ s t _ h (fun k => ?_)
    obtain ⟨-, -, k⟩ := (bind_eq_ok _ _ _).1 k
    exact effect_groupTranspose _ _ _ _ _ s t rfl same k
  case trn16b =>
    refine outcomes_conclude _ s t _ h (fun k => ?_)
    obtain ⟨-, -, k⟩ := (bind_eq_ok _ _ _).1 k
    exact effect_groupTranspose _ _ _ _ _ s t rfl same k
  case trn32b =>
    refine outcomes_conclude _ s t _ h (fun k => ?_)
    simp only [bind_eq_ok, pure_check, Except.ok.injEq] at k
    obtain ⟨x, -, rfl⟩ := k
    exact effect_writeGroups _ s _ _ _ _ rfl same
  all_goals exact outcomes_address _ s t h trivial

end Sys2Proof.Machine
end

