-- ==== Sys2Proof/Laws/PerInstr.lean ====
section
/-! SUPPORT. Per-instruction facts about the encoding: one lemma per command. -/

namespace Sys2Proof.Laws

/-! ### One lemma per format: masked with the format's fixed bits, its word is the opcode (30_encoding.md R92) -/

theorem encodeI24_row (op : BitVec 8) (imm : BitVec 24) : encodeI24 op imm &&& 0xFF000000#32 = encodeZ op := by
  simp only [encodeI24, encodeZ]
  apply BitVec.eq_of_getLsbD_eq
  intro i hi
  simp only [BitVec.getLsbD_and, BitVec.getLsbD_append]
  interval_cases i <;> simp

theorem encodeAI1_row (op : BitVec 8) (ad : AReg) (imm : BitVec 16) :
    encodeAI1 op ad imm &&& 0xFF1F0000#32 = encodeZ op := by
  simp only [encodeAI1, encodeZ]
  generalize aBits ad = x
  apply BitVec.eq_of_getLsbD_eq
  intro i hi
  simp only [BitVec.getLsbD_and, BitVec.getLsbD_append]
  interval_cases i <;> simp

theorem encodeAI2_row (op : BitVec 8) (ad ra : AReg) (imm : BitVec 16) :
    encodeAI2 op ad ra imm &&& 0xFF030000#32 = encodeZ op := by
  simp only [encodeAI2, encodeZ]
  generalize aBits ad = x
  generalize aBits ra = y
  apply BitVec.eq_of_getLsbD_eq
  intro i hi
  simp only [BitVec.getLsbD_and, BitVec.getLsbD_append]
  interval_cases i <;> simp

theorem encodeC_row (op : BitVec 8) (r : AReg) (csr : Csr) : encodeC op r csr &&& 0xFF1FFF00#32 = encodeZ op := by
  simp only [encodeC, encodeZ]
  generalize aBits r = x
  generalize BitVec.ofNat 8 csr.number = y
  apply BitVec.eq_of_getLsbD_eq
  intro i hi
  simp only [BitVec.getLsbD_and, BitVec.getLsbD_append]
  interval_cases i <;> simp

theorem encodeM_row (op : BitVec 8) (v : VReg) (ra : AReg) (sub : BitVec 4) (mask : BitVec 4) (imm : BitVec 12)
    (h : sub &&& mask = 0#4) :
    encodeM op v ra sub imm &&& (0xFF#8 ++ 0#8 ++ mask ++ 0#12 : BitVec (8 + 8 + 4 + 12)) = encodeZ op := by
  simp only [encodeM, encodeZ]
  apply BitVec.eq_of_getLsbD_eq
  intro i hi
  have bit : ∀ j (hj : j < 4), sub[j] = true → mask[j] = false := fun j hj e => by
    have both : (sub &&& mask)[j] = false := by rw [h]; simp
    rwa [BitVec.getElem_and, e, Bool.true_and] at both
  simp only [BitVec.getLsbD_and, BitVec.getLsbD_append]
  interval_cases i <;> simp <;> exact bit _ _

theorem encodeV_row (op : BitVec 8) (vd vs : VReg) (low mask : BitVec 14) (h : low &&& mask = 0#14) :
    encodeV op vd vs low &&& (0xFF#8 ++ 0#10 ++ mask : BitVec (8 + 10 + 14)) = encodeZ op := by
  simp only [encodeV, encodeZ]
  apply BitVec.eq_of_getLsbD_eq
  intro i hi
  have bit : ∀ j (hj : j < 14), low[j] = true → mask[j] = false := fun j hj e => by
    have both : (low &&& mask)[j] = false := by rw [h]; simp
    rwa [BitVec.getElem_and, e, Bool.true_and] at both
  simp only [BitVec.getLsbD_and, BitVec.getLsbD_append]
  interval_cases i <;> simp <;> exact bit _ _

namespace EncodeOpcode

/-- The word of a command, well formed or not, matches its own row of the opcode table: its opcode and its zero fields
are the row's (30_encoding.md R104). -/
def Statement (i : Instr) : Prop := encode i &&& i.row.mask = i.row.pattern

theorem nop : Statement .nop := by unfold Statement; decide

theorem halt : Statement .halt := by unfold Statement; decide

theorem abort (imm) : Statement (.abort imm) := encodeI24_row _ _

theorem jmp (imm) : Statement (.jmp imm) := encodeI24_row _ _

theorem dbnz (ad imm) : Statement (.dbnz ad imm) := encodeAI1_row _ _ _

theorem lai (ad imm) : Statement (.lai ad imm) := encodeAI1_row _ _ _

theorem lahi (ad imm) : Statement (.lahi ad imm) := encodeAI1_row _ _ _

theorem addai (ad ra imm) : Statement (.addai ad ra imm) := encodeAI2_row _ _ _ _

theorem adda (ad ra rb) : Statement (.adda ad ra rb) := by
  simp only [Statement, encode, Instr.row]
  generalize aBits ad = x
  generalize aBits ra = y
  generalize aBits rb = z
  apply BitVec.eq_of_getLsbD_eq
  intro i hi
  simp only [BitVec.getLsbD_and, BitVec.getLsbD_append]
  interval_cases i <;> simp

theorem lda (ad ra imm) : Statement (.lda ad ra imm) := encodeAI2_row _ _ _ _

theorem csrr (ad csr) : Statement (.csrr ad csr) := encodeC_row _ _ _

theorem csrw (ra csr) : Statement (.csrw ra csr) := encodeC_row _ _ _

theorem vld (vd ra w imm) : Statement (.vld vd ra w imm) := encodeM_row _ _ _ _ 0xE#4 _ (by cases w <;> decide)

theorem vldu (vd ra w imm) : Statement (.vldu vd ra w imm) := encodeM_row _ _ _ _ 0xE#4 _ (by cases w <;> decide)

theorem vst (vs ra w imm) : Statement (.vst vs ra w imm) := encodeM_row _ _ _ _ 0xE#4 _ (by cases w <;> decide)

theorem vstu (vs ra w imm) : Statement (.vstu vs ra w imm) := encodeM_row _ _ _ _ 0xE#4 _ (by cases w <;> decide)

theorem vldq (vd ra imm) : Statement (.vldq vd ra imm) := encodeM_row _ _ _ _ 0xF#4 _ (by decide)

theorem vstq (vs ra q imm) : Statement (.vstq vs ra q imm) := encodeM_row _ _ _ _ 0xC#4 _ (by revert q; decide)

theorem vstw (vs ra k imm) : Statement (.vstw vs ra k imm) := encodeM_row _ _ _ _ 0x8#4 _ (by revert k; decide)

theorem vldg (vd ra rt w imm) : Statement (.vldg vd ra rt w imm) := encodeM_row _ _ _ _ 0x0#4 _ (by simp)

theorem vmov (vd vs w) : Statement (.vmov vd vs w) := encodeV_row _ _ _ _ 0x3EFF#14 (by cases w <;> decide)

theorem permb (vd vs vc w) : Statement (.permb vd vs vc w) :=
  encodeV_row _ _ _ _ 0xFF#14 (by cases w <;> revert vc <;> decide)

theorem permd (vd vs w imm) : Statement (.permd vd vs w imm) :=
  encodeV_row _ _ _ _ 0x3E00#14 (by cases w <;> revert imm <;> decide)

theorem unpkld (vd va vb w) : Statement (.unpkld vd va vb w) :=
  encodeV_row _ _ _ _ 0xFF#14 (by cases w <;> revert vb <;> decide)

theorem unpkhd (vd va vb w) : Statement (.unpkhd vd va vb w) :=
  encodeV_row _ _ _ _ 0xFF#14 (by cases w <;> revert vb <;> decide)

theorem unpklq (vd va vb w) : Statement (.unpklq vd va vb w) :=
  encodeV_row _ _ _ _ 0xFF#14 (by cases w <;> revert vb <;> decide)

theorem unpkhq (vd va vb w) : Statement (.unpkhq vd va vb w) :=
  encodeV_row _ _ _ _ 0xFF#14 (by cases w <;> revert vb <;> decide)

theorem comb (vd va vb sa sb) : Statement (.comb vd va vb sa sb) :=
  encodeV_row _ _ _ _ 0x1FC#14 (by cases sa <;> cases sb <;> revert vb <;> decide)

theorem btrn4 (vd vs w) : Statement (.btrn4 vd vs w) := encodeV_row _ _ _ _ 0x3EFF#14 (by cases w <;> decide)

theorem trn4d (vd vs ds ss w) : Statement (.trn4d vd vs ds ss w) :=
  encodeV_row _ _ _ _ 0x2FF#14 (by cases w <;> revert ds ss <;> decide)

theorem trn8b (vd vs) : Statement (.trn8b vd vs) := encodeV_row _ _ _ _ 0x3FFF#14 (by decide)

theorem trn16b (vd vs w) : Statement (.trn16b vd vs w) := encodeV_row _ _ _ _ 0x3EFF#14 (by cases w <;> decide)

theorem trn32b : Statement .trn32b := by unfold Statement; decide

theorem demux (strat) : Statement (.demux strat) := by
  cases strat <;> (unfold Statement; decide)

end EncodeOpcode

end Sys2Proof.Laws
end

