-- ==== Sys2Proof/Laws/Step.lean ====
section
/-! SUPPORT. What a fetch, a move of the host and a step can do, each said once. -/

namespace Sys2Proof.Machine

/-! ### Command fetch (60_exceptions.md R301, R308) -/

/-- The word a fetch answers is the word at pc. -/
theorem fetchedWord_eq (s : State) : s.mem.load 32 s.pc.toNat = fetchedWord s := by
  apply eq_of_byteOf (by decide)
  intro i hi
  rw [byteOf_load _ _ _ _ hi]
  have i4 : i < 4 := hi
  unfold fetchedWord wordOfBytes readByte
  apply BitVec.eq_of_getLsbD_eq
  intro k hk
  rw [getLsbD_byteOf]
  simp only [hk, decide_true, Bool.true_and, BitVec.getLsbD_append]
  interval_cases i
  · rw [if_pos (by omega), Nat.mul_zero, Nat.zero_add, Nat.add_zero]
  · rw [if_neg (by omega), if_pos (by omega)]
    congr 1
    omega
  · rw [if_neg (by omega), if_neg (by omega), if_pos (by omega)]
    congr 1
    omega
  · rw [if_neg (by omega), if_neg (by omega), if_neg (by omega)]
    congr 1
    omega

theorem fetch_misaligned (s : State) (h : s.pc.toNat % 4 ≠ 0) : fetch s = .error ⟨.fetchMisaligned, s.pc⟩ := by
  simp [fetch, h]

theorem fetch_missing (s : State) (h : s.pc.toNat % 4 = 0) (hm : ∃ k < 4, inMem s (s.pc.toNat + k) = false) :
    fetch s = .error ⟨.fetchAccess, s.pc⟩ := by
  have none : firstMissing s s.pc.toNat 4 ≠ none := by
    rw [ne_eq, firstMissing_none]
    obtain ⟨k, hk, e⟩ := hm
    intro all
    rw [all k hk] at e
    simp at e
  have ⟨x, hx⟩ := Option.ne_none_iff_exists'.1 none
  unfold fetch
  rw [if_neg (by omega), hx]
  split <;> rfl

theorem fetch_ok (s : State) (h : Fetchable s) : fetch s = .ok (fetchedWord s) := by
  have all := (firstMissing_none s s.pc.toNat 4).2 h.2
  have top : ¬ s.pc.toNat + 4 > Config.addressSpace := by
    have := s.pc.isLt
    have := h.1
    simp only [Config.addressSpace]
    omega
  simp [fetch, h.1, top, all, fetchedWord_eq]

/-- A fetch answers the word at pc, or raises a fault with FINFO = pc. -/
theorem fetch_cases (s : State) : (Fetchable s ∧ fetch s = .ok (fetchedWord s)) ∨ ∃ f, fetch s = .error f := by
  by_cases h : s.pc.toNat % 4 = 0
  · by_cases k : ∀ k < 4, inMem s (s.pc.toNat + k) = true
    · exact .inl ⟨⟨h, k⟩, fetch_ok s ⟨h, k⟩⟩
    · simp only [not_forall, Bool.not_eq_true] at k
      obtain ⟨j, hj, e⟩ := k
      exact .inr ⟨_, fetch_missing s h ⟨j, hj, e⟩⟩
  · exact .inr ⟨_, fetch_misaligned s h⟩

/-! ### The engine's turn -/

theorem runCommand_decoded (s : State) (i : Instr) (h : Fetchable s) (hd : decode (fetchedWord s) = .ok i) :
    runCommand s = exec i s := by
  simp [runCommand, fetch_ok s h, hd]

theorem runCommand_illegal (s : State) (e : DecodeError) (h : Fetchable s) (hd : decode (fetchedWord s) = .error e) :
    runCommand s = .next (takeFault s ⟨.illegalCommand, fetchedWord s⟩) := by
  simp [runCommand, fetch_ok s h, hd]

theorem runCommand_unfetched (s : State) (f : Raised) (h : fetch s = .error f) : runCommand s = .next (takeFault s f) := by
  simp [runCommand, h]

/-- The engine in RUN faults at its fetch or decode, or executes the command at pc. -/
theorem runCommand_cases (s t : State) (h : runCommand s = .next t) :
    (∃ f, t = takeFault s f) ∨ ∃ i, Fetchable s ∧ decode (fetchedWord s) = .ok i ∧ exec i s = .next t := by
  rcases fetch_cases s with ⟨hf, -⟩ | ⟨f, hf⟩
  · cases hd : decode (fetchedWord s) with
    | ok i => exact .inr ⟨i, hf, rfl, by rwa [runCommand_decoded s i hf hd] at h⟩
    | error e =>
      rw [runCommand_illegal s e hf hd] at h
      injection h with h
      exact .inl ⟨_, h.symm⟩
  · rw [runCommand_unfetched s f hf] at h
    injection h with h
    exact .inl ⟨f, h.symm⟩

theorem engineStep_run (s : State) (h : s.status = .run) : engineStep s = runCommand s := by simp [engineStep, h]

theorem engineStep_idle (s : State) (h : s.status ≠ .run) : engineStep s = .next s := by simp [engineStep, h]

/-! ### The host's turn -/

/-- What a move of the host that answers a next state may do: nothing, a reset, an accepted GO, a store in a read-write
control register in IDLE or DONE, or bytes of memory in MEM outside RUN (70_reset_and_hazards.md R336, R339). -/
def HostOutcomes (m : HostMove) (s t : State) : Prop :=
  t = s ∨ (IsResetTurn (.host m) ∧ t = resetEngine s) ∨ (IsGo s (.host m) ∧ t = launch s) ∨
    (∃ c v, (s.status = .idle ∨ s.status = .done) ∧ c.writable = true ∧ t = writeCsr s v c) ∨
    ∃ a bytes, s.status ≠ .run ∧ (∀ k < bytes.length, inMem s (a + k) = true) ∧
      t = { s with mem := s.mem.writeBytes a bytes }

/-- A host memory move answers a next state outside RUN and inside MEM only. -/
theorem hostMemory_next (s t u : State) (a count : Nat) (h : hostMemory s a count u = .next t) :
    s.status ≠ .run ∧ (∀ k < count, inMem s (a + k) = true) ∧ t = u := by
  unfold hostMemory at h
  split at h
  · simp at h
  · rename_i hr
    cases hm : firstMissing s a count with
    | some x => simp [hm] at h
    | none =>
      rw [hm] at h
      injection h with h
      exact ⟨hr, (firstMissing_none s a count).1 hm, h.symm⟩

theorem hostMayWrite_iff (s : State) : hostMayWrite s = true ↔ s.status = .idle ∨ s.status = .done := by
  simp [hostMayWrite]

/-- A store in a read-write control register happens in IDLE and DONE only (10_state.md R30 (c)). -/
theorem hostStore_outcomes (m : HostMove) (s : State) (v : Word) (c : Csr) (hc : c.writable = true) :
    HostOutcomes m s (hostStore s (writeCsr s v c)) := by
  unfold hostStore
  split
  · rename_i hw
    exact .inr (.inr (.inr (.inl ⟨c, v, (hostMayWrite_iff s).1 hw, hc, rfl⟩)))
  · exact .inl rfl

/-- A host write of CTRL (10_state.md R32). -/
theorem hostWriteCtrl_outcomes (s : State) (v : Word) : HostOutcomes (.writeRegister 1 v) s (hostWriteCtrl s v) := by
  unfold hostWriteCtrl
  split
  · rename_i h1
    exact .inr (.inl ⟨.inr ⟨v, rfl, h1⟩, rfl⟩)
  · rename_i h1
    split
    · rename_i h0
      simp only [Bool.and_eq_true] at h0
      exact .inr (.inr (.inl ⟨⟨v, rfl, by simpa using h1, h0.1, (hostMayWrite_iff s).1 h0.2⟩, rfl⟩))
    · exact .inl rfl

theorem ofNumber_ctrl (k : Nat) (h : Csr.ofNumber k = some .ctrl) : k = 1 := by
  unfold Csr.ofNumber at h
  split at h <;> simp_all

theorem hostStep_cases (m : HostMove) (s t : State) (h : hostStep m s = .next t) : HostOutcomes m s t := by
  cases m with
  | readRegister k => exact .inl (by simpa [hostStep] using h.symm)
  | assertReset => exact .inr (.inl ⟨.inl rfl, by simpa [hostStep] using h.symm⟩)
  | readMemory a count => exact .inl (hostMemory_next s t s a count h).2.2
  | writeMemory a bytes =>
    obtain ⟨h1, h2, h3⟩ := hostMemory_next _ _ _ _ _ h
    exact .inr (.inr (.inr (.inr ⟨a, bytes, h1, h2, h3⟩)))
  | writeRegister k v =>
    have e : t = hostWriteRegister s k v := by simpa [hostStep] using h.symm
    subst e
    cases hk : Csr.ofNumber k with
    | none => exact .inl (by simp [hostWriteRegister, hk])
    | some c =>
      cases c
      case ctrl =>
        obtain rfl := ofNumber_ctrl k hk
        exact hostWriteCtrl_outcomes s v
      case entry => simpa [hostWriteRegister, hk, writeCsr] using hostStore_outcomes (.writeRegister k v) s v .entry rfl
      case src => simpa [hostWriteRegister, hk, writeCsr] using hostStore_outcomes (.writeRegister k v) s v .src rfl
      case len => simpa [hostWriteRegister, hk, writeCsr] using hostStore_outcomes (.writeRegister k v) s v .len rfl
      case dstp => simpa [hostWriteRegister, hk, writeCsr] using hostStore_outcomes (.writeRegister k v) s v .dstp rfl
      case n => simpa [hostWriteRegister, hk, writeCsr] using hostStore_outcomes (.writeRegister k v) s v .n rfl
      case l => simpa [hostWriteRegister, hk, writeCsr] using hostStore_outcomes (.writeRegister k v) s v .l rfl
      all_goals exact .inl (by simp [hostWriteRegister, hk])

/-! ### The step -/

theorem step_engine (s : State) (h : nextTurn s = .engine) : step s = engineStep { s with turns := s.turns.tail } := by
  unfold step
  cases ht : s.turns with
  | nil =>
    have e : ({ s with turns := List.tail [] } : State) = s := by
      simp only [List.tail_nil]
      rw [← ht]
    exact congrArg engineStep e.symm
  | cons t rest =>
    have : t = .engine := by simpa [nextTurn, ht] using h
    subst this
    rfl

theorem step_host (s : State) (m : HostMove) (h : nextTurn s = .host m) :
    step s = hostStep m { s with turns := s.turns.tail } := by
  unfold step
  cases ht : s.turns with
  | nil => simp [nextTurn, ht] at h
  | cons t rest =>
    have : t = .host m := by simpa [nextTurn, ht] using h
    subst this
    rfl

/-- What a step that answers a next state does; u is the state without the turn taken. -/
theorem step_cases (s t : State) (h : step s = .next t) :
    let u : State := { s with turns := s.turns.tail }
    (nextTurn s = .engine ∧ s.status ≠ .run ∧ t = u) ∨
      (nextTurn s = .engine ∧ s.status = .run ∧ ((∃ f, t = takeFault u f) ∨
        ∃ i, Fetchable s ∧ decode (fetchedWord s) = .ok i ∧ exec i u = .next t)) ∨
      ∃ m, nextTurn s = .host m ∧ hostStep m u = .next t := by
  intro u
  cases ht : nextTurn s with
  | host m => exact .inr (.inr ⟨m, rfl, by rwa [step_host s m ht] at h⟩)
  | engine =>
    rw [step_engine s ht] at h
    by_cases hr : s.status = .run
    · rw [engineStep_run _ (show u.status = .run from hr)] at h
      exact .inr (.inl ⟨rfl, hr, runCommand_cases u t h⟩)
    · rw [engineStep_idle _ (show u.status ≠ .run from hr)] at h
      injection h with h
      exact .inl ⟨rfl, hr, h.symm⟩

/-! ### Launch (10_state.md R27, R32) -/

theorem valid_invalidate (s : State) : NoValidBits (invalidate s) := by
  refine ⟨fun i => ?_, fun n h => ?_⟩
  · simp [invalidate]
  · cases h <;> simp [invalidate, half]

/-! ### Runs -/

/-- A run of k + 1 steps is the step, then a run of k steps where it answers a next state. -/
theorem run_next (k : Nat) (s u : State) (h : step s = .next u) :
    Host.Core.run Sys2Proof.core (k + 1) s = Host.Core.run Sys2Proof.core k u :=
  (Host.Core.run.eq_2 Sys2Proof.core s k).trans (by rw [show Sys2Proof.core.step s = .next u from h])

theorem run_fault (k : Nat) (s : State) (f : Fault) (h : step s = .fault f) :
    Host.Core.run Sys2Proof.core (k + 1) s = .fault f :=
  (Host.Core.run.eq_2 Sys2Proof.core s k).trans (by rw [show Sys2Proof.core.step s = .fault f from h])

theorem run_refused (k : Nat) (s : State) (r : Refusal) (h : step s = .refused r) :
    Host.Core.run Sys2Proof.core (k + 1) s = .refused r :=
  (Host.Core.run.eq_2 Sys2Proof.core s k).trans (by rw [show Sys2Proof.core.step s = .refused r from h])

end Sys2Proof.Machine
end

