-- ==== Sys2Proof/Tests/Slice0.lean ====
section
/-! SUPPORT. Tests: ill-formed terms, decoding, one-step tests and the witnesses of the statements' hypotheses. The words
and the expected results are those of spec/95_test_vectors.md, named by their identifiers there, or are computed by hand
from the rules. -/

namespace Sys2Proof.Tests

open Sys2Proof.Machine

/-! ### Helpers -/

/-- Bytes from their numbers. -/
def bytes (bs : List Nat) : List Byte := bs.map (BitVec.ofNat 8)

/-- A half from its 16 bytes, byte lane 0 first. -/
def h16 (bs : List Nat) : Half := ofBytes 128 (bytes bs)

/-- `count` bytes from `a` up, `d` apart. -/
def seq (a count : Nat) (d : Nat := 1) : List Nat := (List.range count).map (fun i => a + d * i)

/-- MEM of the vectors: 0x0000 to 0x3FFF. -/
def idle : State := { State.reset with populated := [⟨0, 0x4000⟩] }

/-- The state of the vectors: RUN, pc at 0x100. -/
def base : State := { idle with status := .run, pc := 0x100#32 }

/-- Bytes placed in memory. -/
def poke (a : Nat) (bs : List Nat) (s : State) : State := { s with mem := s.mem.writeBytes a (bytes bs) }

/-- A low half written. -/
def lo (n : VReg) (bs : List Nat) (s : State) : State := writeHalf s n .h0 (h16 bs)

/-- A high half written. -/
def hi (n : VReg) (bs : List Nat) (s : State) : State := writeHalf s n .h1 (h16 bs)

/-- An address register written. -/
def setA (i : AReg) (v : Nat) (s : State) : State := writeA s i (BitVec.ofNat 32 v)

/-- The outcome is a next state that passes a check. -/
def good (r : Result) (check : State → Bool) : Bool :=
  match r with
  | .next t => check t
  | .fault _ => false
  | .refused _ => false

/-- The state an outcome answers; a state with STATE = FAULT and CAUSE = 0, which no step answers, where it stops. -/
def after (r : Result) : State :=
  match r with
  | .next t => t
  | .fault _ => { State.reset with status := .fault }
  | .refused _ => { State.reset with status := .fault }

/-- The word is placed, fetched, decoded and executed from `s`, and the next state passes the check. -/
def runs (w : Nat) (s : State) (check : State → Bool) : Bool := good (step (s.withFetchWord 32 w)) check

/-- The word faults at pc 0x100 with that CAUSE and FINFO. -/
def faultsAs (w : Nat) (s : State) (cause info : Nat) : Bool :=
  runs w s (fun t => t.status == .fault && t.cause.toNat == cause && t.fpc == 0x100#32 && t.finfo.toNat == info)

/-- A low half is valid and holds these bytes. -/
def isLo (t : State) (n : VReg) (bs : List Nat) : Bool := t.vlo[n] == ⟨h16 bs, true⟩

/-- A high half is valid and holds these bytes. -/
def isHi (t : State) (n : VReg) (bs : List Nat) : Bool := t.vhi[n] == ⟨h16 bs, true⟩

/-- An address register is valid and holds this value. -/
def isA (t : State) (i : AReg) (v : Nat) : Bool := t.a[i] == ⟨BitVec.ofNat 32 v, true⟩

/-- Memory reads these bytes. -/
def isMem (t : State) (a : Nat) (bs : List Nat) : Bool := t.mem.readBytes a bs.length == bytes bs

/-- The term is not well formed, the word holds its fields, and the decoder refuses the word. -/
def illFormed (i : Instr) (w : Word) : Bool :=
  !i.wellFormed && encode i == w && (decodeTableWord 32 w.toNat).isNone

/-! ### Ill-formed terms: one for each check (WellFormed) -/

theorem test_illformed_csrw_id : illFormed (.csrw 7 .id) 0x16E00000#32 = true := by decide

theorem test_illformed_csrw_ctrl : illFormed (.csrw 7 .ctrl) 0x16E00001#32 = true := by decide

theorem test_illformed_csrw_status : illFormed (.csrw 7 .status) 0x16E00002#32 = true := by decide

theorem test_illformed_csrw_cause : illFormed (.csrw 7 .cause) 0x16E00003#32 = true := by decide

theorem test_illformed_csrw_fpc : illFormed (.csrw 7 .fpc) 0x16E00004#32 = true := by decide

theorem test_illformed_csrw_finfo : illFormed (.csrw 7 .finfo) 0x16E00005#32 = true := by decide

theorem test_illformed_csrw_pc : illFormed (.csrw 7 .pc) 0x16E00007#32 = true := by decide

theorem test_illformed_trn4d_vd : illFormed (.trn4d 29 0 0 0 .w128) 0x41E80000#32 = true := by decide

theorem test_illformed_trn4d_vs : illFormed (.trn4d 0 29 0 0 .w128) 0x41074000#32 = true := by decide

theorem test_illformed_trn4d_stride : illFormed (.trn4d 8 0 3 0 .w128) 0x41403000#32 = true := by decide

theorem test_illformed_trn8b_vd : illFormed (.trn8b 25 0) 0x42C80000#32 = true := by decide

theorem test_illformed_trn8b_vs : illFormed (.trn8b 0 25) 0x42064000#32 = true := by decide

theorem test_illformed_trn16b_vd : illFormed (.trn16b 17 0 .w128) 0x43880000#32 = true := by decide

theorem test_illformed_trn16b_vs : illFormed (.trn16b 0 17 .w128) 0x43044000#32 = true := by decide

/-! ### Decoding: the words of spec/95_test_vectors.md 2.1 -/

theorem test_decode_nop : decodeTableWord 32 0x01000000 = some (.nop) ∧ encode (.nop) = 0x01000000#32 := by decide

theorem test_decode_halt : decodeTableWord 32 0x02000000 = some (.halt) ∧ encode (.halt) = 0x02000000#32 := by decide

theorem test_decode_abort : decodeTableWord 32 0x03001234 = some (.abort 0x1234#24) ∧ encode (.abort 0x1234#24) = 0x03001234#32 := by decide

theorem test_decode_jmp : decodeTableWord 32 0x04FFFFFE = some (.jmp 0xFFFFFE#24) ∧ encode (.jmp 0xFFFFFE#24) = 0x04FFFFFE#32 := by decide

theorem test_decode_dbnz : decodeTableWord 32 0x0560FFFC = some (.dbnz 3 0xFFFC#16) ∧ encode (.dbnz 3 0xFFFC#16) = 0x0560FFFC#32 := by decide

theorem test_decode_lai : decodeTableWord 32 0x10208000 = some (.lai 1 0x8000#16) ∧ encode (.lai 1 0x8000#16) = 0x10208000#32 := by decide

theorem test_decode_lahi : decodeTableWord 32 0x11200001 = some (.lahi 1 1#16) ∧ encode (.lahi 1 1#16) = 0x11200001#32 := by decide

theorem test_decode_addai : decodeTableWord 32 0x1244FFE0 = some (.addai 2 1 0xFFE0#16) ∧ encode (.addai 2 1 0xFFE0#16) = 0x1244FFE0#32 := by decide

theorem test_decode_adda : decodeTableWord 32 0x13898000 = some (.adda 4 2 3) ∧ encode (.adda 4 2 3) = 0x13898000#32 := by decide

theorem test_decode_lda : decodeTableWord 32 0x14B80008 = some (.lda 5 6 8#16) ∧ encode (.lda 5 6 8#16) = 0x14B80008#32 := by decide

theorem test_decode_csrr : decodeTableWord 32 0x15000008 = some (.csrr 0 .src) ∧ encode (.csrr 0 .src) = 0x15000008#32 := by decide

theorem test_decode_csrw : decodeTableWord 32 0x16E0000B = some (.csrw 7 .n) ∧ encode (.csrw 7 .n) = 0x16E0000B#32 := by decide

theorem test_decode_vld : decodeTableWord 32 0x20191FE0 = some (.vld 3 1 .w256 0xFE0#12) ∧ encode (.vld 3 1 .w256 0xFE0#12) = 0x20191FE0#32 := by decide

theorem test_decode_vldu : decodeTableWord 32 0x21020001 = some (.vldu 0 2 .w128 1#12) ∧ encode (.vldu 0 2 .w128 1#12) = 0x21020001#32 := by decide

theorem test_decode_vst : decodeTableWord 32 0x228C1020 = some (.vst 17 4 .w256 32#12) ∧ encode (.vst 17 4 .w256 32#12) = 0x228C1020#32 := by decide

theorem test_decode_vstu : decodeTableWord 32 0x234C1003 = some (.vstu 9 4 .w256 3#12) ∧ encode (.vstu 9 4 .w256 3#12) = 0x234C1003#32 := by decide

theorem test_decode_vldq : decodeTableWord 32 0x24110008 = some (.vldq 2 1 8#12) ∧ encode (.vldq 2 1 8#12) = 0x24110008#32 := by decide

theorem test_decode_vstq : decodeTableWord 32 0x25133018 = some (.vstq 2 3 3 24#12) ∧ encode (.vstq 2 3 3 24#12) = 0x25133018#32 := by decide

theorem test_decode_vstw : decodeTableWord 32 0x260A7FFC = some (.vstw 1 2 7 0xFFC#12) ∧ encode (.vstw 1 2 7 0xFFC#12) = 0x260A7FFC#32 := by decide

theorem test_decode_vldg : decodeTableWord 32 0x27215004 = some (.vldg 4 1 2 .w256 4#12) ∧ encode (.vldg 4 1 2 .w256 4#12) = 0x27215004#32 := by decide

theorem test_decode_vmov : decodeTableWord 32 0x30F80100 = some (.vmov 31 0 .w256) ∧ encode (.vmov 31 0 .w256) = 0x30F80100#32 := by decide

theorem test_decode_permb : decodeTableWord 32 0x31080400 = some (.permb 1 0 2 .w128) ∧ encode (.permb 1 0 2 .w128) = 0x31080400#32 := by decide

theorem test_decode_permd : decodeTableWord 32 0x320801E4 = some (.permd 1 0 .w256 0xE4#8) ∧ encode (.permd 1 0 .w256 0xE4#8) = 0x320801E4#32 := by decide

theorem test_decode_unpkld : decodeTableWord 32 0x33200200 = some (.unpkld 4 0 1 .w128) ∧ encode (.unpkld 4 0 1 .w128) = 0x33200200#32 := by decide

theorem test_decode_unpkhd : decodeTableWord 32 0x34280200 = some (.unpkhd 5 0 1 .w128) ∧ encode (.unpkhd 5 0 1 .w128) = 0x34280200#32 := by decide

theorem test_decode_unpklq : decodeTableWord 32 0x35310A00 = some (.unpklq 6 4 5 .w128) ∧ encode (.unpklq 6 4 5 .w128) = 0x35310A00#32 := by decide

theorem test_decode_unpkhq : decodeTableWord 32 0x36390B00 = some (.unpkhq 7 4 5 .w256) ∧ encode (.unpkhq 7 4 5 .w256) = 0x36390B00#32 := by decide

theorem test_decode_comb : decodeTableWord 32 0x37184401 = some (.comb 3 1 2 .h1 .h0) ∧ encode (.comb 3 1 2 .h1 .h0) = 0x37184401#32 := by decide

theorem test_decode_btrn4 : decodeTableWord 32 0x40080100 = some (.btrn4 1 0 .w256) ∧ encode (.btrn4 1 0 .w256) = 0x40080100#32 := by decide

theorem test_decode_trn4d : decodeTableWord 32 0x41040800 = some (.trn4d 0 16 0 2 .w128) ∧ encode (.trn4d 0 16 0 2 .w128) = 0x41040800#32 := by decide

theorem test_decode_trn8b : decodeTableWord 32 0x42C60000 = some (.trn8b 24 24) ∧ encode (.trn8b 24 24) = 0x42C60000#32 := by decide

theorem test_decode_trn16b : decodeTableWord 32 0x43000100 = some (.trn16b 0 0 .w256) ∧ encode (.trn16b 0 0 .w256) = 0x43000100#32 := by decide

theorem test_decode_trn32b : decodeTableWord 32 0x44000000 = some (.trn32b) ∧ encode (.trn32b) = 0x44000000#32 := by decide

theorem test_decode_demux : decodeTableWord 32 0x50000009 = some (.demux .x16) ∧ encode (.demux .x16) = 0x50000009#32 := by decide

/-- Unassigned opcodes, and format Z. -/
theorem test_decode_refuses_opcodes :
    ([0, 0xFFFFFFFF, 0x06000000, 0x17000000, 0x28000000, 0x38000000, 0x45000000, 0x51000000, 0x01000001].all
      (fun w => (decodeTableWord 32 w).isNone)) = true := by decide

/-- Zero fields that are not zero. -/
theorem test_decode_refuses_zero_fields_a :
    ([0x05610000, 0x10240000, 0x11210000, 0x12450040, 0x14BA0008, 0x13898001, 0x15000108, 0x15100008, 0x20192010].all
      (fun w => (decodeTableWord 32 w).isNone)) = true := by decide

/-- Zero fields that are not zero. -/
theorem test_decode_refuses_zero_fields_b :
    ([0x24111008, 0x25134000, 0x260A8004, 0x30088200, 0x31080401, 0x32080A1B, 0x37002100, 0x41200200, 0x43801000].all
      (fun w => (decodeTableWord 32 w).isNone)) = true := by decide

/-- Numbers that name nothing: control register 13, strategies 14 and 15. -/
theorem test_decode_refuses_numbers :
    ([0x1500000D, 0x5000000E, 0x5000000F, 0x50000010, 0x50800000].all
      (fun w => (decodeTableWord 32 w).isNone)) = true := by decide

/-! ### One step of each command: the vectors T-* of spec/95_test_vectors.md 2.2 to 2.7 -/

theorem test_nop :
    runs 0x01000000 (base)
      (fun t => t == { (base.withFetchWord 32 0x01000000) with pc := 0x104#32 }) = true := by decide

theorem test_halt :
    runs 0x02000000 (base)
      (fun t => t == { (base.withFetchWord 32 0x02000000) with status := .done }) = true := by decide

theorem test_abort : faultsAs 0x03FFFFFF (base) 12 0xFFFFFF = true := by decide

theorem test_jmp_back :
    runs 0x04FFFFFE ({ base with pc := 0x120#32 })
      (fun t => t.pc == 0x118#32) = true := by decide

theorem test_jmp_wraps :
    runs 0x04FFFFFF ({ base with pc := 0#32 })
      (fun t => t.pc == 0xFFFFFFFC#32) = true := by decide

theorem test_dbnz_zero_wraps :
    runs 0x0560FFFC (setA 3 0 { base with pc := 0x130#32 })
      (fun t => isA t 3 0xFFFFFFFF && t.pc == 0x120#32) = true := by decide

theorem test_dbnz_falls_through :
    runs 0x0560FFFC (setA 3 1 { base with pc := 0x130#32 })
      (fun t => isA t 3 0 && t.pc == 0x134#32) = true := by decide

theorem test_lai_zero_extends :
    runs 0x10208000 (base)
      (fun t => isA t 1 0x8000 && t.pc == 0x104#32) = true := by decide

theorem test_lahi_keeps_low :
    runs 0x1140FFFF (setA 2 0x12345678 base)
      (fun t => isA t 2 0xFFFF5678 && t.pc == 0x104#32) = true := by decide

theorem test_addai_negative :
    runs 0x1244FFE0 (setA 1 0x2000 base)
      (fun t => isA t 2 0x1FE0 && t.pc == 0x104#32) = true := by decide

theorem test_addai_invalid : faultsAs 0x12440040 (base) 4 0x41 = true := by decide

theorem test_adda_same_register :
    runs 0x13248000 (setA 1 0x80000001 base)
      (fun t => isA t 1 2 && t.pc == 0x104#32) = true := by decide

theorem test_adda_second_invalid : faultsAs 0x13898000 (setA 2 0x1000 base) 4 0x43 = true := by decide

theorem test_lda_wraps :
    runs 0x14B80008 (setA 6 0xFFFFFFFC (poke 4 [1, 2, 3, 4] base))
      (fun t => isA t 5 0x04030201 && t.pc == 0x104#32) = true := by decide

theorem test_lda_misaligned : faultsAs 0x14B80006 (setA 6 0x1000 base) 6 0x1006 = true := by decide

theorem test_csrr_pc :
    runs 0x15400007 ({ base with pc := 0x140#32 })
      (fun t => isA t 2 0x140 && t.pc == 0x144#32) = true := by decide

theorem test_csrr_status :
    runs 0x15400002 (base)
      (fun t => isA t 2 1 && t.pc == 0x104#32) = true := by decide

theorem test_csrw_n :
    runs 0x16E0000B (setA 7 0xDEADBEE0 base)
      (fun t => t.n == 0xDEADBEE0#32 && t.l == 0#32 && t.pc == 0x104#32) = true := by decide

theorem test_csrw_invalid : faultsAs 0x16E0000B (base) 4 0x47 = true := by decide

theorem test_vld_upper_half_kept :
    runs 0x20190010 (setA 1 0x1000 (poke 0x1010 (seq 1 16) (hi 3 (seq 0xB0 16) base)))
      (fun t => isLo t 3 (seq 1 16) && isHi t 3 (seq 0xB0 16) && t.pc == 0x104#32) = true := by decide

theorem test_vld_256_alignment : faultsAs 0x20191000 (setA 1 0x1010 base) 6 0x1010 = true := by decide

theorem test_vldu_256 :
    runs 0x21021001 (setA 2 0x1000 (poke 0x1001 (seq 1 32) base))
      (fun t => isLo t 0 (seq 1 16) && isHi t 0 (seq 17 16) && t.pc == 0x104#32) = true := by decide

theorem test_vldu_out_of_mem : faultsAs 0x21020000 (setA 2 0x3FF8 base) 7 0x4000 = true := by decide

theorem test_vst_256 :
    runs 0x228C1020 (setA 4 0x1800 (lo 17 (seq 0x40 16) (hi 17 (seq 0x50 16) base)))
      (fun t => isMem t 0x181F ([0] ++ seq 0x40 32 ++ [0]) && t.pc == 0x104#32) = true := by decide

theorem test_vst_upper_half_invalid : faultsAs 0x228C1020 (setA 4 0x1800 (lo 17 (seq 0x40 16) base)) 4 0x31 = true := by decide

theorem test_vstu_256 :
    runs 0x234C1003 (setA 4 0x1800 (lo 9 (seq 0x40 16) (hi 9 (seq 0x50 16) base)))
      (fun t => isMem t 0x1802 ([0] ++ seq 0x40 32 ++ [0]) && t.pc == 0x104#32) = true := by decide

theorem test_vstu_out_of_mem : faultsAs 0x234C0000 (setA 4 0x3FF8 (lo 9 (seq 0x40 16) base)) 7 0x4000 = true := by decide

theorem test_vldq_zeroes_upper :
    runs 0x24110008 (setA 1 0xFFFFFFF8 (poke 0 (seq 0xE0 8) (lo 2 (seq 0xAA 16 0) base)))
      (fun t => isLo t 2 (seq 0xE0 8 ++ seq 0 8 0) && t.pc == 0x104#32) = true := by decide

theorem test_vldq_misaligned : faultsAs 0x24110008 (setA 1 0x1004 base) 6 0x100C = true := by decide

theorem test_vstq_lane_3 :
    runs 0x25133018 (setA 3 0x1800 (hi 2 (seq 0x50 16) base))
      (fun t => isMem t 0x1817 ([0] ++ seq 0x58 8 ++ [0]) && t.pc == 0x104#32) = true := by decide

theorem test_vstq_half_invalid : faultsAs 0x25133018 (setA 3 0x1800 (lo 2 (seq 0x40 16) base)) 4 0x22 = true := by decide

theorem test_vstw_lane_7 :
    runs 0x260A7FFC (setA 2 0x1810 (hi 1 (seq 0x50 16) base))
      (fun t => isMem t 0x180B ([0] ++ seq 0x5C 4 ++ [0]) && t.pc == 0x104#32) = true := by decide

theorem test_vstw_misaligned : faultsAs 0x260A0000 (setA 2 0x1802 (lo 1 (seq 0x40 16) base)) 6 0x1802 = true := by decide

theorem test_vldg_stride_minus_4 :
    runs 0x27014000 (setA 1 0x1010 (setA 2 0xFFFFFFFC (poke 0x1004 (seq 4 16) base)))
      (fun t => isLo t 0 (seq 0x10 4 ++ seq 0xC 4 ++ seq 8 4 ++ seq 4 4) && t.pc == 0x104#32) = true := by decide

theorem test_vldg_second_element : faultsAs 0x27014000 (setA 1 0x1000 (setA 2 6 base)) 6 0x1006 = true := by decide

theorem test_vmov_128_keeps_upper :
    runs 0x30088000 (lo 2 (seq 0 16) (hi 2 (seq 16 16) (hi 1 (seq 0x90 16) base)))
      (fun t => isLo t 1 (seq 0 16) && isHi t 1 (seq 0x90 16) && t.pc == 0x104#32) = true := by decide

theorem test_vmov_256_invalid : faultsAs 0x30F80100 (lo 0 (seq 0 16) base) 4 0x20 = true := by decide

theorem test_permb_reverse :
    runs 0x31080400 (lo 0 (seq 0x80 16) (lo 2 (seq 0 16).reverse base))
      (fun t => isLo t 1 (seq 0x80 16).reverse && t.pc == 0x104#32) = true := by decide

theorem test_permb_high_control : faultsAs 0x31080500 (lo 0 (seq 0 16) (lo 2 (seq 0 16) (hi 0 (seq 0 16) (hi 2 ((seq 0 16).set 3 16) base)))) 5 0x13 = true := by decide

theorem test_permd_1b :
    runs 0x3208001B (lo 0 (seq 0 16) base)
      (fun t => isLo t 1 (seq 12 4 ++ seq 8 4 ++ seq 4 4 ++ seq 0 4) && t.pc == 0x104#32) = true := by decide

theorem test_unpkld :
    runs 0x33200200 (lo 0 (seq 0 16) (lo 1 (seq 0x80 16) base))
      (fun t => isLo t 4 (seq 0 4 ++ seq 0x80 4 ++ seq 4 4 ++ seq 0x84 4) && t.pc == 0x104#32) = true := by decide

theorem test_unpkhd :
    runs 0x34280200 (lo 0 (seq 0 16) (lo 1 (seq 0x80 16) base))
      (fun t => isLo t 5 (seq 8 4 ++ seq 0x88 4 ++ seq 12 4 ++ seq 0x8C 4) && t.pc == 0x104#32) = true := by decide

theorem test_unpklq :
    runs 0x35310A00 (lo 4 (seq 0 16) (lo 5 (seq 0x80 16) base))
      (fun t => isLo t 6 (seq 0 8 ++ seq 0x80 8) && t.pc == 0x104#32) = true := by decide

theorem test_unpkhq_256 :
    runs 0x36390B00 (lo 4 (seq 0 16) (lo 5 (seq 0x80 16) (hi 4 (seq 16 16) (hi 5 (seq 0x90 16) base))))
      (fun t => isLo t 7 (seq 8 8 ++ seq 0x88 8) && isHi t 7 (seq 0x18 8 ++ seq 0x98 8) && t.pc == 0x104#32) = true := by decide

theorem test_comb_source_is_destination :
    runs 0x37084201 (lo 1 (seq 0 16) (hi 1 (seq 16 16) base))
      (fun t => isLo t 1 (seq 16 16) && isHi t 1 (seq 0 16) && t.pc == 0x104#32) = true := by decide

theorem test_comb_half_invalid : faultsAs 0x37184401 (lo 1 (seq 0 16) (lo 2 (seq 0 16) base)) 4 0x21 = true := by decide

theorem test_btrn4 :
    runs 0x40080000 (lo 0 (seq 0 16) base)
      (fun t => isLo t 1 [0, 4, 8, 12, 1, 5, 9, 13, 2, 6, 10, 14, 3, 7, 11, 15] && t.pc == 0x104#32) = true := by decide

theorem test_trn4d_strides :
    runs 0x41007C00 (lo 1 (seq 0 16) (lo 9 (seq 16 16) (lo 17 (seq 32 16) (lo 25 (seq 48 16) base))))
      (fun t => isLo t 0 (seq 0 4 ++ seq 16 4 ++ seq 32 4 ++ seq 48 4) && isLo t 8 (seq 4 4 ++ seq 20 4 ++ seq 36 4 ++ seq 52 4) && isLo t 16 (seq 8 4 ++ seq 24 4 ++ seq 40 4 ++ seq 56 4) && isLo t 24 (seq 12 4 ++ seq 28 4 ++ seq 44 4 ++ seq 60 4)) = true := by decide

theorem test_trn4d_overlap :
    runs 0x41080000 (lo 0 (seq 0 16) (lo 1 (seq 16 16) (lo 2 (seq 32 16) (lo 3 (seq 48 16) base))))
      (fun t => isLo t 1 (seq 0 4 ++ seq 16 4 ++ seq 32 4 ++ seq 48 4) && isLo t 2 (seq 4 4 ++ seq 20 4 ++ seq 36 4 ++ seq 52 4) && isLo t 3 (seq 8 4 ++ seq 24 4 ++ seq 40 4 ++ seq 56 4) && isLo t 4 (seq 12 4 ++ seq 28 4 ++ seq 44 4 ++ seq 60 4) && isLo t 0 (seq 0 16)) = true := by decide

/-- Rows of 16 bytes, row i from 16·i, in the low halves from V`first`. -/
def rows (first count : Nat) (s : State) : State :=
  (List.range count).foldl (fun s i => lo (Fin.ofNat 32 (first + i)) (seq (16 * i) 16) s) s

theorem test_trn8b :
    runs 0x42400000 (rows 0 8 base)
      (fun t => (List.range 8).all (fun j => isLo t (Fin.ofNat 32 (8 + j)) (seq j 8 16 ++ seq 0 8 0))) = true := by decide

theorem test_trn8b_invalid : faultsAs 0x42400000 (rows 0 3 (rows 4 4 base)) 4 3 = true := by decide

theorem test_trn16b :
    runs 0x43800000 (rows 0 16 base)
      (fun t => (List.range 16).all (fun j => isLo t (Fin.ofNat 32 (16 + j)) (seq j 16 16))) = true := by decide

theorem test_trn16b_invalid : faultsAs 0x43800000 (rows 0 9 base) 4 9 = true := by decide

/-- Byte lane k of register r is 32·r + k, in all registers. -/
def allRows : State :=
  (List.range 32).foldl (fun s i => lo (Fin.ofNat 32 i) (seq (32 * i) 16) (hi (Fin.ofNat 32 i) (seq (32 * i + 16) 16) s)) base

theorem test_trn32b :
    runs 0x44000000 (allRows)
      (fun t => (List.range 32).all (fun j => isLo t (Fin.ofNat 32 j) (seq j 16 32) && isHi t (Fin.ofNat 32 j) (seq (j + 512) 16 32))) = true := by decide

theorem test_trn32b_invalid : faultsAs 0x44000000 (rows 0 32 base) 4 0x20 = true := by decide

/-- The standard layout of the vectors: source at 0x1000, table at 0x800, plane c at 0x2000 + 0x80·c. -/
def layout (n l : Nat) (source : List Nat) : State :=
  poke 0x1000 source (poke 0x800 ((List.range n).flatMap (fun c => [0x80 * c % 256, 0x20 + c / 2, 0, 0]))
    { base with
      src := 0x1000#32
      len := BitVec.ofNat 32 (n * l)
      dstp := 0x800#32
      n := BitVec.ofNat 32 n
      l := BitVec.ofNat 32 l })

/-- The 4 by 4 scenario E1, with a sentinel after each plane. -/
def e1 : State := poke 0x2004 [0xEE] (poke 0x2084 [0xEE] (poke 0x2104 [0xEE] (poke 0x2184 [0xEE] (layout 4 4 (seq 0 16)))))

/-- E1's planes and their sentinels. -/
def isE1 (t : State) : Bool :=
  isMem t 0x2000 [0, 4, 8, 12, 0xEE] && isMem t 0x2080 [1, 5, 9, 13, 0xEE] && isMem t 0x2100 [2, 6, 10, 14, 0xEE] &&
    isMem t 0x2180 [3, 7, 11, 15, 0xEE] && t.pc == 0x104#32

theorem test_demux_x4s_e1 :
    runs 0x50000006 (e1)
      (fun t => isE1 t) = true := by decide

theorem test_demux_copy_layout : faultsAs 0x5000000D (e1) 11 1 = true := by decide

/-! ### Fetch and the host -/

theorem test_fetch_misaligned :
    good (step { base with pc := 0x102#32 }) (fun t => t == takeFault { base with pc := 0x102#32 } ⟨.fetchMisaligned, 0x102#32⟩) =
      true := by decide

theorem test_fetch_past_mem :
    good (step { base with pc := 0x4000#32 }) (fun t => t.cause == 3#32 && t.fpc == 0x4000#32 && t.finfo == 0x4000#32) =
      true := by decide

theorem test_fetch_zero_word : good (step base) (fun t => t.cause == 1#32 && t.finfo == 0#32 && t.faultOut) = true := by
  decide

/-- H2: GO before any set-up; the memory is all zero. -/
theorem test_go_then_illegal :
    good (hostStep (.writeRegister 1 1#32) idle)
      (fun t => t.status == .run && good (step t) (fun u => u.cause == 1#32 && u.fpc == 0#32)) = true := by decide

/-- H5: RST wins over GO; bits 31:2 of CTRL are ignored. -/
theorem test_ctrl_rst_wins :
    good (hostStep (.writeRegister 1 3#32) { idle with status := .done, n := 4#32 }) (fun t => t == idle) = true ∧
      good (hostStep (.writeRegister 1 0xFFFFFFFC#32) idle) (fun t => t == idle) = true := by decide

/-- H4: a descriptor write in RUN and a GO in FAULT are ignored. -/
theorem test_host_writes_ignored :
    good (hostStep (.writeRegister 11 8#32) base) (fun t => t == base) = true ∧
      good (hostStep (.writeRegister 1 1#32) { idle with status := .fault }) (fun t => t.status == .fault) = true := by decide

/-- R27: an accepted GO clears a valid bit. -/
theorem test_go_clears_valid_bits :
    good (hostStep (.writeRegister 1 1#32) (setA 1 5 idle)) (fun t => !t.a[1].valid) = true := by decide

theorem test_host_memory_in_run :
    hostStep (.writeMemory 0 [1#8]) base = .refused .hostMemoryDuringRun := by rfl

/-! ### The register file of the witnesses -/

/-- A1 and A2 point into MEM, A3 is a small stride, V0 to V7 hold rows in both halves. -/
def full : State :=
  setA 1 0x1000 (setA 2 0x1808 (setA 3 4 ((List.range 8).foldl
    (fun s i => lo (Fin.ofNat 32 i) (seq (16 * i) 16) (hi (Fin.ofNat 32 i) (seq (16 * i + 1) 16) s)) base)))

/-- Every half of a width is valid, said for both lanes. -/
theorem of_both_lanes (P : Lane → Prop) (h₀ : P .h0) (h₁ : P .h1) : ∀ h, P h := fun h => by cases h <;> assumption

/-! ### Witnesses: encoding -/

theorem test_witness_DecodeOfEncodeIsTheCommand :
    Instr.wellFormed (.trn4d 28 7 0 3 .w256) = true ∧ Instr.wellFormed (.trn8b 24 24) = true ∧
      Instr.wellFormed (.trn16b 16 16 .w128) = true ∧ Instr.wellFormed (.csrw 7 .l) = true := by decide

theorem test_witness_EncodeOfDecodeIsTheWord : decode 0x260A7FFC#32 = .ok (.vstw 1 2 7 0xFFC#12) := by rfl

theorem test_witness_DecoderAcceptsExactlyTheOpcodeTable :
    decode 0x41383000#32 = .ok (.trn4d 7 0 3 0 .w128) ∧
      Instr.row (.trn4d 0 0 0 0 .w128) ∈ opcodeTable ∧
      0x41383000#32 &&& (Instr.row (.trn4d 0 0 0 0 .w128)).mask = (Instr.row (.trn4d 0 0 0 0 .w128)).pattern :=
  ⟨rfl, by decide, by decide⟩

/-! ### Witnesses: the step -/

/-- A NOP at pc. -/
def nopAtPc : State := base.withFetchWord 32 0x01000000

theorem test_witness_StepRunsTheDecodedCommand :
    nopAtPc.status = .run ∧ Fetchable nopAtPc ∧ decode (fetchedWord nopAtPc) = .ok .nop ∧ nopAtPc.turns = [] ∧
      ({ nopAtPc with turns := [.engine, .host .assertReset] } : State).turns = .engine :: [.host .assertReset] :=
  ⟨rfl, by decide, rfl, rfl, rfl⟩

theorem test_witness_FetchAndDecodeFaults :
    (({ base with pc := 0x101#32 } : State).pc.toNat % 4 ≠ 0) ∧
      (({ base with pc := 0x4000#32 } : State).pc.toNat % 4 = 0 ∧
        ∃ k < 4, inMem { base with pc := 0x4000#32 } (0x4000 + k) = false) ∧
      ({ base with populated := [⟨0, 0x103⟩] } : State).pc.toNat % 4 = 0 ∧
      inMem { base with populated := [⟨0, 0x103⟩] } (0x100 + 3) = false ∧
      Fetchable base ∧ decode (fetchedWord base) = .error .unassignedOpcode ∧ base.status = .run ∧ nextTurn base = .engine ∧
      nextTurn { base with turns := [.engine, .host .assertReset] } = .engine :=
  ⟨by decide, by decide, by decide, by decide, by decide, rfl, rfl, rfl, rfl⟩

theorem test_witness_EngineInRunAlwaysSteps : base.status = .run ∧ nextTurn base = .engine := by decide

/-- The four ways STATE changes: GO, HALT, a fault, a reset. -/
theorem test_witness_StateChangesOnlyAsListed :
    good (step { idle with turns := [.host (.writeRegister 1 1#32)] }) (fun t => t.status == .run) = true ∧
      good (step (base.withFetchWord 32 0x02000000)) (fun t => t.status == .done) = true ∧
      good (step base) (fun t => t.status == .fault) = true ∧
      good (step { base with turns := [.host .assertReset] }) (fun t => t.status == .idle) = true ∧
      nextTurn idle = .engine ∧ idle.status ≠ .run := by decide

theorem test_witness_StepKeepsTheInvariant : Inv nopAtPc ∧ good (step nopAtPc) (fun _ => true) = true :=
  ⟨⟨by decide, by simp [nopAtPc, State.withFetchWord, placeCommand], fun _ => by decide⟩, by decide⟩

theorem test_witness_StepKeepsTheInvariant_in_fault :
    Inv (after (step base)) ∧ (after (step base)).status = .fault ∧ good (step (after (step base))) (fun _ => true) = true :=
  ⟨⟨by decide, fun _ => by decide, fun h => absurd (by decide) h⟩, by decide, by decide⟩

theorem test_witness_StepKeepsTheMemoryInsideMem :
    CellsPopulated e1 ∧ e1.mem ≠ [] ∧ good (step (e1.withFetchWord 32 0x50000006)) (fun _ => true) = true := by
  refine ⟨?_, by decide, by decide⟩
  unfold CellsPopulated
  decide

theorem test_witness_EnginePcStaysAligned :
    nextTurn nopAtPc = .engine ∧ nopAtPc.pc.toNat % 4 = 0 ∧ step nopAtPc = .next (after (step nopAtPc)) :=
  ⟨rfl, by decide, rfl⟩

/-- A fault, HALT, JMP, DBNZ on each side of its test, and a command that goes on. -/
theorem test_witness_PcChangesOnlyAsListed :
    base.status = .run ∧ good (exec (.abort 1) base) (fun t => t.status == .fault) = true ∧
      good (exec .halt base) (fun t => t.status != .fault) = true ∧
      good (exec (.jmp 0x800000#24) base) (fun t => t.status != .fault) = true ∧
      good (exec (.dbnz 1 0x8000#16) (setA 1 1 base)) (fun t => t.status != .fault && isA t 1 0) = true ∧
      good (exec (.dbnz 1 0x8000#16) (setA 1 0 base)) (fun t => t.status != .fault && isA t 1 0xFFFFFFFF) = true ∧
      good (exec .nop base) (fun t => t.status != .fault) = true := by decide

theorem test_witness_FaultStepWritesOnlyTheFaultRegisters :
    base.status = .run ∧ nextTurn base = .engine ∧ step base = .next (after (step base)) ∧
      (after (step base)).status = .fault :=
  ⟨rfl, rfl, rfl, rfl⟩

/-- The same with the engine's turn in the list. -/
theorem test_witness_FaultStepWritesOnlyTheFaultRegisters_listed :
    let s : State := { base with turns := [.engine, .host .assertReset] }
    nextTurn s = .engine ∧ good (step s) (fun t => t.status == .fault && t.turns == [.host .assertReset]) = true := by
  decide

theorem test_witness_StepKeepsMemAndTakesOneTurn :
    good (step { base with turns := [.engine, .engine] }) (fun t => t.turns == [.engine]) = true ∧
      ({ idle with turns := [.host (.readRegister 7), .engine] } : State).turns = .host (.readRegister 7) :: [.engine] :=
  ⟨by decide, rfl⟩

/-- A register, a control register and a byte of memory that change. -/
theorem test_witness_OnlyTheListedCommandsWrite :
    good (exec (.lai 3 7) base) (fun t => t.a[3] != base.a[3]) = true ∧
      good (exec (.csrw 1 .entry) full) (fun t => hostReadRegister t 6 != hostReadRegister full 6) = true ∧
      Csr.writable .entry = true ∧
      good (exec (.vst 1 1 .w128 0) full) (fun t => readByte t 0x1000 != readByte full 0x1000) = true := by decide

theorem test_witness_OnlyLaunchAndResetClearValidBits :
    good (exec (.vmov 9 1 .w256) full) (fun _ => full.a[1].valid && (half full 7 .h1).valid) = true ∧
      good (step { full with status := .idle, turns := [.host (.writeRegister 1 1#32)] })
        (fun t => !t.a[1].valid && !(half t 7 .h1).valid) = true ∧
      good (step { full with turns := [.host .assertReset] }) (fun t => !t.a[1].valid) = true := by decide

/-- The reset state and one that differs in the data of A0, which is invalid in both. -/
theorem test_witness_InvalidRegisterDataIsUnobservable :
    Alike State.reset { State.reset with a := State.reset.a.set 0 ⟨5#32, false⟩ } := by
  refine ⟨fun i => ⟨?_, fun h => ?_⟩, fun n h => by cases h <;> exact ⟨rfl, fun _ => rfl⟩, rfl⟩
  · revert i
    decide
  · exact absurd h (by revert i; decide)

/-- A GO with every ignored bit of CTRL set. -/
theorem test_witness_LaunchForgetsTheRegisters :
    ({ idle with a := full.a, vlo := full.vlo, turns := [.host (.writeRegister 1 0xFFFFFFFD#32)] } : State) =
        { ({ idle with turns := [.host (.writeRegister 1 0xFFFFFFFD#32)] } : State) with
          a := full.a, vlo := full.vlo, vhi := idle.vhi } ∧
      ({ idle with turns := [.host (.writeRegister 1 0xFFFFFFFD#32)] } : State).status = .idle ∧
      (0xFFFFFFFD#32).getLsbD 1 = false ∧ (0xFFFFFFFD#32).getLsbD 0 = true := ⟨rfl, rfl, by decide, by decide⟩

/-! ### Witnesses: the host -/

/-- CTRL values for each clause, in a STATE of each clause. -/
theorem test_witness_CtrlWritesResetOrLaunch :
    (2#32).getLsbD 1 = true ∧ ((1#32).getLsbD 1 = false ∧ (1#32).getLsbD 0 = true) ∧ idle.status = .idle ∧
      ({ idle with status := .done } : State).status = .done ∧ base.status = .run ∧
      ({ idle with status := .fault } : State).status = .fault ∧
      ((0xFFFFFFFC#32).getLsbD 1 = false ∧ (0xFFFFFFFC#32).getLsbD 0 = false) := by decide

theorem test_witness_ResetSetsEveryPieceOfState : (3#32).getLsbD 1 = true := by decide

theorem test_witness_HostRegisterWritesByState :
    (3#32).getLsbD 1 = true ∧ ((1#32).getLsbD 1 = false ∧ (1#32).getLsbD 0 = true ∧ idle.status = .idle) ∧
      ((1#32).getLsbD 1 = false ∧ base.status = .run) ∧ (6 ∈ [6, 8, 9, 10, 11, 12] ∧ idle.status = .idle) ∧
      (12 ∈ [6, 8, 9, 10, 11, 12] ∧ base.status = .run) ∧ 13 ∉ [1, 6, 8, 9, 10, 11, 12] ∧ 0 ∉ [1, 6, 8, 9, 10, 11, 12] := by
  decide

theorem test_witness_HostRegisterReads : (13 : Nat) ≤ 13 ∧ idle.status ≠ .run := by decide

/-- In RUN; the last bytes of MEM; a move that ends one byte past MEM; a move that begins there. -/
theorem test_witness_HostMemoryMoves :
    base.status = .run ∧ idle.status ≠ .run ∧ (∀ k < 2, inMem idle (0x3FFE + k) = true) ∧
      LowestMissing idle 0x3FFE 3 0x4000 ∧ LowestMissing idle 0x4000 1 0x4000 ∧ LowestMissing idle 0xFFFFFFFF 2 0xFFFFFFFF :=
  ⟨rfl, by decide, by decide, ⟨2, by decide⟩, ⟨0, by decide⟩, ⟨0, by decide⟩⟩

/-! ### Witnesses: control and address commands -/

theorem test_witness_DbnzCountsAndBranches : HoldsA full 3 4#32 ∧ HoldsA (setA 3 0 base) 3 0#32 ∧ HoldsA (setA 3 1 base) 3 1#32 := by
  decide

theorem test_witness_LaiAndLahiLoadConstants : HoldsA full 2 0x1808#32 := by decide

theorem test_witness_AddressAdditions : HoldsA full 1 0x1000#32 ∧ HoldsA full 3 4#32 := by decide

theorem test_witness_LdaLoadsADword :
    HoldsA full 1 0x1000#32 ∧ Access.Ok full ⟨addrOf (address16 0x1000#32 0x2FFC#16), 4, 4⟩ := by decide

theorem test_witness_CsrwWritesAControlRegister :
    Csr.writable .entry = true ∧ Csr.writable .l = true ∧ HoldsA full 1 0x1000#32 := by decide

/-! ### Witnesses: vector loads and stores -/

/-- VLD at an aligned address, VLDU at an odd one. -/
theorem test_witness_VectorLoads :
    HoldsA full 1 0x1000#32 ∧ Access.Ok full ⟨addrOf (address12 0x1000#32 0xFE0#12), widthBytes .w256, widthBytes .w256⟩ ∧
      Access.Ok full ⟨addrOf (address12 0x1000#32 0x7FF#12), widthBytes .w128, 1⟩ := by decide

theorem test_witness_VldqLoadsAQword :
    HoldsA full 2 0x1808#32 ∧ Access.Ok full ⟨addrOf (address12 0x1808#32 0x000#12), 8, 8⟩ := by decide

theorem test_witness_VldgGathersDwords :
    HoldsA full 1 0x1000#32 ∧ HoldsA full 3 4#32 ∧
      ∀ k < widthBytes .w256 / 4, Access.Ok full ⟨addrOf (gatherAddress 0x1000#32 4#32 0#12 k), 4, 4⟩ := by decide

theorem test_witness_VectorStores :
    HoldsA full 1 0x1000#32 ∧ (∀ h, UsesLane .w256 h → (half full 7 h).valid = true) ∧
      Access.Ok full ⟨addrOf (address12 0x1000#32 0x020#12), widthBytes .w256, widthBytes .w256⟩ ∧
      Access.Ok full ⟨addrOf (address12 0x1000#32 0x003#12), widthBytes .w256, 1⟩ :=
  ⟨by decide, of_both_lanes _ (fun _ => by decide) (fun _ => by decide), by decide, by decide⟩

theorem test_witness_LaneStores :
    HoldsA full 2 0x1808#32 ∧ (half full 1 .h1).valid = true ∧ (half full 1 .h0).valid = true ∧
      Access.Ok full ⟨addrOf (address12 0x1808#32 8#12), 8, 8⟩ ∧
      Access.Ok full ⟨addrOf (address12 0x1808#32 0xFFC#12), 4, 4⟩ := by decide

theorem test_witness_StoreThenDwordLoadReturnsTheLane :
    let s := setA 4 0x100C full
    HoldsA s 1 0x1000#32 ∧ HoldsA s 4 0x100C#32 ∧ HoldsHalf s 1 .h0 (h16 (seq 16 16)) ∧
      Access.Ok s ⟨addrOf (address12 0x1000#32 0#12), 16, 16⟩ ∧
      addrOf 0x100C#32 = addrOf (address12 0x1000#32 0#12) + 4 * 3 ∧
      good (exec (.vst 1 1 .w128 0#12) s)
        (fun t => good (exec (.lda 5 4 0#16) t) (fun u => isA u 5 0x1F1E1D1C)) = true := by decide

/-! ### Witnesses: shuffles and transposes -/

theorem test_witness_VmovAndPermd : ∀ h, UsesLane .w256 h → (half full 5 h).valid = true :=
  of_both_lanes _ (fun _ => by decide) (fun _ => by decide)

/-- V0 is data; V8 holds control bytes up to 15 in both halves. -/
def controls : State := lo 8 (seq 0 16).reverse (hi 8 (seq 15 16 0) full)

theorem test_witness_PermbPermutesBytes :
    ∀ h, UsesLane .w256 h → (half controls 0 h).valid = true ∧ (half controls 8 h).valid = true ∧
      ∀ k < 16, (byteOf (half controls 8 h).data k).toNat ≤ 15 :=
  of_both_lanes _ (fun _ => by decide) (fun _ => by decide)

theorem test_witness_Interleaves :
    ∀ h, UsesLane .w256 h → (half full 2 h).valid = true ∧ (half full 3 h).valid = true :=
  of_both_lanes _ (fun _ => by decide) (fun _ => by decide)

theorem test_witness_CombJoinsTwoHalves : (half full 0 .h1).valid = true ∧ (half full 7 .h0).valid = true := by decide

theorem test_witness_ShuffleLaws :
    HoldsHalf full 1 .h0 (h16 (seq 16 16)) ∧
      (∀ k < 16, (byteOf (h16 (seq 0 16).reverse) k).toNat ≤ 15 ∧ (byteOf (h16 (seq 15 16 0)) k).toNat ≤ 15) ∧
      ∀ k < 16, byteOf (h16 (seq 0 16 0)) k = byteOf (h16 (seq 0 16).reverse) (byteOf (h16 (seq 15 16 0)) k).toNat := by
  decide

theorem test_witness_Btrn4TransposesBytes : ∀ h, UsesLane .w256 h → (half full 6 h).valid = true :=
  of_both_lanes _ (fun _ => by decide) (fun _ => by decide)

/-- Valid register groups: V1, V3, V5, V7 for TRN4D, V0 to V7 for TRN8B. -/
theorem test_witness_Trn4dTransposesDwords :
    Instr.wellFormed (.trn4d 28 1 0 1 .w256) = true ∧
      ∀ n h, groupHalves 1 1 4 .w256 n h → (half full n h).valid = true := by
  refine ⟨by decide, ?_⟩
  rintro n h ⟨⟨k, hk, hn⟩, _⟩
  obtain rfl : n = Fin.ofNat 32 (1 + k * 2) := Fin.ext (by rw [hn, Fin.val_ofNat]; omega)
  cases h <;> interval_cases k <;> decide

theorem test_witness_Trn8bAndTrn16bTransposeBytes :
    Instr.wellFormed (.trn8b 24 0) = true ∧ Instr.wellFormed (.trn16b 16 0 .w128) = true ∧
      (∀ n h, groupHalves 0 0 8 .w128 n h → (half (rows 0 8 base) n h).valid = true) ∧
      ∀ n h, groupHalves 0 0 16 .w128 n h → (half (rows 0 16 base) n h).valid = true := by
  refine ⟨by decide, by decide, ?_, ?_⟩
  all_goals
    rintro n h ⟨⟨k, hk, hn⟩, hl⟩
    obtain rfl : h = .h0 := hl.resolve_right (by decide)
    obtain rfl : n = Fin.ofNat 32 k := Fin.ext (by rw [hn, Fin.val_ofNat]; simp; omega)
    interval_cases k <;> decide

theorem test_witness_Trn32bTransposesTheRegisterFile : ∀ n h, (half allRows n h).valid = true :=
  fun n h => by
    have valid : ∀ n : VReg, (half allRows n .h0).valid = true ∧ (half allRows n .h1).valid = true := by decide
    cases h
    · exact (valid n).1
    · exact (valid n).2

theorem test_witness_TransposesAreInvolutions :
    (List.replicate 4 (h16 (seq 0 16))).length = 4 ∧ (List.replicate 16 (h16 (seq 0 16))).length = 16 ∧
      (List.replicate 8 (h16 (seq 0 16))).length = 8 ∧ (List.replicate 32 (0#256)).length = 32 := by decide

/-! ### Witnesses: DEMUX -/

/-- E1 with another address in entry c of the pointer table. -/
def planeAt (c a : Nat) (s : State) : State :=
  poke (0x800 + 4 * c) [a % 256, a / 256 % 256, a / 65536 % 256, a / 16777216] s

/-- E1 with contiguous planes, as COPY needs them. -/
def contiguous : State := planeAt 1 0x2004 (planeAt 2 0x2008 (planeAt 3 0x200C e1))

/-- A row that 4 by 4 planes of E1 satisfy: X4S, and REF and ROWM, which require nothing. -/
theorem test_witness_DemuxMeetsTheContract : DemuxLegal .x4s e1 ∧ DemuxLegal .rowm e1 :=
  ⟨⟨by decide, by decide, by decide, by decide, by decide⟩, by decide, by decide, by decide, by decide, by decide⟩

theorem test_witness_DemuxCopyCopiesTheBlock :
    DemuxLegal .copy contiguous ∧ runs 0x5000000D contiguous (fun t => isMem t 0x2000 (seq 0 16)) = true :=
  ⟨⟨by decide, by decide, by decide, by decide, by decide⟩, by decide +kernel⟩

theorem test_witness_DemuxStrategiesAreEquivalent : e1.mem.wf ∧ DemuxLegal .rc4 e1 :=
  ⟨by decide, by decide, by decide, by decide, by decide, by decide⟩

theorem test_witness_DemuxRerunChangesNothing :
    e1.mem.wf ∧ DemuxLegal .x4s e1 ∧ good (exec (.demux .x4s) e1) (fun t => isE1 t) = true :=
  ⟨by decide, ⟨by decide, by decide, by decide, by decide, by decide⟩, by decide⟩

/-! One state for each clause of DemuxChecksInOrder, in its order. -/

theorem test_witness_DemuxChecksInOrder_0 :
    (bits 0x50000010#32 31 24 = 0x50 ∧ bits 0x50000010#32 23 4 ≠ 0) ∧
      (bits 0x5000000E#32 31 24 = 0x50 ∧ bits 0x5000000E#32 3 0 > 13) := by decide

theorem test_witness_DemuxChecksInOrder_1 : ({ e1 with n := 0#32, l := 0#32 } : State).n.toNat = 0 := by decide

theorem test_witness_DemuxChecksInOrder_2 :
    let s : State := { e1 with l := 0#32 }
    s.n.toNat ≠ 0 ∧ s.l.toNat = 0 := by decide

/-- N·L = 2^32 is not reduced. -/
theorem test_witness_DemuxChecksInOrder_3 :
    let s : State := { e1 with n := 0x10000#32, l := 0x10000#32, len := 0#32 }
    s.n.toNat ≠ 0 ∧ s.l.toNat ≠ 0 ∧ s.n.toNat * s.l.toNat ≠ s.len.toNat := by decide

theorem test_witness_DemuxChecksInOrder_4 :
    let s : State := { e1 with n := 6#32, l := 6#32, len := 36#32 }
    s.n.toNat * s.l.toNat = s.len.toNat ∧ s.n.toNat % (strategyRow .x4s).gN ≠ 0 := by decide

theorem test_witness_DemuxChecksInOrder_5 :
    let s : State := { e1 with l := 6#32, len := 24#32 }
    s.n.toNat * s.l.toNat = s.len.toNat ∧ s.n.toNat % (strategyRow .x4s).gN = 0 ∧
      s.l.toNat % (strategyRow .x4s).gL ≠ 0 := by decide

theorem test_witness_DemuxChecksInOrder_6 :
    let s : State := { e1 with src := 0x1002#32 }
    ShapeOk .x4s s ∧ s.src.toNat % (strategyRow .x4s).aSrc ≠ 0 := by decide

theorem test_witness_DemuxChecksInOrder_7 :
    let s : State := { e1 with dstp := 0x802#32 }
    ShapeOk .ref s ∧ s.src.toNat % (strategyRow .ref).aSrc = 0 ∧ s.dstp.toNat % 4 ≠ 0 := by decide

/-- The least SRC whose 16 bytes run past 2^32, byte-aligned. -/
theorem test_witness_DemuxChecksInOrder_8 :
    let s : State := { e1 with src := 0xFFFFFFF1#32 }
    ShapeOk .ref s ∧ s.dstp.toNat % 4 = 0 ∧ s.src.toNat + s.len.toNat > 2 ^ 32 := by decide

/-- The greatest SRC that ends at 2^32, and one that ends past MEM. -/
theorem test_witness_DemuxChecksInOrder_9 :
    (let s : State := { e1 with src := 0xFFFFFFF0#32 }
    s.src.toNat + s.len.toNat ≤ 2 ^ 32 ∧ LowestMissing s s.src.toNat s.len.toNat 0xFFFFFFF0) ∧
      let s : State := { e1 with src := 0x3FF8#32 }
      s.src.toNat + s.len.toNat ≤ 2 ^ 32 ∧ LowestMissing s s.src.toNat s.len.toNat 0x4000 := by decide

theorem test_witness_DemuxChecksInOrder_10 :
    let s : State := { e1 with dstp := 0xFFFFFFF4#32 }
    ShapeOk .x4s s ∧ s.dstp.toNat % 4 = 0 ∧ RangeInMem s s.src.toNat s.len.toNat ∧
      s.dstp.toNat + 4 * s.n.toNat > 2 ^ 32 := by decide

theorem test_witness_DemuxChecksInOrder_11 :
    let s : State := { e1 with dstp := 0x3FF8#32 }
    ShapeOk .x4s s ∧ s.dstp.toNat % 4 = 0 ∧ RangeInMem s s.src.toNat s.len.toNat ∧
      s.dstp.toNat + 4 * s.n.toNat ≤ 2 ^ 32 ∧ LowestMissing s s.dstp.toNat (4 * s.n.toNat) 0x4000 := by decide

theorem test_witness_DemuxChecksInOrder_12 :
    let s := planeAt 2 0x2102 e1
    2 < s.n.toNat ∧ ShapeOk .x4s s ∧ BuffersOk .x4s s ∧ (∀ e < 2, PlaneOk .x4s s e) ∧
      planeAddress s 2 % (strategyRow .x4s).aDst ≠ 0 := by decide

theorem test_witness_DemuxChecksInOrder_13 :
    let s := planeAt 1 0xFFFFFFFE e1
    ShapeOk .ref s ∧ BuffersOk .ref s ∧ (∀ e < 1, PlaneOk .ref s e) ∧ planeAddress s 1 + s.l.toNat > 2 ^ 32 := by decide

theorem test_witness_DemuxChecksInOrder_14 :
    let s := planeAt 3 0x3FFE e1
    ShapeOk .ref s ∧ BuffersOk .ref s ∧ (∀ e < 3, PlaneOk .ref s e) ∧ planeAddress s 3 + s.l.toNat ≤ 2 ^ 32 ∧
      LowestMissing s (planeAddress s 3) s.l.toNat 0x4000 := by decide

theorem test_witness_DemuxChecksInOrder_15 :
    let s := planeAt 2 0x200C contiguous
    ShapeOk .copy s ∧ BuffersOk .copy s ∧ (∀ c < s.n.toNat, PlaneOk .copy s c) ∧ (∀ e < 2, PlaneContiguous s e) ∧
      ¬ PlaneContiguous s 2 := by decide

/-- The last byte of plane 0 is the first of plane 1; for COPY, the first plane overlaps the source. -/
theorem test_witness_DemuxChecksInOrder_16 :
    (let s := planeAt 1 0x2003 e1
    ShapeOk .ref s ∧ BuffersOk .ref s ∧ (∀ c < s.n.toNat, PlaneOk .ref s c) ∧ (∀ e < 1, ¬ PlaneOverlaps s e) ∧
      PlaneOverlaps s 1) ∧
      let s := planeAt 0 0x100F (planeAt 1 0x1013 (planeAt 2 0x1017 (planeAt 3 0x101B e1)))
      BuffersOk .copy s ∧ (∀ c < s.n.toNat, PlaneOk .copy s c) ∧ (∀ e < s.n.toNat, PlaneContiguous s e) ∧
        PlaneOverlaps s 0 :=
  ⟨⟨by decide, by decide, by decide, by decide, by decide⟩, by decide, by decide, by decide, by decide⟩

/-! ### Witnesses: faults of commands -/

/-- The valid bit of an operand, as a Bool. -/
def validBit (s : State) : Source → Bool
  | .address i => s.a[i].valid
  | .half n h => (half s n h).valid

/-- All operands of a command are valid, from their bits. -/
theorem of_sources (s : State) (i : Instr) (h : (sources i).all (validBit s) = true) : ∀ y ∈ sources i, Source.Valid s y :=
  fun y hy => by
    have := List.all_eq_true.mp h y hy
    cases y <;> exact this

/-- The second source half is invalid, the first valid. -/
theorem test_witness_FirstInvalidOperandFaults :
    let s := lo 4 (seq 0 16) base
    Instr.wellFormed (.vmov 9 4 .w256) = true ∧
      sources (.vmov 9 4 .w256) = [.half 4 .h0] ++ .half 4 .h1 :: [] ∧ Source.Valid s (.half 4 .h0) ∧
      ¬ Source.Valid s (.half 4 .h1) ∧ Source.identifier (.half 4 .h1) = 36 := by decide

/-- A gather whose second element is misaligned; one whose base runs past 2^32; one past MEM. -/
theorem test_witness_FirstFailingAccessFaults :
    (let s := setA 1 0x1000 (setA 2 6 base)
    (∀ y ∈ sources (.vldg 0 1 2 .w128 0), Source.Valid s y) ∧
      dataAccesses s (.vldg 0 1 2 .w128 0) = [⟨0x1000, 4, 4⟩] ++ ⟨0x1006, 4, 4⟩ :: [⟨0x100C, 4, 4⟩, ⟨0x1012, 4, 4⟩] ∧
      Access.Ok s ⟨0x1000, 4, 4⟩ ∧ 0x1006 % 4 ≠ 0) ∧
    (let s := setA 1 0xFFFFFFF1 base
    (∀ y ∈ sources (.vldu 0 1 .w128 0), Source.Valid s y) ∧
      dataAccesses s (.vldu 0 1 .w128 0) = [] ++ ⟨0xFFFFFFF1, 16, 1⟩ :: [] ∧ 0xFFFFFFF1 + 16 > 2 ^ 32) ∧
    let s := setA 1 0x3FF8 base
    dataAccesses s (.vldu 0 1 .w128 0) = [] ++ ⟨0x3FF8, 16, 1⟩ :: [] ∧ LowestMissing s 0x3FF8 16 0x4000 :=
  ⟨⟨of_sources _ _ (by decide), by decide, by decide, by decide⟩, ⟨of_sources _ _ (by decide), by decide, by decide⟩,
    by decide, by decide⟩

/-- A bad control byte at position 3 of the upper half, all of the lower half being good. -/
theorem test_witness_PermbBadControlFaults :
    let s := hi 8 ((seq 0 16).set 3 16) controls
    UsesLane .w256 .h1 ∧ (∀ y ∈ sources (.permb 1 0 8 .w256), Source.Valid s y) ∧
      (byteOf (half s 8 .h1).data 3).toNat > 15 ∧ (∀ j < 3, (byteOf (half s 8 .h1).data j).toNat ≤ 15) ∧
      (∀ j < 16, (byteOf (half s 8 .h0).data j).toNat ≤ 15) :=
  ⟨by decide, of_sources _ _ (by decide), by decide, by decide, by decide⟩

theorem test_witness_IllFormedCommandsFault :
    Instr.wellFormed (.trn8b 25 0) = false ∧ Instr.wellFormed (.csrw 0 .pc) = false := by decide

end Sys2Proof.Tests
end

section
/-! PROOFS. The control and address commands (spec/40_control_address.md): what each one answers when its checks pass, what
its target or address is as a number, and what every command and every turn of the engine does to pc. -/

namespace Sys2Proof.ControlAddress

open Sys2Proof Sys2Proof.Machine

/-! ### Signed sums modulo 2^32 (30_encoding.md R94, R95) -/

theorem signExtend_eq_ofInt {w : Nat} (imm : BitVec w) : imm.signExtend 32 = BitVec.ofInt 32 imm.toInt := rfl

theorem four_mul_signExtend {w : Nat} (imm : BitVec w) :
    4#32 * imm.signExtend 32 = BitVec.ofInt 32 (4 * imm.toInt) := by
  rw [signExtend_eq_ofInt, BitVec.ofInt_mul]
  rfl

theorem toNat_add_ofInt (p : Word) (z : Int) :
    ((p + BitVec.ofInt 32 z).toNat : Int) = ((p.toNat : Int) + z) % 2 ^ 32 := by
  rw [BitVec.toNat_add, BitVec.toNat_ofInt]
  omega

theorem target24_eq (pc : Word) (imm : BitVec 24) : target24 pc imm = pc + BitVec.ofInt 32 (4 * imm.toInt) :=
  congrArg (pc + ·) (four_mul_signExtend imm)

theorem target16_eq (pc : Word) (imm : BitVec 16) : target16 pc imm = pc + BitVec.ofInt 32 (4 * imm.toInt) :=
  congrArg (pc + ·) (four_mul_signExtend imm)

theorem toNat_target24 (pc : Word) (imm : BitVec 24) :
    ((target24 pc imm).toNat : Int) = ((pc.toNat : Int) + 4 * imm.toInt) % 2 ^ 32 := by
  rw [target24_eq, toNat_add_ofInt]

theorem toNat_target16 (pc : Word) (imm : BitVec 16) :
    ((target16 pc imm).toNat : Int) = ((pc.toNat : Int) + 4 * imm.toInt) % 2 ^ 32 := by
  rw [target16_eq, toNat_add_ofInt]

theorem toNat_address16 (x : Word) (imm : BitVec 16) :
    ((address16 x imm).toNat : Int) = ((x.toNat : Int) + imm.toInt) % 2 ^ 32 :=
  toNat_add_ofInt x imm.toInt

theorem toNat_sub_one (x : Word) : ((x - 1#32).toNat : Int) = ((x.toNat : Int) - 1) % 2 ^ 32 := by
  have := x.isLt
  rw [BitVec.toNat_sub, BitVec.toNat_ofNat]
  omega

/-- A distance of 4·z keeps a multiple of 4 a multiple of 4, because 4 divides 2^32. -/
theorem aligned_of_signed_sum (p q : Word) (z : Int) (h : p.toNat % 4 = 0)
    (hq : (q.toNat : Int) = ((p.toNat : Int) + 4 * z) % 2 ^ 32) : q.toNat % 4 = 0 := by
  omega

theorem aligned_add_four (p : Word) (h : p.toNat % 4 = 0) : (p + 4#32).toNat % 4 = 0 :=
  aligned_of_signed_sum p _ 1 h (toNat_add_ofInt p 4)

/-! ### Constants in two halves (30_encoding.md R97) -/

theorem toNat_replaceUpper (imm : BitVec 16) (x : Word) :
    (imm ++ x.extractLsb' 0 16 : BitVec (16 + 16)).toNat = imm.toNat * 2 ^ 16 + x.toNat % 2 ^ 16 := by
  rw [BitVec.toNat_append, ← Nat.shiftLeft_add_eq_or_of_lt (BitVec.isLt _), Nat.shiftLeft_eq,
    BitVec.extractLsb'_toNat, Nat.shiftRight_zero]

/-- The two halves of a constant, the lower one first zero-extended, make the constant. -/
theorem replaceUpper_halves (c : Word) :
    (c.extractLsb' 16 16 ++ ((c.extractLsb' 0 16).setWidth 32).extractLsb' 0 16 : BitVec (16 + 16)) = c := by
  apply BitVec.eq_of_toNat_eq
  have := c.isLt
  rw [toNat_replaceUpper, BitVec.toNat_setWidth, BitVec.extractLsb'_toNat, BitVec.extractLsb'_toNat,
    Nat.shiftRight_zero, Nat.shiftRight_eq_div_pow]
  omega

/-! ### Frames -/

/-- A frame says nothing of pc. -/
theorem frame_withPc {a : AReg → Prop} {v : VReg → Lane → Prop} {m : Nat → Prop} {s t : State} (p : Word)
    (h : Frame a v m s t) : Frame a v m s { t with pc := p } := by
  obtain ⟨⟨ha, hv, hm, hp⟩, hrest⟩ := h
  refine ⟨⟨ha, fun n k hn => ?_, hm, hp⟩, hrest⟩
  rw [← hv n k hn]
  cases k <;> rfl

theorem frameOfData_withStatus (s : State) (r : RunState) : FrameOfData noA noHalf noByte s { s with status := r } :=
  ⟨fun _ _ => rfl, fun _ k _ => by cases k <;> rfl, fun _ _ => rfl, rfl, rfl⟩

theorem frameOfData_writeCsr (s : State) (x : Word) (c : Csr) :
    FrameOfData noA noHalf noByte s (advance (writeCsr s x c)) :=
  ⟨fun _ _ => by simp, fun _ _ _ => by simp, fun _ _ => by simp, by simp, by simp⟩

/-! ### What the commands answer when their checks pass (40_control_address.md R120 to R132) -/

section Answers

variable {s : State} {ad ra rb : AReg} {x y : Word} {imm : BitVec 16}

theorem exec_jmp (imm : BitVec 24) (s : State) : exec (.jmp imm) s = .next { s with pc := target24 s.pc imm } := rfl

theorem exec_dbnz (h : HoldsA s ad x) :
    exec (.dbnz ad imm) s = .next { writeA s ad (x - 1#32) with
      pc := if x - 1#32 = 0#32 then s.pc + 4#32 else target16 s.pc imm } := by
  simp only [exec, execDbnz, readA_holds s ad x h, ok_bind, pure_check, conclude_ok, countDown, branchTaken]
  by_cases zero : x - 1#32 = 0#32
  · simp only [zero, ne_eq, not_true_eq_false, decide_false, Bool.false_eq_true, if_false, if_true]
    rfl
  · simp only [zero, ne_eq, not_false_eq_true, decide_true, if_true, if_false]

theorem exec_dbnz_invalid (h : ¬ s.a[ad].valid = true) : ∃ f, exec (.dbnz ad imm) s = .next (takeFault s f) :=
  ⟨⟨.uninitRead, BitVec.ofNat 32 (64 + ad.val)⟩, by
    simp only [exec, execDbnz, readA_invalid s ad h, error_bind, conclude_error]⟩

theorem exec_lai (ad : AReg) (imm : BitVec 16) (s : State) :
    exec (.lai ad imm) s = .next (advance (writeA s ad (imm.setWidth 32))) := rfl

theorem exec_lahi (h : HoldsA s ad x) :
    exec (.lahi ad imm) s = .next (advance (writeA s ad (imm ++ x.extractLsb' 0 16 : BitVec (16 + 16)))) := by
  simp only [exec, execLahi, readA_holds s ad x h, ok_bind, pure_check, conclude_ok]

theorem exec_addai (h : HoldsA s ra x) :
    exec (.addai ad ra imm) s = .next (advance (writeA s ad (address16 x imm))) := by
  simp only [exec, execAddai, readA_holds s ra x h, ok_bind, pure_check, conclude_ok]

theorem exec_adda (hx : HoldsA s ra x) (hy : HoldsA s rb y) :
    exec (.adda ad ra rb) s = .next (advance (writeA s ad (x + y))) := by
  simp only [exec, execAdda, readA_holds s ra x hx, readA_holds s rb y hy, ok_bind, pure_check, conclude_ok]

theorem exec_lda (h : HoldsA s ra x) (hok : Access.Ok s ⟨addrOf (address16 x imm), 4, 4⟩) :
    exec (.lda ad ra imm) s = .next (advance (writeA s ad (s.mem.load 32 (addrOf (address16 x imm))))) := by
  have passes := (checkAccess_ok s _ _ _).2 hok
  simp only [exec, execLda, readA_holds s ra x h, passes, ok_bind, pure_check, conclude_ok]

theorem exec_csrr (ad : AReg) (c : Csr) (s : State) :
    exec (.csrr ad c) s = .next (advance (writeA s ad (csrValue s c))) := rfl

theorem exec_csrw {c : Csr} (hc : c.writable = true) (h : HoldsA s ra x) :
    exec (.csrw ra c) s = .next (advance (writeCsr s x c)) := by
  have legal := requireLegal_wellFormed (.csrw ra c) hc
  simp only [exec, execCsrw, legal, readA_holds s ra x h, ok_bind, pure_check, conclude_ok]

/-- A command that writes one address register and goes on: the value it writes has the property asked for, pc goes up
by 4 and nothing else changes. -/
theorem completes_writeA {i : Instr} {v : Word} {P : Word → Prop}
    (he : exec i s = .next (advance (writeA s ad v))) (hv : P v) :
    ∃ t y, exec i s = .next t ∧ t.pc = s.pc + 4#32 ∧ HoldsA t ad y ∧ P y ∧ Frame (onlyA ad) noHalf noByte s t :=
  ⟨_, v, he, rfl, holdsA_writeA s ad v, hv, frame_writeA s ad v⟩

end Answers

/-! ### Control registers by number (10_state.md R29, R30) -/

theorem ofNumber_number (c : Csr) : Csr.ofNumber c.number = some c := by cases c <;> rfl

theorem number_of_ofNumber {k : Nat} {c : Csr} (h : Csr.ofNumber k = some c) : c.number = k := by
  unfold Csr.ofNumber at h
  split at h <;> cases h <;> rfl

theorem hostCsrValue_advance (s : State) (d : Csr) (hd : d ≠ .pc) : hostCsrValue (advance s) d = hostCsrValue s d := by
  cases d
  case pc => exact absurd rfl hd
  all_goals rfl

theorem hostCsrValue_writeCsr_same (s : State) (v : Word) (c : Csr) (hc : c.writable = true) :
    hostCsrValue (writeCsr s v c) c = v := by
  revert hc
  cases c <;> simp [hostCsrValue, Csr.writable]

theorem hostCsrValue_writeCsr_other (s : State) (v : Word) (c d : Csr) (hd : c ≠ d) :
    hostCsrValue (writeCsr s v c) d = hostCsrValue s d := by
  cases d <;> simp [hostCsrValue, hd]

theorem hostReadRegister_number (s : State) (c : Csr) : hostReadRegister s c.number = hostCsrValue s c := by
  simp [hostReadRegister, ofNumber_number]

/-- Two states that agree on the control register of number k, where it has one, read alike there. -/
theorem hostReadRegister_congr {s t : State} {k : Nat}
    (h : ∀ d : Csr, d.number = k → hostCsrValue t d = hostCsrValue s d) :
    hostReadRegister t k = hostReadRegister s k := by
  unfold hostReadRegister
  cases hk : Csr.ofNumber k with
  | none => rfl
  | some d => exact h d (number_of_ofNumber hk)

/-! ### pc (40_control_address.md R134) -/

/-- The pc after a command that neither faults nor halts is aligned where pc is: each target is 4 times an immediate away. -/
theorem nextPc_aligned (s : State) (i : Instr) (h : s.pc.toNat % 4 = 0) : (nextPc s i).toNat % 4 = 0 := by
  have next := aligned_add_four s.pc h
  unfold nextPc
  split
  case h_1 imm => exact aligned_of_signed_sum s.pc _ _ h (toNat_target24 s.pc imm)
  case h_2 ad imm =>
    split
    · exact next
    · exact aligned_of_signed_sum s.pc _ _ h (toNat_target16 s.pc imm)
  case h_3 => exact next

/-- A command keeps an aligned pc aligned, in each way it can end. -/
theorem exec_pc_aligned (i : Instr) (s t : State) (h : s.pc.toNat % 4 = 0) (he : exec i s = .next t) :
    t.pc.toNat % 4 = 0 := by
  rcases exec_cases i s t he with ⟨f, rfl⟩ | ⟨-, rfl⟩ | eff
  · exact h
  · exact h
  · rw [eff.pc]
    exact nextPc_aligned s i h

/-- A DBNZ that does not fault leaves its decremented counter in its register. -/
theorem dbnz_counter {ad : AReg} {imm : BitVec 16} {s t : State} (he : exec (.dbnz ad imm) s = .next t)
    (hf : t.status ≠ .fault) : t.a[ad].data = s.a[ad].data - 1#32 := by
  by_cases hv : s.a[ad].valid = true
  · have holds : HoldsA s ad s.a[ad].data := (readA_eq_ok s ad _).1 (readA_valid s ad hv)
    rw [exec_dbnz holds] at he
    injection he with he
    have written : HoldsA t ad (s.a[ad].data - 1#32) := he ▸ holdsA_writeA s ad _
    exact congrArg Slot.data written
  · obtain ⟨f, faults⟩ := exec_dbnz_invalid (imm := imm) hv
    rw [faults] at he
    injection he with he
    exact absurd (he ▸ takeFault_status s f) hf

/-! ### The statements -/

/-- Settles O12: outside RUN the engine's turn keeps pc; in RUN fault entry keeps it and a command keeps it aligned. -/
theorem enginePcStaysAligned : Obligations.EnginePcStaysAligned := by
  intro s t engine aligned hstep
  rcases step_cases s t hstep with ⟨-, -, rfl⟩ | ⟨-, -, ⟨f, rfl⟩ | ⟨i, -, -, he⟩⟩ | ⟨m, host, -⟩
  · exact aligned
  · exact aligned
  · exact exec_pc_aligned i { s with turns := s.turns.tail } t aligned he
  · rw [engine] at host
    cases host

/-- Settles O13, by the three ways a command can end; a command with an effect has pc = `nextPc`, which is R134's list. -/
theorem pcChangesOnlyAsListed : Obligations.PcChangesOnlyAsListed := by
  intro i s t running he
  rcases exec_cases i s t he with ⟨f, rfl⟩ | ⟨rfl, rfl⟩ | eff
  · exact ⟨fun _ => rfl, fun hf => absurd rfl hf⟩
  · exact ⟨fun _ => rfl, fun _ => rfl⟩
  · have completes : t.status ≠ .fault := by rw [eff.status, running]; decide
    refine ⟨fun hf => absurd hf completes, fun _ => ?_⟩
    have pc := eff.pc
    cases i
    case halt =>
      injection he with he
      subst he
      rfl
    case jmp imm => exact pc.trans (target24_eq s.pc imm)
    case dbnz ad imm =>
      show t.pc = if t.a[ad].data = 0#32 then s.pc + 4#32 else s.pc + BitVec.ofInt 32 (4 * imm.toInt)
      rw [dbnz_counter he completes, ← target16_eq]
      exact pc
    all_goals exact pc

/-- Settles O27. -/
theorem jmpSetsPc : Obligations.JmpSetsPc :=
  fun imm s => ⟨_, exec_jmp imm s, toNat_target24 s.pc imm, frame_withPc _ (frame_advance s)⟩

/-- Settles O28: the branch is taken exactly where the decremented counter is not zero. -/
theorem dbnzCountsAndBranches : Obligations.DbnzCountsAndBranches := by
  intro ad imm s x hx
  refine ⟨_, x - 1#32, exec_dbnz hx, toNat_sub_one x, holdsA_writeA s ad _, fun taken => ?_, fun untaken => ?_,
    frame_withPc _ (frame_writeA s ad _)⟩
  · rw [if_neg taken]
    exact toNat_target16 s.pc imm
  · exact if_pos untaken

/-- Settles O29: LAI leaves the lower half in a valid register, so the LAHI after it completes and joins the two. -/
theorem laiAndLahiLoadConstants : Obligations.LaiAndLahiLoadConstants := by
  refine ⟨fun ad imm s => completes_writeA (exec_lai ad imm s) (BitVec.toNat_setWidth_of_le (by decide)),
    fun ad imm s x hx => completes_writeA (exec_lahi hx) (toNat_replaceUpper imm x), fun ad c s => ?_⟩
  have low := holdsA_writeA s ad ((c.extractLsb' 0 16).setWidth 32)
  refine ⟨_, _, exec_lai ad _ s, exec_lahi low, ?_, ?_⟩
  · rw [replaceUpper_halves]
    exact holdsA_writeA _ ad c
  · exact BitVec.add_assoc s.pc 4#32 4#32

/-- Settles O30; the sources are read before the write, so no case of equal registers is special. -/
theorem addressAdditions : Obligations.AddressAdditions :=
  ⟨fun _ _ imm _ x hx => completes_writeA (exec_addai hx) (toNat_address16 x imm),
    fun _ _ _ _ x y hx hy => completes_writeA (exec_adda hx hy) (BitVec.toNat_add x y)⟩

/-- Settles O31. -/
theorem ldaLoadsADword : Obligations.LdaLoadsADword :=
  fun _ _ _ s _ hx hok => completes_writeA (exec_lda hx hok) (wordAt_eq s _).symm

/-- Settles O32: the value is `csrValue`, register by register. -/
theorem csrrReadsAControlRegister : Obligations.CsrrReadsAControlRegister := by
  intro ad c s
  refine ⟨_, exec_csrr ad c s, rfl, ?_, frame_writeA s ad _⟩
  have written := holdsA_writeA s ad (csrValue s c)
  cases c <;> exact written

/-- Settles O33: the write is seen at its own number, and at no other but PC's. -/
theorem csrwWritesAControlRegister : Obligations.CsrwWritesAControlRegister := by
  intro ra c s x hc hx
  have not_pc : c ≠ .pc := fun e => by rw [e] at hc; cases hc
  refine ⟨_, exec_csrw hc hx, by simp, ?_, fun k hk hpc => hostReadRegister_congr fun d hd => ?_, by simp,
    frameOfData_writeCsr s x c⟩
  · rw [hostReadRegister_number, hostCsrValue_advance _ c not_pc, hostCsrValue_writeCsr_same s x c hc]
  · have other : c ≠ d := fun e => hk (e ▸ hd.symm)
    have d_not_pc : d ≠ .pc := fun e => hpc (by rw [← hd, e]; rfl)
    rw [hostCsrValue_advance _ d d_not_pc, hostCsrValue_writeCsr_other s x c d other]

/-- Settles O25. -/
theorem nopAndHaltComplete : Obligations.NopAndHaltComplete :=
  fun s => ⟨⟨advance s, rfl, rfl, frame_advance s⟩,
    ⟨{ s with status := .done }, rfl, rfl, rfl, rfl, frameOfData_withStatus s .done, sameControl_refl s, rfl, rfl, rfl⟩⟩

end Sys2Proof.ControlAddress
end

section
/-! PROOFS. The register transposes (spec/45_register_transpose.md): what each command leaves in the registers when its
sources are valid, and that the value functions undo themselves. -/

namespace Sys2Proof.RegisterTranspose

open Sys2Proof Sys2Proof.Machine

/-! ### Register groups (30_encoding.md R93, 45_register_transpose.md R243) -/

section Groups

variable {first : VReg} {logStride count : Nat}

/-- The register that has the number of the k-th of a group that fits is the k-th register of the group. -/
theorem groupReg_eq (fits : groupFits first logStride count = true) {k : Nat} (hk : k < count) {n : VReg}
    (hn : n.val = first.val + k * 2 ^ logStride) : groupReg first logStride k = n :=
  Fin.ext ((groupReg_val first logStride count k fits hk).trans hn.symm)

theorem mem_groupRegs (fits : groupFits first logStride count = true) (n : VReg) :
    n ∈ groupRegs first logStride count ↔ ∃ k < count, n.val = first.val + k * 2 ^ logStride := by
  simp only [groupRegs, List.mem_map, List.mem_range]
  constructor
  · rintro ⟨k, hk, rfl⟩
    exact ⟨k, hk, groupReg_val first logStride count k fits hk⟩
  · rintro ⟨k, hk, hn⟩
    exact ⟨k, hk, groupReg_eq fits hk hn⟩

theorem getElem_groupRegs {k : Nat} (hk : k < (groupRegs first logStride count).length) :
    (groupRegs first logStride count)[k] = groupReg first logStride k := by
  simp [groupRegs]

/-- A list made from a group that fits, read at the place of a register. -/
theorem getD_map_groupRegs {α : Type} (fits : groupFits first logStride count = true) (f : VReg → α) (d : α) {k : Nat}
    (hk : k < count) {n : VReg} (hn : n.val = first.val + k * 2 ^ logStride) :
    ((groupRegs first logStride count).map f).getD k d = f n := by
  rw [groupRegs, List.map_map, getD_map_range _ _ _ _ hk, Function.comp_apply, groupReg_eq fits hk hn]

end Groups

/-- A group transpose between two groups that fit, with valid sources: register k of the destination group gets value k
of `f` on the source group as it was before, in each lane the width names, and nothing else changes. -/
theorem groupTranspose_completes {f : List Half → List Half} {vd vs : VReg} {ds ss count : Nat} {w : Width} {s : State}
    (length : ∀ xs, (f xs).length = count) (fitsD : groupFits vd ds count = true) (fitsS : groupFits vs ss count = true)
    (valid : ∀ n h, groupHalves vs ss count w n h → (half s n h).valid = true) :
    ∃ t, groupTranspose f (groupRegs vd ds count) (groupRegs vs ss count) w s = .ok t ∧ t.pc = s.pc + 4#32 ∧
      (∀ h, UsesLane w h → ∀ k < count, ∀ n : VReg, n.val = vd.val + k * 2 ^ ds →
        half t n h = ⟨(f ((groupRegs vs ss count).map fun m => (half s m h).data)).getD k 0#128, true⟩) ∧
      Frame noA (groupHalves vd ds count w) noByte s t := by
  obtain ⟨t, he, hpc, written, frame⟩ := groupTranspose_ok f (groupRegs vd ds count) (groupRegs vs ss count) w s
    (fun xs => by rw [length, length_groupRegs]) (groupRegs_nodup vd ds count fitsD)
    (fun n hn h hl => valid n h ⟨(mem_groupRegs fitsS n).1 hn, hl⟩)
  refine ⟨t, he, hpc, fun h hl k hk n hn => ?_, ?_⟩
  · have hk' : k < (groupRegs vd ds count).length := by rwa [length_groupRegs]
    have := written h hl k hk'
    rwa [getElem_groupRegs hk', groupReg_eq fitsD hk hn] at this
  · simpa only [mem_groupRegs fitsD] using frame

/-- A well-formed command passes the decode-time check and ends as the rest of its checks do (00_scope.md R13). -/
theorem conclude_legal {i : Instr} {s t : State} {c : Check State} (legal : i.wellFormed = true) (h : c = .ok t) :
    conclude s (requireLegal i >>= fun _ => c) = .next t := by
  rw [requireLegal_wellFormed i legal, ok_bind, h, conclude_ok]

/-! ### The whole register file (45_register_transpose.md R250) -/

/-- The 32 registers are the group from V0 up. -/
theorem allRegs_fit : groupFits 0 0 32 = true := by decide

theorem getElem_allRegs (n : VReg) (hn : n.val < (groupRegs 0 0 32).length) : (groupRegs 0 0 32)[n.val] = n := by
  rw [getElem_groupRegs hn]
  exact groupReg_eq allRegs_fit n.isLt (by simp)

theorem getD_map_allRegs {α : Type} (f : VReg → α) (n : VReg) (d : α) : ((groupRegs 0 0 32).map f).getD n.val d = f n :=
  getD_map_groupRegs allRegs_fit f d n.isLt (by simp)

/-- The 256 bits of a register, h[1] above h[0] (10_state.md R24). -/
def regValue (s : State) (n : VReg) : Vec := vecOfHalves (half s n .h0).data (half s n .h1).data

theorem byteOf_regValue (s : State) (n : VReg) {k : Nat} (hk : k < 32) : byteOf (regValue s n) k = byteOfReg s n k := by
  rw [regValue, byteOf_vecOfHalves _ _ _ hk, byteOfReg]
  split
  · rw [Nat.mod_eq_of_lt ‹_›]
  · rw [show k % 16 = k - 16 by omega]

/-- The state TRN32B leaves, from the values of the 32 registers before it. -/
def registerFileWritten (s : State) (out : List Vec) : State :=
  advance (writeGroup (writeGroup s .h0 ((groupRegs 0 0 32).zip (out.map lowHalf))) .h1
    ((groupRegs 0 0 32).zip (out.map highHalf)))

theorem exec_trn32b (s : State) (valid : ∀ n h, (half s n h).valid = true) :
    exec .trn32b s = .next (registerFileWritten s (trn32bRows ((groupRegs 0 0 32).map (regValue s)))) := by
  have read := readGroupBoth_valid s (groupRegs 0 0 32) (fun n _ h => valid n h)
  simp only [exec, execTrn32b, read, ok_bind, pure_check, conclude_ok, List.map_map]
  rfl

/-- Each register holds its value, in two valid halves. -/
theorem half_registerFileWritten (s : State) (out : List Vec) (hlen : out.length = 32) (n : VReg) :
    half (registerFileWritten s out) n .h0 = ⟨lowHalf (out.getD n.val 0#256), true⟩ ∧
      half (registerFileWritten s out) n .h1 = ⟨highHalf (out.getD n.val 0#256), true⟩ := by
  have nodup := groupRegs_nodup 0 0 32 allRegs_fit
  have bound : n.val < (groupRegs 0 0 32).length := by rw [length_groupRegs]; exact n.isLt
  have lanes : ∀ f : Vec → Half, (out.map f).length = (groupRegs 0 0 32).length := fun f => by
    rw [List.length_map, hlen, length_groupRegs]
  have lane : ∀ f : Vec → Half, (out.map f).getD n.val 0#128 = f (out.getD n.val 0#256) := fun f => by
    simp [List.getD_eq_getElem?_getD, hlen]
  have low := (half_writeGroup_zip s .h0 _ _ nodup (lanes lowHalf) n .h0).1 n.val bound
  obtain ⟨written, kept⟩ := half_writeGroup_zip
    (writeGroup s .h0 ((groupRegs 0 0 32).zip (out.map lowHalf))) .h1 _ _ nodup (lanes highHalf) n .h0
  have high := written n.val bound
  rw [getElem_allRegs n bound, lane] at low high
  rw [registerFileWritten, half_advance, half_advance, kept (by simp)]
  exact ⟨low, high⟩

theorem regValue_registerFileWritten (s : State) (out : List Vec) (hlen : out.length = 32) (n : VReg) :
    regValue (registerFileWritten s out) n = out.getD n.val 0#256 := by
  obtain ⟨low, high⟩ := half_registerFileWritten s out hlen n
  rw [regValue, low, high, vecOfHalves_lanes]

theorem frame_registerFileWritten (s : State) (out : List Vec) :
    Frame noA (fun _ _ => True) noByte s (registerFileWritten s out) := by
  refine frame_of_halves _ _ _ (fun _ _ hn => absurd trivial hn) ?_
  unfold registerFileWritten
  rw [only_halves_writeGroup s _ .h1 _ (only_halves_writeGroup s s .h0 _ rfl)]
  rfl

/-! ### Lists of rows, told by their lanes -/

/-- Two lists of the same length are equal when they agree at each place. -/
theorem eq_of_getD {α : Type} {count : Nat} {xs ys : List α} (d : α) (hx : xs.length = count) (hy : ys.length = count)
    (h : ∀ i < count, xs.getD i d = ys.getD i d) : xs = ys :=
  List.ext_getElem (hx.trans hy.symm) fun i hi hi' => by
    simpa [hi, hi'] using h i (hx ▸ hi)

theorem btrn4Half_btrn4Half (x : Half) : btrn4Half (btrn4Half x) = x := by
  apply eq_of_byteOf (by decide)
  intro i hi
  have column : i % 4 < 4 := Nat.mod_lt _ (by decide)
  have row : i / 4 < 4 := by omega
  rw [← Nat.div_add_mod i 4, byteOf_btrn4Half _ _ _ column row, byteOf_btrn4Half _ _ _ row column]

theorem trn4dRows_trn4dRows (rows : List Half) (h : rows.length = 4) : trn4dRows (trn4dRows rows) = rows :=
  eq_of_getD 0#128 (length_trn4dRows _) h fun i hi => eq_of_dwordOf _ _ fun j hj => by
    rw [dwordOf_trn4dRows _ i j hi hj, dwordOf_trn4dRows _ j i hj hi]

theorem trn16bRows_trn16bRows (rows : List Half) (h : rows.length = 16) : trn16bRows (trn16bRows rows) = rows :=
  eq_of_getD 0#128 (length_trn16bRows _) h fun j hj => eq_of_byteOf (by decide) _ _ fun i hi => by
    rw [byteOf_trn16bRows _ i j hi hj, byteOf_trn16bRows _ j i hj hi]

theorem trn32bRows_trn32bRows (rows : List Vec) (h : rows.length = 32) : trn32bRows (trn32bRows rows) = rows :=
  eq_of_getD 0#256 (length_trn32bRows _) h fun j hj => eq_of_byteOf (by decide) _ _ fun i hi => by
    rw [byteOf_trn32bRows _ i j hi hj, byteOf_trn32bRows _ j i hj hi]

theorem byteOf_trn8bRows_low (rows : List Half) {i j : Nat} (hi : i < 8) (hj : j < 8) :
    byteOf ((trn8bRows rows).getD j 0#128) i = byteOf (rows.getD i 0#128) j := by
  rw [byteOf_trn8bRows _ i j (by omega) hj, if_pos hi]

theorem byteOf_trn8bRows_high (rows : List Half) {i j : Nat} (hi : i < 8) (hj : j < 8) :
    byteOf ((trn8bRows rows).getD j 0#128) (8 + i) = 0#8 := by
  rw [byteOf_trn8bRows _ (8 + i) j (by omega) hj, if_neg (by omega)]

/-! ### The statements -/

/-- Settles O46: BTRN4 is the lane-wise command of `btrn4Half`. -/
theorem btrn4TransposesBytes : Obligations.Btrn4TransposesBytes := by
  intro vd vs w s valid
  obtain ⟨t, he, hpc, lanes, frame⟩ := lanewise1_ok btrn4Half vd vs w s valid
  refine ⟨t, congrArg (conclude s) he, hpc, fun h hl => ?_, frame⟩
  rw [lanes h hl]
  exact ⟨rfl, fun j hj k hk => byteOf_btrn4Half _ j k hj hk⟩

/-- Settles O47: the group transpose of `trn4dRows`; groups may overlap, as all values
written are of the state before. -/
theorem trn4dTransposesDwords : Obligations.Trn4dTransposesDwords := by
  intro vd vs ds ss w s legal valid
  obtain ⟨fitsD, fitsS⟩ : groupFits vd ds.val 4 = true ∧ groupFits vs ss.val 4 = true := (Bool.and_eq_true _ _).mp legal
  obtain ⟨t, he, hpc, written, frame⟩ := groupTranspose_completes length_trn4dRows fitsD fitsS valid
  refine ⟨t, conclude_legal legal he, hpc, fun h hl i hi n hn => ?_, frame⟩
  rw [written h hl i hi n hn]
  refine ⟨rfl, fun j hj m hm => ?_⟩
  rw [dwordOf_trn4dRows _ i j hi hj, getD_map_groupRegs fitsS _ _ hj hm]

/-- Settles O48: the group transposes of `trn8bRows` and `trn16bRows` between groups of consecutive registers. -/
theorem trn8bAndTrn16bTransposeBytes : Obligations.Trn8bAndTrn16bTransposeBytes := by
  refine ⟨fun vd vs s legal valid => ?_, fun vd vs w s legal valid => ?_⟩
  · obtain ⟨fitsD, fitsS⟩ : groupFits vd 0 8 = true ∧ groupFits vs 0 8 = true := (Bool.and_eq_true _ _).mp legal
    obtain ⟨t, he, hpc, written, frame⟩ := groupTranspose_completes length_trn8bRows fitsD fitsS valid
    refine ⟨t, conclude_legal legal he, hpc, fun j hj n hn => ?_, frame⟩
    rw [written .h0 (.inl rfl) j hj n (by omega)]
    refine ⟨rfl, fun i hi m hm => ?_, fun i hi => byteOf_trn8bRows_high _ hi hj⟩
    rw [byteOf_trn8bRows_low _ hi hj, getD_map_groupRegs fitsS _ _ hi (n := m) (by omega)]
  · obtain ⟨fitsD, fitsS⟩ : groupFits vd 0 16 = true ∧ groupFits vs 0 16 = true := (Bool.and_eq_true _ _).mp legal
    obtain ⟨t, he, hpc, written, frame⟩ := groupTranspose_completes length_trn16bRows fitsD fitsS valid
    refine ⟨t, conclude_legal legal he, hpc, fun h hl j hj n hn => ?_, frame⟩
    rw [written h hl j hj n (by omega)]
    refine ⟨rfl, fun i hi m hm => ?_⟩
    rw [byteOf_trn16bRows _ i j hi hj, getD_map_groupRegs fitsS _ _ hi (n := m) (by omega)]

/-- Settles O49: on whole registers TRN32B is `trn32bRows`, and every register is one of the 32 rows. -/
theorem trn32bTransposesTheRegisterFile : Obligations.Trn32bTransposesTheRegisterFile := by
  intro s valid
  have halves := half_registerFileWritten s _ (length_trn32bRows ((groupRegs 0 0 32).map (regValue s)))
  refine ⟨_, exec_trn32b s valid, by simp [registerFileWritten], fun n h => ?_, fun i j => ?_,
    frame_registerFileWritten s _⟩
  · cases h
    · rw [(halves n).1]
    · rw [(halves n).2]
  · rw [← byteOf_regValue _ j i.isLt, regValue_registerFileWritten s _ (length_trn32bRows _) j,
      byteOf_trn32bRows _ _ _ i.isLt j.isLt, getD_map_allRegs, byteOf_regValue s i j.isLt]

/-- Settles O51: each transpose exchanges the row and the lane, so that a second one exchanges them back. -/
theorem transposesAreInvolutions : Obligations.TransposesAreInvolutions := by
  refine ⟨btrn4Half_btrn4Half, trn4dRows_trn4dRows, trn16bRows_trn16bRows, trn32bRows_trn32bRows,
    fun rows _ j hj k hk => ⟨?_, byteOf_trn8bRows_high _ hk hj⟩⟩
  rw [byteOf_trn8bRows_low _ hk hj, byteOf_trn8bRows_low _ hj hk]

end Sys2Proof.RegisterTranspose
end

section
/-! PROOFS. Reset, the host's moves and the engine's progress (spec/70_reset_and_hazards.md): that a turn of the engine
always ends in a next state, what a reset and a launch leave, and what each host write and memory move does in each STATE. -/

namespace Sys2Proof.ResetAndHost

open Sys2Proof Sys2Proof.Machine Sys2Proof.ControlAddress

/-! ### Progress of the engine (R346) -/

/-- Every meaning ends in `conclude`: no arm of the dispatch stops the model by itself. -/
theorem exec_eq_conclude (i : Instr) (s : State) : ∃ r, exec i s = conclude s r := by
  cases i
  case nop => exact ⟨.ok (advance s), rfl⟩
  case halt => exact ⟨.ok { s with status := .done }, rfl⟩
  case abort imm => exact ⟨raise .softwareAbort imm.toNat, rfl⟩
  case jmp imm => exact ⟨.ok { s with pc := target24 s.pc imm }, rfl⟩
  case lai ad imm => exact ⟨.ok (advance (writeA s ad (imm.setWidth 32))), rfl⟩
  case csrr ad c => exact ⟨.ok (advance (writeA s ad (csrValue s c))), rfl⟩
  all_goals exact ⟨_, rfl⟩

theorem exec_total (i : Instr) (s : State) : ∃ t, exec i s = .next t := by
  obtain ⟨r, ends⟩ := exec_eq_conclude i s
  rw [ends]
  exact conclude_total s r

/-- A fetch that fails and a word that is no command are fault entries; any other word is a command that is executed. -/
theorem runCommand_total (s : State) : ∃ t, runCommand s = .next t := by
  rcases fetch_cases s with ⟨fetchable, -⟩ | ⟨f, failed⟩
  · cases word : decode (fetchedWord s) with
    | ok i =>
      rw [runCommand_decoded s i fetchable word]
      exact exec_total i s
    | error e => exact ⟨_, runCommand_illegal s e fetchable word⟩
  · exact ⟨_, runCommand_unfetched s f failed⟩

/-! ### Reset and launch (R330, 10_state.md R32, R48) -/

theorem reset_noValidBits : NoValidBits State.reset :=
  ⟨fun _ => by simp [State.reset], fun _ h => by cases h <;> simp [half, State.reset]⟩

theorem resetEngine_isReset (s : State) : IsReset s (resetEngine s) := by
  have invalid : NoValidBits (resetEngine s) :=
    ⟨reset_noValidBits.1, fun n h => by cases h; exacts [reset_noValidBits.2 n .h0, reset_noValidBits.2 n .h1]⟩
  exact ⟨invalid, rfl, rfl, rfl, rfl, rfl, rfl, rfl, rfl, rfl, rfl, rfl, rfl, rfl, rfl, rfl, rfl⟩

theorem launch_isLaunched (s : State) : IsLaunched s (launch s) := by
  have invalid : NoValidBits (launch s) := by
    obtain ⟨address, vector⟩ := valid_invalidate s
    exact ⟨address, fun n h => by cases h; exacts [vector n .h0, vector n .h1]⟩
  exact ⟨invalid, rfl, rfl, ⟨rfl, rfl, rfl, rfl, rfl, rfl⟩, ⟨rfl, rfl, rfl⟩, rfl, rfl, rfl⟩

/-! ### Host writes of CTRL (R339, 10_state.md R32) -/

/-- A register write always answers a next state, the one `hostWriteRegister` gives. -/
theorem hostStep_writeRegister {s t : State} {k : Nat} {v : Word} (h : hostWriteRegister s k v = t) :
    hostStep (.writeRegister k v) s = .next t :=
  congrArg Host.Outcome.next h

/-- Register 1 is CTRL (10_state.md R29). -/
theorem hostStep_writeCtrl {s t : State} {v : Word} (h : hostWriteCtrl s v = t) :
    hostStep (.writeRegister 1 v) s = .next t :=
  hostStep_writeRegister (k := 1) h

theorem hostMayWrite_eq_false_iff (s : State) : hostMayWrite s = false ↔ s.status = .run ∨ s.status = .fault := by
  cases h : s.status <;> simp [hostMayWrite, h]

section Ctrl

variable {s : State} {v : Word}

theorem hostWriteCtrl_reset (rst : v.getLsbD 1 = true) : hostWriteCtrl s v = resetEngine s := if_pos rst

theorem hostWriteCtrl_noReset (rst : v.getLsbD 1 = false) :
    hostWriteCtrl s v = if v.getLsbD 0 && hostMayWrite s then launch s else s :=
  if_neg (by rw [rst]; exact Bool.false_ne_true)

theorem hostWriteCtrl_launch (rst : v.getLsbD 1 = false) (go : v.getLsbD 0 = true) (may : hostMayWrite s = true) :
    hostWriteCtrl s v = launch s := by
  rw [hostWriteCtrl_noReset rst, go, may]
  rfl

theorem hostWriteCtrl_ignored (rst : v.getLsbD 1 = false) (no : v.getLsbD 0 = false ∨ hostMayWrite s = false) :
    hostWriteCtrl s v = s := by
  have refused : (v.getLsbD 0 && hostMayWrite s) = false := Bool.and_eq_false_iff.2 no
  rw [hostWriteCtrl_noReset rst, refused]
  rfl

end Ctrl

/-! ### Host writes of the other registers (R339, 10_state.md R30) -/

/-- The numbers R339 lists as read-write are those of the registers that can be written. -/
theorem exists_writable_of_mem {k : Nat} (hk : k ∈ [6, 8, 9, 10, 11, 12]) : ∃ c : Csr, c.writable = true ∧ c.number = k := by
  simp only [List.mem_cons, List.not_mem_nil, or_false] at hk
  rcases hk with rfl | rfl | rfl | rfl | rfl | rfl
  · exact ⟨.entry, rfl, rfl⟩
  · exact ⟨.src, rfl, rfl⟩
  · exact ⟨.len, rfl, rfl⟩
  · exact ⟨.dstp, rfl, rfl⟩
  · exact ⟨.n, rfl, rfl⟩
  · exact ⟨.l, rfl, rfl⟩

theorem hostWriteRegister_writable (s : State) (v : Word) {c : Csr} (hc : c.writable = true) :
    hostWriteRegister s c.number v = if hostMayWrite s then writeCsr s v c else s := by
  cases c
  case entry | src | len | dstp | n | l => rfl
  all_goals cases hc

theorem hostWriteRegister_ignored (s : State) (v : Word) {k : Nat} (hk : k ∉ [1, 6, 8, 9, 10, 11, 12]) :
    hostWriteRegister s k v = s := by
  unfold hostWriteRegister
  cases register : Csr.ofNumber k with
  | none => rfl
  | some c =>
    obtain rfl := number_of_ofNumber register
    cases c
    case ctrl | entry | src | len | dstp | n | l => exact absurd (by decide) hk
    all_goals rfl

/-- A store in a control register is seen in no address register, half or byte of memory. -/
theorem frameOfData_store (s : State) (v : Word) (c : Csr) : FrameOfData noA noHalf noByte s (writeCsr s v c) :=
  ⟨fun _ _ => by simp, fun _ _ _ => by simp, fun _ _ => by simp, by simp, by simp⟩

/-! ### Host memory moves (R336, R337) -/

section Memory

variable {s : State} {a count : Nat} {u : State}

theorem hostMemory_refused (running : s.status = .run) : hostMemory s a count u = .refused .hostMemoryDuringRun :=
  if_pos running

theorem hostMemory_done (stopped : s.status ≠ .run) (inside : ∀ k < count, inMem s (a + k) = true) :
    hostMemory s a count u = .next u := by
  rw [hostMemory, if_neg stopped, (firstMissing_none s a count).2 inside]

theorem hostMemory_outside {x : Nat} (stopped : s.status ≠ .run) (lowest : LowestMissing s a count x) :
    hostMemory s a count u = .fault (.hostOutsideMemory x) := by
  rw [hostMemory, if_neg stopped, (firstMissing_some s a count x).2 lowest]

end Memory

/-- A write of bytes changes no byte outside its range, and nothing else. -/
theorem frame_writeBytes (s : State) (a : Nat) (bs : List Byte) :
    Frame noA noHalf (bytesAt a bs.length) s { s with mem := s.mem.writeBytes a bs } := by
  have bytes : SameBytesBut (bytesAt a bs.length) s { s with mem := s.mem.writeBytes a bs } := fun x outside =>
    (read_writeBytes s.mem a bs x).trans (if_neg outside)
  exact ⟨⟨fun _ _ => rfl, fun _ h _ => by cases h <;> rfl, bytes, rfl, rfl⟩, ⟨rfl, rfl, rfl, rfl, rfl, rfl⟩, rfl, rfl,
    rfl, rfl⟩

theorem readByte_writeBytes (s : State) (a : Nat) (bs : List Byte) {k : Nat} (hk : k < bs.length) :
    readByte { s with mem := s.mem.writeBytes a bs } (a + k) = bs.getD k 0#8 := by
  rw [readByte, read_writeBytes, if_pos ⟨Nat.le_add_right a k, Nat.add_lt_add_left hk a⟩, Nat.add_sub_cancel_left]

/-! ### The statements -/

/-- Settles O7: a command ends in `conclude`, and the engine's turn in RUN is fault entry or a command. -/
theorem engineInRunAlwaysSteps : Obligations.EngineInRunAlwaysSteps := by
  refine ⟨exec_total, fun s running engine => ?_⟩
  have turn : step s = runCommand { s with turns := s.turns.tail } :=
    (step_engine s engine).trans (engineStep_run _ running)
  rw [turn]
  exact runCommand_total _

/-- Settles O21: both resets are `resetEngine`, which leaves the machine's reset state as it is. -/
theorem resetSetsEveryPieceOfState : Obligations.ResetSetsEveryPieceOfState := by
  refine ⟨fun s => ⟨resetEngine s, rfl, resetEngine_isReset s, rfl, fun v rst => ?_⟩, resetEngine_isReset State.reset⟩
  exact hostStep_writeCtrl (hostWriteCtrl_reset rst)

/-- Settles O22: CTRL by its two bits and STATE, a read-write register by STATE, and no effect for any other number. -/
theorem hostRegisterWritesByState : Obligations.HostRegisterWritesByState := by
  intro s k v
  refine ⟨fun ctrl rst => ?_, fun ctrl rst go status => ?_, fun ctrl rst no => ?_, fun readWrite status => ?_,
    fun readWrite status => ?_, fun other => hostStep_writeRegister (hostWriteRegister_ignored s v other)⟩
  · subst ctrl
    exact ⟨_, hostStep_writeCtrl (hostWriteCtrl_reset rst), resetEngine_isReset s⟩
  · subst ctrl
    exact ⟨_, hostStep_writeCtrl (hostWriteCtrl_launch rst go ((hostMayWrite_iff s).2 status)), launch_isLaunched s⟩
  · subst ctrl
    exact hostStep_writeCtrl (hostWriteCtrl_ignored rst (no.imp_right (hostMayWrite_eq_false_iff s).2))
  · obtain ⟨c, writable, rfl⟩ := exists_writable_of_mem readWrite
    have stored : hostWriteRegister s c.number v = writeCsr s v c := by
      rw [hostWriteRegister_writable s v writable, if_pos ((hostMayWrite_iff s).2 status)]
    refine ⟨_, hostStep_writeRegister stored, ?_, fun j hj => hostReadRegister_congr fun d hd => ?_, writeCsr_status s v c,
      frameOfData_store s v c⟩
    · rw [hostReadRegister_number, hostCsrValue_writeCsr_same s v c writable]
    · exact hostCsrValue_writeCsr_other s v c d fun same => hj (by rw [← hd, same])
  · obtain ⟨c, writable, rfl⟩ := exists_writable_of_mem readWrite
    have ignored : hostWriteRegister s c.number v = s := by
      rw [hostWriteRegister_writable s v writable, (hostMayWrite_eq_false_iff s).2 status, if_neg Bool.false_ne_true]
    exact hostStep_writeRegister ignored

/-- Settles O24: both moves are `hostMemory`, which asks for STATE first and then for the lowest address outside MEM. -/
theorem hostMemoryMoves : Obligations.HostMemoryMoves := by
  intro s a count bytes
  refine ⟨fun running => ⟨hostMemory_refused running, hostMemory_refused running⟩,
    fun stopped inside => hostMemory_done stopped inside, fun stopped inside => ?_,
    fun x stopped lowest => hostMemory_outside stopped lowest, fun x stopped lowest => hostMemory_outside stopped lowest⟩
  exact ⟨_, hostMemory_done stopped inside, rfl, fun k hk => readByte_writeBytes s a bytes hk, frame_writeBytes s a bytes⟩

end Sys2Proof.ResetAndHost
end

section
/-! PROOFS. The encoding of commands (spec/30_encoding.md): each format's word told by its fields, the decoder and the
encoder as inverses of one another, and the words of the opcode table. -/

namespace Sys2Proof.Encoding

open Sys2Proof Sys2Proof.Machine Sys2Proof.ControlAddress Sys2Proof.ResetAndHost

/-! ### A word is told by its fields (R92) -/

section Fields

variable {w : Word} {lo : Nat}

theorem append_eq_field {m n : Nat} (x : BitVec m) (y : BitVec n) :
    x ++ y = field w lo (m + n) ↔ x = field w (lo + n) m ∧ y = field w lo n := by
  have split : field w lo (m + n) = field w (lo + n) m ++ field w lo n :=
    (BitVec.extractLsb'_append_extractLsb'_eq_extractLsb' rfl).symm
  rw [split]
  constructor
  · intro h
    have high := congrArg (BitVec.extractLsb' n m) h
    have low := congrArg (BitVec.extractLsb' 0 n) h
    rw [BitVec.extractLsb'_append_eq_left, BitVec.extractLsb'_append_eq_left] at high
    rw [BitVec.extractLsb'_append_eq_right, BitVec.extractLsb'_append_eq_right] at low
    exact ⟨high, low⟩
  · rintro ⟨rfl, rfl⟩
    rfl

theorem eq_word_iff (x : Word) : x = w ↔ x = field w 0 32 := by
  rw [field, BitVec.extractLsb'_eq_self]

theorem ofFin_eq_field {n : Nat} (r : Fin (2 ^ n)) : BitVec.ofFin r = field w lo n ↔ r = (field w lo n).toFin :=
  ⟨congrArg BitVec.toFin, congrArg BitVec.ofFin⟩

theorem aBits_eq_field (r : AReg) : aBits r = field w lo 3 ↔ r = aField w lo := ofFin_eq_field (n := 3) r

theorem vBits_eq_field (r : VReg) : vBits r = field w lo 5 ↔ r = vField w lo := ofFin_eq_field (n := 5) r

theorem ofBit_bit (x : Width) : Width.ofBit x.bit = x := by cases x <;> rfl

theorem bit_ofBit (b : BitVec 1) : (Width.ofBit b).bit = b := by revert b; decide

theorem widthBit_eq_field (x : Width) : x.bit = field w lo 1 ↔ x = wField w lo :=
  ⟨fun h => by rw [wField, ← h, ofBit_bit], fun h => by rw [h, wField, bit_ofBit]⟩

theorem laneBit_eq (x : Lane) (b : BitVec 1) : x.bit = b ↔ x = Lane.ofBit b := by revert b; cases x <;> decide

theorem ofNat_eq_field {len n : Nat} (hn : n < 2 ^ len) : BitVec.ofNat len n = field w lo len ↔ n = (field w lo len).toNat :=
  ⟨fun h => by rw [← h, BitVec.toNat_ofNat, Nat.mod_eq_of_lt hn], fun h => by rw [h, BitVec.ofNat_toNat, BitVec.setWidth_eq]⟩

end Fields

theorem csr_number_lt (c : Csr) : c.number < 2 ^ 8 := by cases c <;> decide

theorem csr_ofNumber_iff (k : Nat) (c : Csr) : Csr.ofNumber k = some c ↔ c.number = k :=
  ⟨number_of_ofNumber, fun h => h ▸ ofNumber_number c⟩

theorem strategy_number_lt (st : Strategy) : st.number < 2 ^ 4 := by cases st <;> decide

theorem strategy_ofNumber_iff (k : Nat) (st : Strategy) : Strategy.ofNumber k = some st ↔ st.number = k := by
  constructor
  · intro h
    unfold Strategy.ofNumber at h
    split at h <;> cases h <;> rfl
  · rintro rfl
    cases st <;> rfl

/-! ### The words of each format, by their fields (R92) -/

section Formats

variable (op : BitVec 8) (ad ra rb : AReg) (vd va vb : VReg) (x : Width) (w : Word)

theorem encodeZ_eq_iff : encodeZ op = w ↔ op = field w 24 8 ∧ 0#24 = field w 0 24 := by
  rw [eq_word_iff, encodeZ, append_eq_field (m := 8) (n := 24)]

theorem encodeI24_eq_iff (imm : BitVec 24) : encodeI24 op imm = w ↔ op = field w 24 8 ∧ imm = field w 0 24 := by
  rw [eq_word_iff, encodeI24, append_eq_field (m := 8) (n := 24)]

theorem encodeAI1_eq_iff (imm : BitVec 16) : encodeAI1 op ad imm = w ↔
    op = field w 24 8 ∧ ad = aField w 21 ∧ 0#5 = field w 16 5 ∧ imm = field w 0 16 := by
  rw [eq_word_iff, encodeAI1, append_eq_field (m := 8 + 3 + 5) (n := 16), append_eq_field, append_eq_field, aBits_eq_field]
  simp only [and_assoc]

theorem encodeAI2_eq_iff (imm : BitVec 16) : encodeAI2 op ad ra imm = w ↔
    op = field w 24 8 ∧ ad = aField w 21 ∧ ra = aField w 18 ∧ 0#2 = field w 16 2 ∧ imm = field w 0 16 := by
  rw [eq_word_iff, encodeAI2, append_eq_field (m := 8 + 3 + 3 + 2) (n := 16), append_eq_field, append_eq_field,
    append_eq_field, aBits_eq_field, aBits_eq_field]
  simp only [and_assoc]

theorem encode_adda_eq_iff : encode (.adda ad ra rb) = w ↔
    0x13#8 = field w 24 8 ∧ ad = aField w 21 ∧ ra = aField w 18 ∧ rb = aField w 15 ∧ 0#15 = field w 0 15 := by
  rw [eq_word_iff, encode, append_eq_field (m := 8 + 3 + 3 + 3) (n := 15), append_eq_field, append_eq_field,
    append_eq_field, aBits_eq_field, aBits_eq_field, aBits_eq_field]
  simp only [and_assoc]

theorem encodeC_eq_iff (c : Csr) : encodeC op ad c = w ↔
    op = field w 24 8 ∧ ad = aField w 21 ∧ 0#13 = field w 8 13 ∧ c.number = (field w 0 8).toNat := by
  rw [eq_word_iff, encodeC, append_eq_field (m := 8 + 3 + 13) (n := 8), append_eq_field, append_eq_field, aBits_eq_field,
    ofNat_eq_field (csr_number_lt c)]
  simp only [and_assoc]

theorem encodeM_eq_iff (sub : BitVec 4) (imm : BitVec 12) : encodeM op vd ra sub imm = w ↔
    op = field w 24 8 ∧ vd = vField w 19 ∧ ra = aField w 16 ∧ sub = field w 12 4 ∧ imm = field w 0 12 := by
  rw [eq_word_iff, encodeM, append_eq_field (m := 8 + 5 + 3 + 4) (n := 12), append_eq_field, append_eq_field,
    append_eq_field, aBits_eq_field, vBits_eq_field]
  simp only [and_assoc]

theorem encodeV_eq_iff (low : BitVec 14) : encodeV op vd va low = w ↔
    op = field w 24 8 ∧ vd = vField w 19 ∧ va = vField w 14 ∧ low = field w 0 14 := by
  rw [eq_word_iff, encodeV, append_eq_field (m := 8 + 5 + 5) (n := 14), append_eq_field, append_eq_field, vBits_eq_field,
    vBits_eq_field]
  simp only [and_assoc]

theorem encodeV3_eq_iff : encodeV3 op vd va vb x = w ↔ op = field w 24 8 ∧ vd = vField w 19 ∧ va = vField w 14 ∧
    vb = vField w 9 ∧ x = wField w 8 ∧ 0#8 = field w 0 8 := by
  rw [encodeV3, encodeV_eq_iff, append_eq_field (m := 5 + 1) (n := 8), append_eq_field, vBits_eq_field, widthBit_eq_field]
  simp only [and_assoc]

theorem encodeV2_eq_iff (imm : BitVec 8) : encodeV2 op vd va x imm = w ↔ op = field w 24 8 ∧ vd = vField w 19 ∧
    va = vField w 14 ∧ 0#5 = field w 9 5 ∧ x = wField w 8 ∧ imm = field w 0 8 := by
  rw [encodeV2, encodeV_eq_iff, append_eq_field (m := 5 + 1) (n := 8), append_eq_field, widthBit_eq_field]
  simp only [and_assoc]

theorem encodeT_eq_iff (ds ss : Fin 4) : encodeT op vd va ds ss x = w ↔ op = field w 24 8 ∧ vd = vField w 19 ∧
    va = vField w 14 ∧ ds = (field w 12 2).toFin ∧ ss = (field w 10 2).toFin ∧ 0#1 = field w 9 1 ∧ x = wField w 8 ∧
    0#8 = field w 0 8 := by
  rw [encodeT, encodeV_eq_iff, append_eq_field (m := 2 + 2 + 1 + 1) (n := 8), append_eq_field, append_eq_field,
    append_eq_field, ofFin_eq_field (n := 2), ofFin_eq_field (n := 2), widthBit_eq_field]
  simp only [and_assoc]

theorem encode_comb_eq_iff (sa sb : Lane) : encode (.comb vd va vb sa sb) = w ↔ 0x37#8 = field w 24 8 ∧
    vd = vField w 19 ∧ va = vField w 14 ∧ vb = vField w 9 ∧ 0#7 = field w 2 7 ∧ sb = Lane.ofBit (field w 1 1) ∧
    sa = Lane.ofBit (field w 0 1) := by
  rw [encode, encodeV_eq_iff, append_eq_field (m := 5 + 7 + 1) (n := 1), append_eq_field, append_eq_field, vBits_eq_field,
    laneBit_eq, laneBit_eq]
  simp only [and_assoc]

theorem encode_demux_eq_iff (st : Strategy) : encode (.demux st) = w ↔
    0x50#8 = field w 24 8 ∧ 0#20 = field w 4 20 ∧ st.number = (field w 0 4).toNat := by
  rw [eq_word_iff, encode, append_eq_field (m := 8 + 20) (n := 4), append_eq_field, ofNat_eq_field (strategy_number_lt st)]
  simp only [and_assoc]

end Formats

/-! ### What a decoder arm accepts (R92, R104, R106) -/

theorem requireZero_eq_ok {n : Nat} (x : BitVec n) (r : Except DecodeError Instr) (i : Instr) :
    requireZero (x == 0#n) r = .ok i ↔ 0#n = x ∧ r = .ok i := by
  by_cases h : x = 0#n
  · simp [requireZero, h]
  · simp [requireZero, h, Ne.symm h]

theorem requireZeros_eq_ok {m n : Nat} (x : BitVec m) (y : BitVec n) (r : Except DecodeError Instr) (i : Instr) :
    requireZero (x == 0#m && y == 0#n) r = .ok i ↔ 0#m = x ∧ 0#n = y ∧ r = .ok i := by
  by_cases h : x = 0#m
  · simpa [h, requireZero] using requireZero_eq_ok y r i
  · simp [requireZero, h, Ne.symm h]

theorem requireValue_eq_ok (ok : Bool) (e : DecodeError) (r : Except DecodeError Instr) (i : Instr) :
    requireValue ok e r = .ok i ↔ ok = true ∧ r = .ok i := by
  cases ok <;> simp [requireValue]

theorem decodeC_eq_ok (w : Word) (allowed : Csr → Bool) (mk : AReg → Csr → Instr) (i : Instr) :
    decodeC w allowed mk = .ok i ↔
      0#13 = field w 8 13 ∧ ∃ c, c.number = (field w 0 8).toNat ∧ allowed c = true ∧ i = mk (aField w 21) c := by
  rw [decodeC, requireZero_eq_ok]
  refine and_congr_right fun _ => ?_
  cases h : Csr.ofNumber (field w 0 8).toNat with
  | none =>
    have missing : ∀ c : Csr, c.number ≠ (field w 0 8).toNat := fun c e => by
      rw [(csr_ofNumber_iff _ c).2 e] at h
      cases h
    simp [missing]
  | some c =>
    have number := (csr_ofNumber_iff _ c).1 h
    simp only [requireValue_eq_ok, Except.ok.injEq]
    constructor
    · rintro ⟨ok, rfl⟩
      exact ⟨c, number, ok, rfl⟩
    · rintro ⟨d, e, ok, rfl⟩
      rw [← e, ofNumber_number] at h
      cases h
      exact ⟨ok, rfl⟩

theorem decode_demux_iff {w : Word} {i : Instr} (op : 0x50#8 = field w 24 8) :
    decode w = .ok i ↔ 0#20 = field w 4 20 ∧ ∃ st : Strategy, st.number = (field w 0 4).toNat ∧ i = .demux st := by
  unfold decode
  rw [← op]
  refine (requireZero_eq_ok _ _ _).trans (and_congr_right fun _ => ?_)
  cases h : Strategy.ofNumber (field w 0 4).toNat with
  | none =>
    have missing : ∀ st : Strategy, st.number ≠ (field w 0 4).toNat := fun st e => by
      rw [(strategy_ofNumber_iff _ st).2 e] at h
      cases h
    simp [missing]
  | some st =>
    have number := (strategy_ofNumber_iff _ st).1 h
    constructor
    · rintro ⟨⟩
      exact ⟨st, number, rfl⟩
    · rintro ⟨d, e, rfl⟩
      rw [← e, (strategy_ofNumber_iff _ d).2 rfl] at h
      cases h
      rfl

/-! ### The decoder and the encoder (R92, R104) -/

theorem opcode_of_toNat {w : Word} {k : Nat} (h : (field w 24 8).toNat = k) : BitVec.ofNat 8 k = field w 24 8 := by
  rw [← h, BitVec.ofNat_toNat, BitVec.setWidth_eq]

/-- Every word the decoder accepts is the word of a well-formed command, opcode by opcode. -/
theorem encode_of_decode {w : Word} {i : Instr} (h : decode w = .ok i) : i.wellFormed = true ∧ encode i = w := by
  have accepted := h
  unfold decode at h
  split at h
  case h_35 => cases h
  all_goals
    rename_i op
    have op := opcode_of_toNat op
  case h_1 | h_2 | h_33 =>
    obtain ⟨zero, ⟨⟩⟩ := (requireZero_eq_ok _ _ _).1 h
    exact ⟨rfl, (encodeZ_eq_iff _ _).2 ⟨op, zero⟩⟩
  case h_3 | h_4 =>
    cases h
    exact ⟨rfl, (encodeI24_eq_iff _ _ _).2 ⟨op, rfl⟩⟩
  case h_5 | h_6 | h_7 =>
    obtain ⟨zero, ⟨⟩⟩ := (requireZero_eq_ok _ _ _).1 h
    exact ⟨rfl, (encodeAI1_eq_iff _ _ _ _).2 ⟨op, rfl, zero, rfl⟩⟩
  case h_8 | h_10 =>
    obtain ⟨zero, ⟨⟩⟩ := (requireZero_eq_ok _ _ _).1 h
    exact ⟨rfl, (encodeAI2_eq_iff _ _ _ _ _).2 ⟨op, rfl, rfl, zero, rfl⟩⟩
  case h_9 =>
    obtain ⟨zero, ⟨⟩⟩ := (requireZero_eq_ok _ _ _).1 h
    exact ⟨rfl, (encode_adda_eq_iff _ _ _ _).2 ⟨op, rfl, rfl, rfl, zero⟩⟩
  case h_11 | h_12 =>
    obtain ⟨zero, c, number, ok, rfl⟩ := (decodeC_eq_ok _ _ _ _).1 h
    exact ⟨ok, (encodeC_eq_iff _ _ _ _).2 ⟨op, rfl, zero, number⟩⟩
  case h_13 | h_14 | h_15 | h_16 =>
    obtain ⟨zero, ⟨⟩⟩ := (requireZero_eq_ok _ _ _).1 h
    have sub := (append_eq_field (lo := 12) _ _).2 ⟨zero, (widthBit_eq_field _).2 rfl⟩
    exact ⟨rfl, (encodeM_eq_iff _ _ _ _ _ _).2 ⟨op, rfl, rfl, sub, rfl⟩⟩
  case h_17 =>
    obtain ⟨zero, ⟨⟩⟩ := (requireZero_eq_ok _ _ _).1 h
    exact ⟨rfl, (encodeM_eq_iff _ _ _ _ _ _).2 ⟨op, rfl, rfl, zero, rfl⟩⟩
  case h_18 =>
    obtain ⟨zero, ⟨⟩⟩ := (requireZero_eq_ok _ _ _).1 h
    have sub := (append_eq_field (lo := 12) (n := 2) _ _).2 ⟨zero, (ofFin_eq_field _).2 rfl⟩
    exact ⟨rfl, (encodeM_eq_iff _ _ _ _ _ _).2 ⟨op, rfl, rfl, sub, rfl⟩⟩
  case h_19 =>
    obtain ⟨zero, ⟨⟩⟩ := (requireZero_eq_ok _ _ _).1 h
    have sub := (append_eq_field (lo := 12) (n := 3) _ _).2 ⟨zero, (ofFin_eq_field _).2 rfl⟩
    exact ⟨rfl, (encodeM_eq_iff _ _ _ _ _ _).2 ⟨op, rfl, rfl, sub, rfl⟩⟩
  case h_20 =>
    cases h
    have sub := (append_eq_field (w := w) (lo := 12) _ _).2 ⟨(aBits_eq_field _).2 rfl, (widthBit_eq_field _).2 rfl⟩
    exact ⟨rfl, (encodeM_eq_iff _ _ _ _ _ _).2 ⟨op, rfl, rfl, sub, rfl⟩⟩
  case h_21 | h_29 =>
    obtain ⟨zero, zero', ⟨⟩⟩ := (requireZeros_eq_ok _ _ _ _).1 h
    exact ⟨rfl, (encodeV2_eq_iff _ _ _ _ _ _).2 ⟨op, rfl, rfl, zero, rfl, zero'⟩⟩
  case h_22 | h_24 | h_25 | h_26 | h_27 =>
    obtain ⟨zero, ⟨⟩⟩ := (requireZero_eq_ok _ _ _).1 h
    exact ⟨rfl, (encodeV3_eq_iff _ _ _ _ _ _).2 ⟨op, rfl, rfl, rfl, rfl, zero⟩⟩
  case h_23 =>
    obtain ⟨zero, ⟨⟩⟩ := (requireZero_eq_ok _ _ _).1 h
    exact ⟨rfl, (encodeV2_eq_iff _ _ _ _ _ _).2 ⟨op, rfl, rfl, zero, rfl, rfl⟩⟩
  case h_28 =>
    obtain ⟨zero, ⟨⟩⟩ := (requireZero_eq_ok _ _ _).1 h
    exact ⟨rfl, (encode_comb_eq_iff _ _ _ _ _ _).2 ⟨op, rfl, rfl, rfl, zero, rfl, rfl⟩⟩
  case h_30 =>
    obtain ⟨zero, zero', h⟩ := (requireZeros_eq_ok _ _ _ _).1 h
    obtain ⟨fits, ⟨⟩⟩ := (requireValue_eq_ok _ _ _ _).1 h
    exact ⟨fits, (encodeT_eq_iff _ _ _ _ _ _ _).2 ⟨op, rfl, rfl, rfl, rfl, zero, rfl, zero'⟩⟩
  case h_31 =>
    obtain ⟨zero, h⟩ := (requireZero_eq_ok _ _ _).1 h
    obtain ⟨fits, ⟨⟩⟩ := (requireValue_eq_ok _ _ _ _).1 h
    exact ⟨fits, (encodeV_eq_iff _ _ _ _ _).2 ⟨op, rfl, rfl, zero⟩⟩
  case h_32 =>
    obtain ⟨zero, zero', h⟩ := (requireZeros_eq_ok _ _ _ _).1 h
    obtain ⟨fits, ⟨⟩⟩ := (requireValue_eq_ok _ _ _ _).1 h
    exact ⟨fits, (encodeV2_eq_iff _ _ _ _ _ _).2 ⟨op, rfl, rfl, zero, rfl, zero'⟩⟩
  case h_34 =>
    obtain ⟨zero, st, number, rfl⟩ := (decode_demux_iff op).1 accepted
    exact ⟨rfl, (encode_demux_eq_iff _ _).2 ⟨op, zero, number⟩⟩

/-- The decoder reads a well-formed command from its word. -/
theorem decode_of_encode {w : Word} {i : Instr} (legal : i.wellFormed = true) (h : encode i = w) : decode w = .ok i := by
  unfold decode
  cases i
  case nop | halt | trn32b =>
    obtain ⟨op, zero⟩ := (encodeZ_eq_iff _ _).1 h
    rw [← op]
    exact (requireZero_eq_ok _ _ _).2 ⟨zero, rfl⟩
  case abort | jmp =>
    obtain ⟨op, rfl⟩ := (encodeI24_eq_iff _ _ _).1 h
    rw [← op]
    rfl
  case dbnz | lai | lahi =>
    obtain ⟨op, rfl, zero, rfl⟩ := (encodeAI1_eq_iff _ _ _ _).1 h
    rw [← op]
    exact (requireZero_eq_ok _ _ _).2 ⟨zero, rfl⟩
  case addai | lda =>
    obtain ⟨op, rfl, rfl, zero, rfl⟩ := (encodeAI2_eq_iff _ _ _ _ _).1 h
    rw [← op]
    exact (requireZero_eq_ok _ _ _).2 ⟨zero, rfl⟩
  case adda =>
    obtain ⟨op, rfl, rfl, rfl, zero⟩ := (encode_adda_eq_iff _ _ _ _).1 h
    rw [← op]
    exact (requireZero_eq_ok _ _ _).2 ⟨zero, rfl⟩
  case csrr | csrw =>
    obtain ⟨op, rfl, zero, number⟩ := (encodeC_eq_iff _ _ _ _).1 h
    rw [← op]
    exact (decodeC_eq_ok _ _ _ _).2 ⟨zero, _, number, legal, rfl⟩
  case vld | vldu | vst | vstu =>
    obtain ⟨op, rfl, rfl, sub, rfl⟩ := (encodeM_eq_iff _ _ _ _ _ _).1 h
    obtain ⟨zero, width⟩ := (append_eq_field (lo := 12) _ _).1 sub
    obtain rfl := (widthBit_eq_field _).1 width
    rw [← op]
    exact (requireZero_eq_ok _ _ _).2 ⟨zero, rfl⟩
  case vldq =>
    obtain ⟨op, rfl, rfl, zero, rfl⟩ := (encodeM_eq_iff _ _ _ _ _ _).1 h
    rw [← op]
    exact (requireZero_eq_ok _ _ _).2 ⟨zero, rfl⟩
  case vstq =>
    obtain ⟨op, rfl, rfl, sub, rfl⟩ := (encodeM_eq_iff _ _ _ _ _ _).1 h
    obtain ⟨zero, lane⟩ := (append_eq_field (lo := 12) (n := 2) _ _).1 sub
    obtain rfl := (ofFin_eq_field (n := 2) _).1 lane
    rw [← op]
    exact (requireZero_eq_ok _ _ _).2 ⟨zero, rfl⟩
  case vstw =>
    obtain ⟨op, rfl, rfl, sub, rfl⟩ := (encodeM_eq_iff _ _ _ _ _ _).1 h
    obtain ⟨zero, lane⟩ := (append_eq_field (lo := 12) (n := 3) _ _).1 sub
    obtain rfl := (ofFin_eq_field (n := 3) _).1 lane
    rw [← op]
    exact (requireZero_eq_ok _ _ _).2 ⟨zero, rfl⟩
  case vldg =>
    obtain ⟨op, rfl, rfl, sub, rfl⟩ := (encodeM_eq_iff _ _ _ _ _ _).1 h
    obtain ⟨stride, width⟩ := (append_eq_field (lo := 12) _ _).1 sub
    obtain rfl := (aBits_eq_field _).1 stride
    obtain rfl := (widthBit_eq_field _).1 width
    rw [← op]
    rfl
  case vmov | btrn4 =>
    obtain ⟨op, rfl, rfl, zero, rfl, zero'⟩ := (encodeV2_eq_iff _ _ _ _ _ _).1 h
    rw [← op]
    exact (requireZeros_eq_ok _ _ _ _).2 ⟨zero, zero', rfl⟩
  case permb | unpkld | unpkhd | unpklq | unpkhq =>
    obtain ⟨op, rfl, rfl, rfl, rfl, zero⟩ := (encodeV3_eq_iff _ _ _ _ _ _).1 h
    rw [← op]
    exact (requireZero_eq_ok _ _ _).2 ⟨zero, rfl⟩
  case permd =>
    obtain ⟨op, rfl, rfl, zero, rfl, rfl⟩ := (encodeV2_eq_iff _ _ _ _ _ _).1 h
    rw [← op]
    exact (requireZero_eq_ok _ _ _).2 ⟨zero, rfl⟩
  case comb =>
    obtain ⟨op, rfl, rfl, rfl, zero, rfl, rfl⟩ := (encode_comb_eq_iff _ _ _ _ _ _).1 h
    rw [← op]
    exact (requireZero_eq_ok _ _ _).2 ⟨zero, rfl⟩
  case trn4d =>
    obtain ⟨op, rfl, rfl, rfl, rfl, zero, rfl, zero'⟩ := (encodeT_eq_iff _ _ _ _ _ _ _).1 h
    rw [← op]
    exact (requireZeros_eq_ok _ _ _ _).2 ⟨zero, zero', (requireValue_eq_ok _ _ _ _).2 ⟨legal, rfl⟩⟩
  case trn8b =>
    obtain ⟨op, rfl, rfl, zero⟩ := (encodeV_eq_iff _ _ _ _ _).1 h
    rw [← op]
    exact (requireZero_eq_ok _ _ _).2 ⟨zero, (requireValue_eq_ok _ _ _ _).2 ⟨legal, rfl⟩⟩
  case trn16b w =>
    obtain ⟨op, rfl, rfl, zero, rfl, zero'⟩ := (encodeV2_eq_iff _ _ _ _ _ _).1 h
    rw [← op]
    exact (requireZeros_eq_ok _ _ _ _).2 ⟨zero, zero', (requireValue_eq_ok _ _ _ _).2 ⟨legal, rfl⟩⟩
  case demux =>
    obtain ⟨op, zero, number⟩ := (encode_demux_eq_iff _ _).1 h
    exact (decode_demux_iff op).2 ⟨zero, _, number, rfl⟩

/-! ### The opcode table (R104) -/

/-- A field that lies in a row's mask is, in every word of the row, what it is in the pattern. -/
theorem field_of_match {w mask pattern : Word} {lo len : Nat} (h : w &&& mask = pattern)
    (masked : field mask lo len = BitVec.allOnes len) : field pattern lo len = field w lo len := by
  rw [← h, field, BitVec.extractLsb'_and]
  unfold field at masked ⊢
  rw [masked, BitVec.and_allOnes]

theorem bits_eq_field (w : Word) (hi lo : Nat) : bits w hi lo = (field w lo (hi + 1 - lo)).toNat := by
  rw [bits, field, BitVec.extractLsb'_toNat, Nat.shiftRight_eq_div_pow]

theorem encode_matches_row : ∀ i : Instr, encode i &&& i.row.mask = i.row.pattern
  | .nop => Laws.EncodeOpcode.nop
  | .halt => Laws.EncodeOpcode.halt
  | .abort _ => Laws.EncodeOpcode.abort _
  | .jmp _ => Laws.EncodeOpcode.jmp _
  | .dbnz _ _ => Laws.EncodeOpcode.dbnz _ _
  | .lai _ _ => Laws.EncodeOpcode.lai _ _
  | .lahi _ _ => Laws.EncodeOpcode.lahi _ _
  | .addai _ _ _ => Laws.EncodeOpcode.addai _ _ _
  | .adda _ _ _ => Laws.EncodeOpcode.adda _ _ _
  | .lda _ _ _ => Laws.EncodeOpcode.lda _ _ _
  | .csrr _ _ => Laws.EncodeOpcode.csrr _ _
  | .csrw _ _ => Laws.EncodeOpcode.csrw _ _
  | .vld _ _ _ _ => Laws.EncodeOpcode.vld _ _ _ _
  | .vldu _ _ _ _ => Laws.EncodeOpcode.vldu _ _ _ _
  | .vst _ _ _ _ => Laws.EncodeOpcode.vst _ _ _ _
  | .vstu _ _ _ _ => Laws.EncodeOpcode.vstu _ _ _ _
  | .vldq _ _ _ => Laws.EncodeOpcode.vldq _ _ _
  | .vstq _ _ _ _ => Laws.EncodeOpcode.vstq _ _ _ _
  | .vstw _ _ _ _ => Laws.EncodeOpcode.vstw _ _ _ _
  | .vldg _ _ _ _ _ => Laws.EncodeOpcode.vldg _ _ _ _ _
  | .vmov _ _ _ => Laws.EncodeOpcode.vmov _ _ _
  | .permb _ _ _ _ => Laws.EncodeOpcode.permb _ _ _ _
  | .permd _ _ _ _ => Laws.EncodeOpcode.permd _ _ _ _
  | .unpkld _ _ _ _ => Laws.EncodeOpcode.unpkld _ _ _ _
  | .unpkhd _ _ _ _ => Laws.EncodeOpcode.unpkhd _ _ _ _
  | .unpklq _ _ _ _ => Laws.EncodeOpcode.unpklq _ _ _ _
  | .unpkhq _ _ _ _ => Laws.EncodeOpcode.unpkhq _ _ _ _
  | .comb _ _ _ _ _ => Laws.EncodeOpcode.comb _ _ _ _ _
  | .btrn4 _ _ _ => Laws.EncodeOpcode.btrn4 _ _ _
  | .trn4d _ _ _ _ _ => Laws.EncodeOpcode.trn4d _ _ _ _ _
  | .trn8b _ _ => Laws.EncodeOpcode.trn8b _ _
  | .trn16b _ _ _ => Laws.EncodeOpcode.trn16b _ _ _
  | .trn32b => Laws.EncodeOpcode.trn32b
  | .demux _ => Laws.EncodeOpcode.demux _

theorem row_mem_opcodeTable (i : Instr) : i.row ∈ opcodeTable := by
  cases i
  all_goals
    dsimp only [Instr.row]
    decide

/-- A row's opcode names it. -/
theorem row_eq_of_opcode {r q : OpcodeRow} (hr : r ∈ opcodeTable) (hq : q ∈ opcodeTable)
    (h : field r.pattern 24 8 = field q.pattern 24 8) : r = q :=
  List.inj_on_of_nodup_map (f := fun r : OpcodeRow => field r.pattern 24 8) (by decide) hr hq h

theorem opcode_masked : ∀ r ∈ opcodeTable, field r.mask 24 8 = BitVec.allOnes 8 := by decide

theorem rows_disjoint {w : Word} {r q : OpcodeRow} (hr : r ∈ opcodeTable) (hq : q ∈ opcodeTable)
    (matchR : w &&& r.mask = r.pattern) (matchQ : w &&& q.mask = q.pattern) : r = q :=
  row_eq_of_opcode hr hq
    ((field_of_match matchR (opcode_masked r hr)).trans (field_of_match matchQ (opcode_masked q hq)).symm)

theorem exists_number {k : Nat} (h : k ≤ 12) : ∃ c : Csr, c.number = k := by
  have total : ∀ j : Fin 13, (Csr.ofNumber j.val).isSome = true := by decide
  obtain ⟨c, hc⟩ := Option.isSome_iff_exists.1 (total ⟨k, by omega⟩)
  exact ⟨c, number_of_ofNumber hc⟩

theorem exists_strategy {k : Nat} (h : k ≤ 13) : ∃ st : Strategy, st.number = k := by
  have total : ∀ j : Fin 14, (Strategy.ofNumber j.val).isSome = true := by decide
  obtain ⟨st, hst⟩ := Option.isSome_iff_exists.1 (total ⟨k, by omega⟩)
  exact ⟨st, (strategy_ofNumber_iff k st).1 hst⟩

theorem groupFits_iff (first : VReg) (logStride count : Nat) :
    groupFits first logStride count = true ↔ first.val + (count - 1) * 2 ^ logStride ≤ 31 := decide_eq_true_iff

theorem writable_iff (c : Csr) : c.writable = true ↔ c.number ∈ [6, 8, 9, 10, 11, 12] := by cases c <;> decide

/-- The word of a command passes its row's value check exactly where the command is well formed. -/
theorem valueCheck_iff {w : Word} {i : Instr} (h : encode i = w) : ValueCheck i.row.mnemonic w ↔ i.wellFormed = true := by
  cases i
  case csrr ad c =>
    obtain ⟨-, -, -, number⟩ := (encodeC_eq_iff _ _ _ _).1 h
    have bound : bits w 7 0 ≤ 12 := by
      rw [bits_eq_field, ← number]
      cases c <;> decide
    simpa [ValueCheck, Instr.row, Instr.wellFormed] using bound
  case csrw ra c =>
    obtain ⟨-, -, -, number⟩ := (encodeC_eq_iff _ _ _ _).1 h
    have check : bits w 7 0 ∈ [6, 8, 9, 10, 11, 12] ↔ c.writable = true := by
      rw [bits_eq_field, writable_iff, number]
    simpa [ValueCheck, Instr.row, Instr.wellFormed] using check
  case trn4d vd vs ds ss x =>
    obtain ⟨-, rfl, rfl, rfl, rfl, -, -, -⟩ := (encodeT_eq_iff _ _ _ _ _ _ _).1 h
    simp [ValueCheck, Instr.row, Instr.wellFormed, groupFits_iff, bits_eq_field, vField]
  case trn8b vd vs =>
    obtain ⟨-, rfl, rfl, -⟩ := (encodeV_eq_iff _ _ _ _ _).1 h
    simp [ValueCheck, Instr.row, Instr.wellFormed, groupFits_iff, bits_eq_field, vField]
  case trn16b vd vs x =>
    obtain ⟨-, rfl, rfl, -⟩ := (encodeV_eq_iff _ _ _ _ _).1 h
    simp [ValueCheck, Instr.row, Instr.wellFormed, groupFits_iff, bits_eq_field, vField]
  case demux st =>
    obtain ⟨-, -, number⟩ := (encode_demux_eq_iff _ _).1 h
    have bound : bits w 3 0 ≤ 13 := by
      rw [bits_eq_field, ← number]
      cases st <;> decide
    simpa [ValueCheck, Instr.row, Instr.wellFormed] using bound
  all_goals simp [ValueCheck, Instr.row, Instr.wellFormed]

theorem accepts_opcodeTable (w : Word) :
    ∀ r ∈ opcodeTable, w &&& r.mask = r.pattern → ValueCheck r.mnemonic w → ∃ i, decode w = .ok i := by
  simp only [opcodeTable, List.forall_mem_cons]
  refine ⟨?nop, ?halt, ?abort, ?jmp, ?dbnz, ?lai, ?lahi, ?addai, ?adda, ?lda, ?csrr, ?csrw, ?vld, ?vldu, ?vst, ?vstu,
    ?vldq, ?vstq, ?vstw, ?vldg, ?vmov, ?permb, ?permd, ?unpkld, ?unpkhd, ?unpklq, ?unpkhq, ?comb, ?btrn4, ?trn4d, ?trn8b,
    ?trn16b, ?trn32b, ?demux, by simp⟩
  all_goals
    rintro h ⟨csrr, csrw, trn4d, trn8b, trn16b, demux⟩
    have op := field_of_match (lo := 24) (len := 8) h (by decide)
  case demux =>
    have zero := field_of_match (lo := 4) (len := 20) h (by decide)
    obtain ⟨st, number⟩ := exists_strategy (bits_eq_field w 3 0 ▸ demux rfl)
    exact ⟨_, (decode_demux_iff op).2 ⟨zero, st, number, rfl⟩⟩
  all_goals
    unfold decode
    rw [← op]
  case nop | halt | trn32b =>
    have zero := field_of_match (lo := 0) (len := 24) h (by decide)
    exact ⟨_, (requireZero_eq_ok _ _ _).2 ⟨zero, rfl⟩⟩
  case abort | jmp | vldg => exact ⟨_, rfl⟩
  case dbnz | lai | lahi =>
    have zero := field_of_match (lo := 16) (len := 5) h (by decide)
    exact ⟨_, (requireZero_eq_ok _ _ _).2 ⟨zero, rfl⟩⟩
  case addai | lda =>
    have zero := field_of_match (lo := 16) (len := 2) h (by decide)
    exact ⟨_, (requireZero_eq_ok _ _ _).2 ⟨zero, rfl⟩⟩
  case adda =>
    have zero := field_of_match (lo := 0) (len := 15) h (by decide)
    exact ⟨_, (requireZero_eq_ok _ _ _).2 ⟨zero, rfl⟩⟩
  case csrr =>
    have zero := field_of_match (lo := 8) (len := 13) h (by decide)
    obtain ⟨c, number⟩ := exists_number (bits_eq_field w 7 0 ▸ csrr rfl)
    exact ⟨_, (decodeC_eq_ok _ _ _ _).2 ⟨zero, c, number, rfl, rfl⟩⟩
  case csrw =>
    have zero := field_of_match (lo := 8) (len := 13) h (by decide)
    obtain ⟨c, writable, number⟩ := exists_writable_of_mem (bits_eq_field w 7 0 ▸ csrw rfl)
    exact ⟨_, (decodeC_eq_ok _ _ _ _).2 ⟨zero, c, number, writable, rfl⟩⟩
  case vld | vldu | vst | vstu =>
    have zero := field_of_match (lo := 13) (len := 3) h (by decide)
    exact ⟨_, (requireZero_eq_ok _ _ _).2 ⟨zero, rfl⟩⟩
  case vldq =>
    have zero := field_of_match (lo := 12) (len := 4) h (by decide)
    exact ⟨_, (requireZero_eq_ok _ _ _).2 ⟨zero, rfl⟩⟩
  case vstq =>
    have zero := field_of_match (lo := 14) (len := 2) h (by decide)
    exact ⟨_, (requireZero_eq_ok _ _ _).2 ⟨zero, rfl⟩⟩
  case vstw =>
    have zero := field_of_match (lo := 15) (len := 1) h (by decide)
    exact ⟨_, (requireZero_eq_ok _ _ _).2 ⟨zero, rfl⟩⟩
  case vmov | btrn4 =>
    have zero := field_of_match (lo := 9) (len := 5) h (by decide)
    have zero' := field_of_match (lo := 0) (len := 8) h (by decide)
    exact ⟨_, (requireZeros_eq_ok _ _ _ _).2 ⟨zero, zero', rfl⟩⟩
  case permb | unpkld | unpkhd | unpklq | unpkhq =>
    have zero := field_of_match (lo := 0) (len := 8) h (by decide)
    exact ⟨_, (requireZero_eq_ok _ _ _).2 ⟨zero, rfl⟩⟩
  case permd =>
    have zero := field_of_match (lo := 9) (len := 5) h (by decide)
    exact ⟨_, (requireZero_eq_ok _ _ _).2 ⟨zero, rfl⟩⟩
  case comb =>
    have zero := field_of_match (lo := 2) (len := 7) h (by decide)
    exact ⟨_, (requireZero_eq_ok _ _ _).2 ⟨zero, rfl⟩⟩
  case trn4d =>
    have zero := field_of_match (lo := 9) (len := 1) h (by decide)
    have zero' := field_of_match (lo := 0) (len := 8) h (by decide)
    obtain ⟨fitsD, fitsS⟩ := trn4d rfl
    rw [bits_eq_field, bits_eq_field] at fitsD fitsS
    have fits := Bool.and_eq_true_iff.2
      ⟨(groupFits_iff (vField w 19) _ 4).2 fitsD, (groupFits_iff (vField w 14) _ 4).2 fitsS⟩
    exact ⟨_, (requireZeros_eq_ok _ _ _ _).2 ⟨zero, zero', (requireValue_eq_ok _ _ _ _).2 ⟨fits, rfl⟩⟩⟩
  case trn8b =>
    have zero := field_of_match (lo := 0) (len := 14) h (by decide)
    obtain ⟨fitsD, fitsS⟩ := trn8b rfl
    rw [bits_eq_field] at fitsD fitsS
    have fits := Bool.and_eq_true_iff.2 ⟨(groupFits_iff (vField w 19) 0 8).2 (Nat.add_le_add_right fitsD 7),
      (groupFits_iff (vField w 14) 0 8).2 (Nat.add_le_add_right fitsS 7)⟩
    exact ⟨_, (requireZero_eq_ok _ _ _).2 ⟨zero, (requireValue_eq_ok _ _ _ _).2 ⟨fits, rfl⟩⟩⟩
  case trn16b =>
    have zero := field_of_match (lo := 9) (len := 5) h (by decide)
    have zero' := field_of_match (lo := 0) (len := 8) h (by decide)
    obtain ⟨fitsD, fitsS⟩ := trn16b rfl
    rw [bits_eq_field] at fitsD fitsS
    have fits := Bool.and_eq_true_iff.2 ⟨(groupFits_iff (vField w 19) 0 16).2 (Nat.add_le_add_right fitsD 15),
      (groupFits_iff (vField w 14) 0 16).2 (Nat.add_le_add_right fitsS 15)⟩
    exact ⟨_, (requireZeros_eq_ok _ _ _ _).2 ⟨zero, zero', (requireValue_eq_ok _ _ _ _).2 ⟨fits, rfl⟩⟩⟩

/-! ### Bytes in memory order (R90, 20_memory.md R65) -/

theorem wordOfBytes_commandBytes (w : Word) :
    wordOfBytes (field w 0 8) (field w 8 8) (field w 16 8) (field w 24 8) = w := by
  rw [eq_word_iff, wordOfBytes, append_eq_field (m := 8 + 8 + 8) (n := 8), append_eq_field, append_eq_field]
  exact ⟨⟨⟨rfl, rfl⟩, rfl⟩, rfl⟩

theorem decodeBytes_commandBytes {w : Word} {i : Instr} (h : decode w = .ok i) (rest : List Byte) :
    decodeBytes (commandBytes w ++ rest) = .ok (i, rest) := by
  simp only [commandBytes, List.cons_append, List.nil_append, decodeBytes, wordOfBytes_commandBytes, h]

/-! ### Commands that are not well formed (R106, log 13) -/

/-- No command is read from the word that would hold an ill-formed command's fields: its row is the command's, and it
fails the row's value check. -/
theorem decode_illFormed {i : Instr} (illegal : i.wellFormed = false) (j : Instr) : decode (encode i) ≠ .ok j := by
  intro h
  obtain ⟨legal, word⟩ := encode_of_decode h
  have matchJ : encode i &&& j.row.mask = j.row.pattern := by rw [← word, encode_matches_row]
  have rows := rows_disjoint (row_mem_opcodeTable j) (row_mem_opcodeTable i) matchJ (encode_matches_row i)
  have check := (valueCheck_iff word).2 legal
  rw [rows, valueCheck_iff rfl, illegal] at check
  cases check

/-- Only four commands have a value check; each makes it first. -/
theorem exec_illFormed {i : Instr} (illegal : i.wellFormed = false) (s : State) : Faults i s 1 (encode i) := by
  have raised := requireLegal_illFormed i illegal
  cases i
  case csrw | trn4d | trn8b | trn16b =>
    exact faults_of_error _ s _ .illegalCommand _ rfl (by rw [raised, error_bind])
  all_goals cases illegal

/-! ### The statements -/

/-- Settles O1: each command's word has the fields its format gives it, and the arm of its opcode reads them back. -/
theorem decodeOfEncodeIsTheCommand : Obligations.DecodeOfEncodeIsTheCommand := by
  intro i legal
  have read := decode_of_encode legal rfl
  exact ⟨read, decodeBytes_commandBytes read⟩

/-- Settles O2: the arm of each opcode asks for every zero field of its format, so that the word is the encoding. -/
theorem encodeOfDecodeIsTheWord : Obligations.EncodeOfDecodeIsTheWord := fun _ _ => encode_of_decode

/-- Settles O3: an accepted word is the encoding of its command and so of the command's row; a matched row's mask fixes the
opcode and the zero fields that its arm asks for; and a row is told by its opcode. -/
theorem decoderAcceptsExactlyTheOpcodeTable : Obligations.DecoderAcceptsExactlyTheOpcodeTable := by
  refine ⟨rfl, fun w => ?_⟩
  have matched : ∀ i, decode w = .ok i → i.row ∈ opcodeTable ∧ w &&& i.row.mask = i.row.pattern := fun i h => by
    obtain ⟨-, rfl⟩ := encode_of_decode h
    exact ⟨row_mem_opcodeTable i, encode_matches_row i⟩
  refine ⟨⟨?_, ?_⟩, matched, fun r hr q hq => rows_disjoint hr hq⟩
  · rintro ⟨i, h⟩
    obtain ⟨legal, word⟩ := encode_of_decode h
    obtain ⟨member, pattern⟩ := matched i h
    exact ⟨i.row, member, pattern, (valueCheck_iff word).2 legal⟩
  · rintro ⟨r, member, pattern, value⟩
    exact accepts_opcodeTable w r member pattern value

/-- Settles O4, word by word. -/
theorem sampleWordsAreReadRight : Obligations.SampleWordsAreReadRight := by
  refine ⟨?_, ?_, ?_, ?_, ?_, ?_, ?_, ?_, ?_⟩
  all_goals decide

/-- Settles O60. The word that would hold the fields fails its row's value check, which every word the decoder accepts
passes; and the meaning of the four commands that have a check makes it first. -/
theorem illFormedCommandsFault : Obligations.IllFormedCommandsFault :=
  fun _ s illegal => ⟨decode_illFormed illegal, exec_illFormed illegal s⟩

end Sys2Proof.Encoding
end

section
/-! PROOFS. The step: what it can do, said once for the turn of either agent, and the invariants that follow from it
(spec/10_state.md R47, 60_exceptions.md R300, 20_memory.md R62). -/

namespace Sys2Proof.StepInvariants

open Sys2Proof Sys2Proof.Machine Sys2Proof.ControlAddress Sys2Proof.ResetAndHost

/-! ### The turn taken -/

/-- The state without the turn the next step takes. -/
def turnTaken (s : State) : State := { s with turns := s.turns.tail }

theorem step_of_noTurns {s : State} (h : s.turns = []) : step s = engineStep s := by
  unfold step
  rw [h]

theorem step_of_turn {s : State} {t : Turn} {rest : List Turn} (h : s.turns = t :: rest) :
    step s = takeTurn t { s with turns := rest } := by
  unfold step
  rw [h]

/-- The engine's turn in RUN is the command at pc. -/
theorem step_runCommand {s : State} (running : s.status = .run) (engine : nextTurn s = .engine) :
    step s = runCommand (turnTaken s) :=
  (step_engine s engine).trans (engineStep_run _ running)

/-! ### What a step can do -/

/-- The ways a step from s can end in t. -/
inductive StepOutcome (s t : State) : Prop
  /-- The engine's turn outside RUN. -/
  | stopped (engine : nextTurn s = .engine) (status : s.status ≠ .run) (same : t = turnTaken s)
  /-- The engine faults, at its fetch, its decode or in the command. -/
  | faulted (engine : nextTurn s = .engine) (running : s.status = .run) (f : Raised) (entry : t = takeFault (turnTaken s) f)
  /-- The engine executes a HALT. -/
  | halted (engine : nextTurn s = .engine) (running : s.status = .run) (fetchable : Fetchable s)
      (word : decode (fetchedWord s) = .ok .halt) (done : t = { turnTaken s with status := .done })
  /-- The engine executes a command that completes. -/
  | completed (engine : nextTurn s = .engine) (running : s.status = .run) (i : Instr) (effect : Effect i (turnTaken s) t)
  /-- A move of the host. -/
  | host (m : HostMove) (turn : nextTurn s = .host m) (move : HostOutcomes m (turnTaken s) t)

theorem step_outcome {s t : State} (h : step s = .next t) : StepOutcome s t := by
  rcases step_cases s t h with ⟨engine, status, same⟩ | ⟨engine, running, ⟨f, entry⟩ | ⟨i, fetchable, word, he⟩⟩ | ⟨m, turn, move⟩
  · exact .stopped engine status same
  · exact .faulted engine running f entry
  · rcases exec_cases i _ t he with ⟨f, entry⟩ | ⟨rfl, done⟩ | effect
    · exact .faulted engine running f entry
    · exact .halted engine running fetchable word done
    · exact .completed engine running i effect
  · exact .host m turn (hostStep_cases m _ t move)

/-! ### The fault registers (10_state.md R34 to R38) -/

section FaultRegisters

variable {s t : State}

theorem faultRecord_takeFault (s : State) (f : Raised) : FaultRecord (takeFault s f) :=
  ⟨fun _ => ⟨(code_range f.cause).1, (code_range f.cause).2, rfl⟩, fun status => absurd rfl status⟩

theorem faultRecord_congr (h : FaultRecord s) (status : t.status = s.status) (pc : t.pc = s.pc)
    (same : SameFaultRegisters s t) : FaultRecord t := by
  obtain ⟨cause, fpc, finfo⟩ := same
  rw [FaultRecord, status, cause, fpc, finfo, pc]
  exact h

/-- Outside FAULT the record does not depend on pc or on STATE. -/
theorem faultRecord_of_noFault (h : FaultRecord s) (before : s.status ≠ .fault) (after : t.status ≠ .fault)
    (same : SameFaultRegisters s t) : FaultRecord t := by
  obtain ⟨cause, fpc, finfo⟩ := same
  refine ⟨fun status => absurd status after, fun _ => ?_⟩
  rw [cause, fpc, finfo]
  exact h.2 before

theorem faultRecord_writeCsr (h : FaultRecord s) (v : Word) (c : Csr) : FaultRecord (writeCsr s v c) :=
  faultRecord_congr h (by simp) (by simp) ⟨by simp, by simp, by simp⟩

theorem not_fault_of_mayWrite (h : s.status = .idle ∨ s.status = .done) : s.status ≠ .fault := by
  rcases h with h | h <;> rw [h] <;> decide

theorem not_fault_of_run (h : s.status = .run) : s.status ≠ .fault := by
  rw [h]
  decide

end FaultRegisters

/-! ### The invariant of memory and fault registers -/

theorem inv_hostOutcomes {m : HostMove} {s t : State} (h : Inv s) (move : HostOutcomes m s t) : Inv t := by
  obtain ⟨wf, record⟩ := h
  rcases move with rfl | ⟨-, rfl⟩ | ⟨⟨v, -, -, -, status⟩, rfl⟩ | ⟨c, v, -, -, rfl⟩ | ⟨a, bytes, -, -, rfl⟩
  · exact ⟨wf, record⟩
  · exact ⟨wf, fun status => (by cases status), fun _ => ⟨rfl, rfl, rfl⟩⟩
  · exact ⟨wf, faultRecord_of_noFault record (not_fault_of_mayWrite status) (not_fault_of_run rfl) ⟨rfl, rfl, rfl⟩⟩
  · exact ⟨by rw [writeCsr_mem]; exact wf, faultRecord_writeCsr record v c⟩
  · exact ⟨writeBytes_wf _ a bytes wf, faultRecord_congr record rfl rfl ⟨rfl, rfl, rfl⟩⟩

theorem inv_step {s t : State} (h : Inv s) (hstep : step s = .next t) : Inv t := by
  obtain ⟨wf, record⟩ : Inv (turnTaken s) := h
  cases step_outcome hstep with
  | stopped _ _ same => exact same ▸ ⟨wf, record⟩
  | faulted _ _ f entry => exact entry ▸ ⟨wf, faultRecord_takeFault _ f⟩
  | halted _ running _ _ done =>
    subst done
    exact ⟨wf, faultRecord_of_noFault record (not_fault_of_run running) (fun status => by cases status) ⟨rfl, rfl, rfl⟩⟩
  | completed _ running i effect =>
    have noFault := not_fault_of_run (s := turnTaken s) running
    exact ⟨effect.mem.wf wf, faultRecord_of_noFault record noFault (effect.status ▸ noFault) effect.faults⟩
  | host m _ move => exact inv_hostOutcomes ⟨wf, record⟩ move

/-! ### The memory stays inside MEM (20_memory.md R62) -/

theorem cellsPopulated_of_wrote {C : Nat → Prop} {s t : State} (h : CellsPopulated s)
    (wrote : Wrote (fun x _ => inMem s x = true) C s.mem t.mem) (mem : t.populated = s.populated) : CellsPopulated t := by
  intro p hp
  rw [inMem_congr s t mem]
  rcases wrote.mem_addr p hp with ⟨-, inside⟩ | listed
  · exact inside
  · exact h p listed

theorem cellsPopulated_congr {s t : State} (h : CellsPopulated s) (mem : t.mem = s.mem)
    (populated : t.populated = s.populated) : CellsPopulated t :=
  cellsPopulated_of_wrote h (by rw [mem]; exact Wrote.refl _ _) populated

theorem cellsPopulated_hostOutcomes {m : HostMove} {s t : State} (h : CellsPopulated s) (move : HostOutcomes m s t) :
    CellsPopulated t := by
  rcases move with rfl | ⟨-, rfl⟩ | ⟨-, rfl⟩ | ⟨c, v, -, -, rfl⟩ | ⟨a, bytes, -, inside, rfl⟩
  · exact h
  · exact cellsPopulated_congr h rfl rfl
  · exact cellsPopulated_congr h rfl rfl
  · exact cellsPopulated_congr h (by simp) (by simp)
  · exact cellsPopulated_of_wrote h (Wrote.writeBytes a bytes s.mem inside) rfl

theorem cellsPopulated_step {s t : State} (h : CellsPopulated s) (hstep : step s = .next t) : CellsPopulated t := by
  have taken : CellsPopulated (turnTaken s) := h
  cases step_outcome hstep with
  | stopped _ _ same => exact same ▸ taken
  | faulted _ _ f entry => exact cellsPopulated_congr taken (entry ▸ rfl) (entry ▸ rfl)
  | halted _ _ _ _ done => exact cellsPopulated_congr taken (done ▸ rfl) (done ▸ rfl)
  | completed _ _ i effect => exact cellsPopulated_of_wrote taken effect.mem effect.platform.1
  | host m _ move => exact cellsPopulated_hostOutcomes taken move

/-! ### MEM and the turns -/

theorem samePlatform_hostOutcomes {m : HostMove} {s t : State} (move : HostOutcomes m s t) : SamePlatform s t := by
  rcases move with rfl | ⟨-, rfl⟩ | ⟨-, rfl⟩ | ⟨c, v, -, -, rfl⟩ | ⟨a, bytes, -, -, rfl⟩
  · exact ⟨rfl, rfl⟩
  · exact ⟨rfl, rfl⟩
  · exact ⟨rfl, rfl⟩
  · exact ⟨by simp, by simp⟩
  · exact ⟨rfl, rfl⟩

theorem samePlatform_step {s t : State} (hstep : step s = .next t) : SamePlatform (turnTaken s) t := by
  cases step_outcome hstep with
  | stopped _ _ same => exact same ▸ ⟨rfl, rfl⟩
  | faulted _ _ f entry => exact entry ▸ ⟨rfl, rfl⟩
  | halted _ _ _ _ done => exact done ▸ ⟨rfl, rfl⟩
  | completed _ _ i effect => exact effect.platform
  | host m _ move => exact samePlatform_hostOutcomes move

/-! ### STATE (10_state.md R47) -/

/-- A move of the host that changes STATE is an accepted GO or a reset. -/
theorem status_hostOutcomes {m : HostMove} {s t : State} (move : HostOutcomes m s t) (changed : t.status ≠ s.status) :
    (IsGo s (.host m) ∧ t.status = .run) ∨ (IsResetTurn (.host m) ∧ t.status = .idle) := by
  rcases move with rfl | ⟨reset, rfl⟩ | ⟨go, rfl⟩ | ⟨c, v, -, -, rfl⟩ | ⟨a, bytes, -, -, rfl⟩
  · exact absurd rfl changed
  · exact .inr ⟨reset, rfl⟩
  · exact .inl ⟨go, rfl⟩
  · exact absurd (writeCsr_status s v c) changed
  · exact absurd rfl changed

theorem status_step {s t : State} (hstep : step s = .next t) (changed : t.status ≠ s.status) :
    (IsGo s (nextTurn s) ∧ t.status = .run) ∨
      (nextTurn s = .engine ∧ s.status = .run ∧ t.status = .done ∧ Fetchable s ∧ decode (fetchedWord s) = .ok .halt) ∨
      (nextTurn s = .engine ∧ s.status = .run ∧ t.status = .fault) ∨ (IsResetTurn (nextTurn s) ∧ t.status = .idle) := by
  cases step_outcome hstep with
  | stopped _ _ same => exact absurd (same ▸ rfl) changed
  | faulted engine running f entry => exact .inr (.inr (.inl ⟨engine, running, entry ▸ rfl⟩))
  | halted engine running fetchable word done => exact .inr (.inl ⟨engine, running, done ▸ rfl, fetchable, word⟩)
  | completed _ _ i effect => exact absurd effect.status changed
  | host m turn move =>
    rw [turn]
    rcases status_hostOutcomes move changed with go | reset
    · exact .inl go
    · exact .inr (.inr (.inr reset))

/-! ### Valid bits (10_state.md R23, R26, R27) -/

/-- Every valid bit that is set in s is set in t. -/
def KeepsValid (s t : State) : Prop :=
  (∀ r : AReg, s.a[r].valid = true → t.a[r].valid = true) ∧
    ∀ (n : VReg) (h : Lane), (half s n h).valid = true → (half t n h).valid = true

theorem keepsValid_congr {s t : State} (a : t.a = s.a) (v : ∀ n h, half t n h = half s n h) : KeepsValid s t :=
  ⟨fun _ hr => a ▸ hr, fun n h hv => (v n h).symm ▸ hv⟩

theorem keepsValid_effect {i : Instr} {s t : State} (effect : Effect i s t) : KeepsValid s t := by
  refine ⟨fun r valid => ?_, fun n h valid => ?_⟩
  · rcases effect.a r with same | ⟨-, written⟩
    · rw [same]
      exact valid
    · exact written
  · rcases effect.halves n h with same | written
    · rw [same]
      exact valid
    · exact written

theorem keepsValid_exec {i : Instr} {s t : State} (he : exec i s = .next t) : KeepsValid s t := by
  rcases exec_cases i s t he with ⟨f, rfl⟩ | ⟨-, rfl⟩ | effect
  · exact keepsValid_congr rfl (half_takeFault s f)
  · exact keepsValid_congr rfl (fun _ h => by cases h <;> rfl)
  · exact keepsValid_effect effect

theorem keepsValid_hostOutcomes {m : HostMove} {s t : State} (move : HostOutcomes m s t) :
    KeepsValid s t ∨ IsGo s (.host m) ∨ IsResetTurn (.host m) := by
  rcases move with rfl | ⟨reset, -⟩ | ⟨go, -⟩ | ⟨c, v, -, -, rfl⟩ | ⟨a, bytes, -, -, rfl⟩
  · exact .inl (keepsValid_congr rfl fun _ _ => rfl)
  · exact .inr (.inr reset)
  · exact .inr (.inl go)
  · exact .inl (keepsValid_congr (by simp) (half_writeCsr s v c))
  · exact .inl (keepsValid_congr rfl fun _ h => by cases h <;> rfl)

theorem keepsValid_step {s t : State} (hstep : step s = .next t) :
    KeepsValid s t ∨ IsGo s (nextTurn s) ∨ IsResetTurn (nextTurn s) := by
  cases step_outcome hstep with
  | stopped _ _ same => exact .inl (keepsValid_congr (same ▸ rfl) fun _ h => by subst same; cases h <;> rfl)
  | faulted _ _ f entry => exact .inl (keepsValid_congr (entry ▸ rfl) fun _ h => by subst entry; cases h <;> rfl)
  | halted _ _ _ _ done => exact .inl (keepsValid_congr (done ▸ rfl) fun _ h => by subst done; cases h <;> rfl)
  | completed _ _ i effect =>
    obtain ⟨address, vector⟩ := keepsValid_effect effect
    exact .inl ⟨address, fun n h valid => vector n h (by cases h <;> exact valid)⟩
  | host m turn move =>
    rw [turn]
    rcases keepsValid_hostOutcomes move with ⟨address, vector⟩ | clears
    · exact .inl ⟨address, fun n h valid => vector n h (by cases h <;> exact valid)⟩
    · exact .inr clears

/-! ### What each command writes (10_state.md R22) -/

theorem hostCsrValue_congr {s t : State} (same : SameControlRegisters s t) {c : Csr} (hc : c.writable = true) :
    hostCsrValue t c = hostCsrValue s c := by
  obtain ⟨entry, src, len, dstp, n, l⟩ := same
  cases c
  case entry | src | len | dstp | n | l => assumption
  all_goals cases hc

/-- A writable control register that an effect changes is the one its CSRW names. -/
theorem csr_of_effect {i : Instr} {s t : State} (effect : Effect i s t) {c : Csr} (hc : c.writable = true)
    (changed : hostCsrValue t c ≠ hostCsrValue s c) : ∃ ra, i = .csrw ra c := by
  have control := effect.csr
  unfold CsrEffect at control
  split at control
  · rename_i ra d
    obtain ⟨v, same⟩ := control
    by_cases named : d = c
    · exact ⟨ra, by rw [named]⟩
    · exact absurd ((hostCsrValue_congr same hc).trans (hostCsrValue_writeCsr_other s v d c named)) changed
  · exact absurd (hostCsrValue_congr control hc) changed

theorem hostReadRegister_congr_control {s t : State} (same : SameControlRegisters s t) {c : Csr} (hc : c.writable = true) :
    hostReadRegister t c.number = hostReadRegister s c.number := by
  rw [hostReadRegister_number, hostReadRegister_number, hostCsrValue_congr same hc]

/-- A command that leaves every register and every byte as it was has changed none. -/
theorem writes_nothing (s t : State) (a : t.a = s.a) (control : SameControlRegisters s t) (mem : t.mem = s.mem) :
    (∀ r : AReg, t.a[r] = s.a[r]) ∧
      (∀ c : Csr, c.writable = true → hostReadRegister t c.number = hostReadRegister s c.number) ∧
      ∀ x, readByte t x = readByte s x :=
  ⟨fun _ => by rw [a], fun _ => hostReadRegister_congr_control control, fun x => congrArg (·.read x) mem⟩

/-! ### The statements -/

/-- Settles O9: every outcome of a step keeps the canonical form, and CAUSE, FPC and FINFO are written by fault entry
and reset only. -/
theorem stepKeepsTheInvariant : Obligations.StepKeepsTheInvariant := fun _ _ => inv_step

/-- Settles O10: every byte a step writes passed an access check, so that it is in MEM. -/
theorem stepKeepsTheMemoryInsideMem : Obligations.StepKeepsTheMemoryInsideMem := fun _ _ => cellsPopulated_step

/-- Settles O5: where the list of turns is empty, and where it has the engine first. -/
theorem stepRunsTheDecodedCommand : Obligations.StepRunsTheDecodedCommand := by
  intro s i running fetchable word
  refine ⟨fun empty => ?_, fun rest listed => ?_⟩
  · rw [step_of_noTurns empty, engineStep_run s running, runCommand_decoded s i fetchable word]
  · rw [step_of_turn listed]
    exact (engineStep_run { s with turns := rest } running).trans (runCommand_decoded { s with turns := rest } i fetchable word)

/-- Settles O6: the engine's turn is `runCommand`, which takes fault entry at the first of the three that fails. -/
theorem fetchAndDecodeFaults : Obligations.FetchAndDecodeFaults := by
  intro s running engine u
  rw [step_runCommand running engine]
  refine ⟨fun misaligned => ?_, fun aligned missing => ?_, fun fetchable illegal => ?_⟩
  · exact ⟨_, runCommand_unfetched u _ (fetch_misaligned u misaligned), takeFault_isFaultEntry u _⟩
  · exact ⟨_, runCommand_unfetched u _ (fetch_missing u aligned missing), takeFault_isFaultEntry u _⟩
  · cases word : decode (fetchedWord u) with
    | ok i => exact absurd word (illegal i)
    | error e => exact ⟨_, runCommand_illegal u e fetchable word, takeFault_isFaultEntry u _⟩

/-- Settles O8: by the outcomes of a step; a command that completes keeps STATE. -/
theorem stateChangesOnlyAsListed : Obligations.StateChangesOnlyAsListed := by
  refine ⟨fun s t => status_step, fun s engine stopped => ?_, fun s => ?_⟩
  · rw [step_engine s engine]
    exact engineStep_idle _ stopped
  · exact ⟨decide_eq_true_iff, decide_eq_true_iff⟩

/-- Settles O11: the memory is empty and STATE is IDLE. -/
theorem resetMeetsTheInvariants : Obligations.ResetMeetsTheInvariants := by
  refine ⟨⟨reset_mem_wf, fun status => (by cases status), fun _ => ⟨rfl, rfl, rfl⟩⟩, fun p listed => ?_⟩
  cases listed

/-- Settles O14: of the outcomes of an engine's turn in RUN only fault entry ends in FAULT. -/
theorem faultStepWritesOnlyTheFaultRegisters : Obligations.FaultStepWritesOnlyTheFaultRegisters := by
  intro s t running engine hstep faulted
  refine ⟨decide_eq_true faulted, ?_⟩
  cases step_outcome hstep with
  | stopped _ status _ => exact absurd running status
  | faulted _ _ f entry =>
    obtain ⟨low, high⟩ := code_range f.cause
    exact ⟨_, f.info, low, high, entry ▸ takeFault_isFaultEntry (turnTaken s) f⟩
  | halted _ _ _ _ done => rw [done] at faulted; cases faulted
  | completed _ _ i effect => exact absurd (effect.status.symm.trans faulted) (not_fault_of_run running)
  | host m turn _ => rw [engine] at turn; cases turn

/-- Settles O15: no outcome of a step writes MEM, and the turn is taken before it. -/
theorem stepKeepsMemAndTakesOneTurn : Obligations.StepKeepsMemAndTakesOneTurn :=
  ⟨fun _ _ => samePlatform_step, fun _ _ _ => step_of_turn⟩

/-- Settles O16: an effect changes only what the outline of its command lists; fault entry and HALT change none of
these. -/
theorem onlyTheListedCommandsWrite : Obligations.OnlyTheListedCommandsWrite := by
  intro i s t he
  rcases exec_cases i s t he with ⟨f, rfl⟩ | ⟨-, rfl⟩ | effect
  · obtain ⟨a, control, mem⟩ := writes_nothing s (takeFault s f) rfl (sameControl_refl s) rfl
    exact ⟨fun r changed => absurd (a r) changed, fun c hc changed => absurd (control c hc) changed,
      fun x changed => absurd (mem x) changed⟩
  · obtain ⟨a, control, mem⟩ := writes_nothing s { s with status := .done } rfl (sameControl_refl s) rfl
    exact ⟨fun r changed => absurd (a r) changed, fun c hc changed => absurd (control c hc) changed,
      fun x changed => absurd (mem x) changed⟩
  · refine ⟨fun r changed => ?_, fun c hc changed => ?_, fun x changed => ?_⟩
    · obtain ⟨destination, -⟩ := (effect.a r).resolve_left changed
      cases i
      case lai | lahi | addai | adda | lda | csrr | dbnz => exact (Option.some.inj destination).symm
      all_goals cases destination
    · rw [hostReadRegister_number, hostReadRegister_number] at changed
      exact csr_of_effect effect hc changed
    · have stores : storing i ≠ false := fun keeps => changed (congrArg (·.read x) (effect.kept keeps))
      cases i
      case vst | vstu | vstq | vstw | demux => trivial
      all_goals exact absurd rfl stores

/-- Settles O17: an effect writes registers as valid; of the host's moves only launch and reset clear a bit. -/
theorem onlyLaunchAndResetClearValidBits : Obligations.OnlyLaunchAndResetClearValidBits := by
  refine ⟨fun i s t => keepsValid_exec, fun s t hstep cleared => ?_⟩
  rcases keepsValid_step hstep with ⟨address, vector⟩ | clears
  · rcases cleared with ⟨r, before, after⟩ | ⟨n, h, before, after⟩
    · rw [address r before] at after
      cases after
    · rw [vector n h before] at after
      cases after
  · exact clears

end Sys2Proof.StepInvariants
end

section
/-! PROOFS. What the data bits of invalid registers can be seen to do: nothing (spec/10_state.md R23, R26, R46). Every
operation a command is made of answers alike in alike states, and so does every command, every move of the host and every
run. -/

namespace Sys2Proof.Unobservable

open Sys2Proof Sys2Proof.Machine Sys2Proof.ResetAndHost

/-! ### What alike states share -/

section Shared

variable {s t : State} (h : Alike s t)

include h

theorem alike_pc : t.pc = s.pc := h.rest.1

theorem alike_status : t.status = s.status := h.rest.2.1

theorem alike_mem : t.mem = s.mem := h.rest.2.2.2.2.1

theorem alike_populated : t.populated = s.populated := h.rest.2.2.2.2.2.1

theorem alike_turns : t.turns = s.turns := h.rest.2.2.2.2.2.2

theorem alike_descriptor : descriptor t = descriptor s := by
  rw [h.2.2]
  rfl

theorem alike_csrValue (c : Csr) : csrValue t c = csrValue s c := by
  rw [h.2.2]
  cases c <;> rfl

theorem alike_hostCsrValue (c : Csr) : hostCsrValue t c = hostCsrValue s c := by
  rw [h.2.2]
  cases c <;> rfl

theorem alike_fetch : fetch t = fetch s := by
  unfold fetch
  rw [alike_pc h, firstMissing_congr s t (alike_populated h), alike_mem h]

theorem alike_checkPlanes (row : StrategyRow) (l : Nat) (ps : List Nat) : checkPlanes t row l ps = checkPlanes s row l ps := by
  induction ps with
  | nil => rfl
  | cons p ps ih => simp only [checkPlanes, h.checkAccess, ih]

theorem alike_demuxChecks (st : Strategy) : demuxChecks st t = demuxChecks st s := by
  simp only [demuxChecks, alike_descriptor h, h.checkAccess, alike_mem h, alike_checkPlanes h]

/-! ### The shared meanings -/

theorem alike_lanewise1 (f : Half → Half) (vd vs : VReg) (w : Width) :
    AlikeCheck (lanewise1 f vd vs w s) (lanewise1 f vd vs w t) := by
  cases w <;> simp only [lanewise1, h.readHalf, h.readBoth]
  · exact AlikeCheck.bind _ fun x => (h.writeHalf vd .h0 _).advance
  · exact AlikeCheck.bind _ fun x => (h.writeBoth vd _).advance

theorem alike_lanewise2 (f : Half → Half → Half) (vd va vb : VReg) (w : Width) :
    AlikeCheck (lanewise2 f vd va vb w s) (lanewise2 f vd va vb w t) := by
  cases w <;> simp only [lanewise2, h.readHalf, h.readBoth]
  · exact AlikeCheck.bind _ fun x => AlikeCheck.bind _ fun y => (h.writeHalf vd .h0 _).advance
  · exact AlikeCheck.bind _ fun x => AlikeCheck.bind _ fun y => (h.writeBoth vd _).advance

theorem alike_loadVec (align : Nat) (vd : VReg) (ra : AReg) (w : Width) (imm : BitVec 12) :
    AlikeCheck (loadVec align vd ra w imm s) (loadVec align vd ra w imm t) := by
  simp only [loadVec, h.readA, h.checkAccess, alike_mem h]
  refine AlikeCheck.bind _ fun x => AlikeCheck.bind _ fun _ => ?_
  cases w
  · exact (h.writeHalf vd .h0 _).advance
  · exact (h.writeBoth vd _).advance

theorem alike_storeVec (align : Nat) (vs : VReg) (ra : AReg) (w : Width) (imm : BitVec 12) :
    AlikeCheck (storeVec align vs ra w imm s) (storeVec align vs ra w imm t) := by
  simp only [storeVec, h.readA, h.readHalf, h.readBoth, h.checkAccess, alike_mem h]
  refine AlikeCheck.bind _ fun x => ?_
  cases w <;> exact AlikeCheck.bind _ fun v => AlikeCheck.bind _ fun _ => (h.withMem _).advance

theorem alike_groupTranspose (f : List Half → List Half) (dst srcs : List VReg) (w : Width) :
    AlikeCheck (groupTranspose f dst srcs w s) (groupTranspose f dst srcs w t) := by
  cases w <;> simp only [groupTranspose, h.readGroup, h.readGroupBoth]
  · exact AlikeCheck.bind _ fun xs => (h.writeGroup .h0 _).advance
  · exact AlikeCheck.bind _ fun xs => ((h.writeGroup .h0 _).writeGroup .h1 _).advance

/-! ### Every command -/

/-- A command answers alike in alike states: it reads valid registers only, and the rest of the states agrees. -/
theorem alike_exec (i : Instr) : AlikeResult (exec i s) (exec i t) := by
  cases i
  case nop => exact h.advance
  case halt => exact h.update (fun u => { u with status := .done }) fun _ _ _ _ => rfl
  case abort => exact h.takeFault _
  case jmp imm => exact h.update (fun u => { u with pc := target24 u.pc imm }) fun _ _ _ _ => rfl
  case lai ad imm => exact (h.writeA ad _).advance
  case csrr ad c =>
    show Alike (advance (writeA s ad (csrValue s c))) (advance (writeA t ad (csrValue t c)))
    rw [alike_csrValue h]
    exact (h.writeA ad _).advance
  all_goals refine AlikeCheck.conclude h ?_
  case dbnz ad imm =>
    rw [h.readA]
    refine AlikeCheck.bind _ fun x => ?_
    have written := h.writeA ad (countDown x)
    by_cases taken : branchTaken (countDown x) = true
    · simp only [taken, if_true]
      exact written.update (fun u => { u with pc := target16 u.pc imm }) fun _ _ _ _ => rfl
    · simp only [taken, Bool.false_eq_true, if_false]
      exact written.advance
  case lahi ad imm =>
    rw [h.readA]
    exact AlikeCheck.bind _ fun x => (h.writeA ad _).advance
  case addai ad ra imm =>
    rw [h.readA]
    exact AlikeCheck.bind _ fun x => (h.writeA ad _).advance
  case adda ad ra rb =>
    simp only [h.readA]
    exact AlikeCheck.bind _ fun x => AlikeCheck.bind _ fun y => (h.writeA ad _).advance
  case lda ad ra imm =>
    simp only [h.readA, h.checkAccess, alike_mem h]
    exact AlikeCheck.bind _ fun x => AlikeCheck.bind _ fun _ => (h.writeA ad _).advance
  case csrw ra c =>
    simp only [h.readA]
    exact AlikeCheck.bind _ fun _ => AlikeCheck.bind _ fun x => (h.writeCsr x c).advance
  case vld | vldu => exact alike_loadVec h _ _ _ _ _
  case vst | vstu => exact alike_storeVec h _ _ _ _ _
  case vldq vd ra imm =>
    simp only [h.readA, h.checkAccess, alike_mem h]
    exact AlikeCheck.bind _ fun x => AlikeCheck.bind _ fun _ => (h.writeHalf vd .h0 _).advance
  case vstq | vstw =>
    simp only [h.readA, h.readHalf, h.checkAccess, alike_mem h]
    exact AlikeCheck.bind _ fun x => AlikeCheck.bind _ fun v => AlikeCheck.bind _ fun _ => (h.withMem _).advance
  case vldg vd ra rt w imm =>
    simp only [h.readA, h.checkElements, alike_mem h]
    refine AlikeCheck.bind _ fun x => AlikeCheck.bind _ fun y => ?_
    cases w
    · exact AlikeCheck.bind _ fun _ => (h.writeHalf vd .h0 _).advance
    · exact AlikeCheck.bind _ fun _ => (h.writeBoth vd _).advance
  case vmov | permd | btrn4 => exact alike_lanewise1 h _ _ _ _
  case unpkld | unpkhd | unpklq | unpkhq => exact alike_lanewise2 h _ _ _ _ _
  case permb vd vs vc w =>
    cases w <;> simp only [h.readHalf, h.readBoth] <;> refine AlikeCheck.bind _ fun x => AlikeCheck.bind _ fun c => ?_
    · exact AlikeCheck.bind _ fun _ => (h.writeHalf vd .h0 _).advance
    · exact AlikeCheck.bind _ fun _ => AlikeCheck.bind _ fun _ => (h.writeBoth vd _).advance
  case comb vd va vb sa sb =>
    simp only [h.readHalf]
    exact AlikeCheck.bind _ fun x => AlikeCheck.bind _ fun y => (h.writeBoth vd _).advance
  case trn4d | trn8b | trn16b => exact AlikeCheck.bind _ fun _ => alike_groupTranspose h _ _ _ _
  case trn32b =>
    rw [h.readGroupBoth]
    exact AlikeCheck.bind _ fun xs => ((h.writeGroup .h0 _).writeGroup .h1 _).advance
  case demux st =>
    rw [alike_demuxChecks h]
    refine AlikeCheck.bind _ fun table => Alike.advance ?_
    exact h.update (fun u => { u with mem := runStrategy st ⟨u.src.toNat, u.n.toNat, u.l.toNat, table⟩ u.mem })
      fun _ _ _ _ => rfl

/-! ### The turns of the engine and of the host -/

theorem alike_engineStep : AlikeResult (engineStep s) (engineStep t) := by
  unfold engineStep runCommand
  rw [alike_status h, alike_fetch h]
  split
  · cases fetch s with
    | error f => exact h.takeFault f
    | ok w =>
      dsimp only
      cases decode w with
      | error e => exact h.takeFault _
      | ok i => exact alike_exec h i
  · exact h

theorem alike_hostStore (v : Word) (c : Csr) :
    Alike (hostStore s (writeCsr s v c)) (hostStore t (writeCsr t v c)) := by
  unfold hostStore hostMayWrite
  rw [alike_status h]
  split
  · exact h.writeCsr v c
  · exact h

theorem alike_resetEngine : Alike (resetEngine s) (resetEngine t) := by
  have same : resetEngine t = resetEngine s := by
    unfold resetEngine
    rw [alike_mem h, alike_populated h, alike_turns h]
  rw [same]
  exact Alike.refl _

end Shared

/-- Two launched states that agree but for their registers are alike: every valid bit is clear. -/
theorem alike_launch (s : State) (a : Vector (Slot 32) 8) (lo hi : Vector (Slot 128) 32) :
    Alike (launch s) (launch { s with a := a, vlo := lo, vhi := hi }) := by
  obtain ⟨⟨address, vector⟩, -⟩ := launch_isLaunched s
  obtain ⟨⟨address', vector'⟩, -⟩ := launch_isLaunched { s with a := a, vlo := lo, vhi := hi }
  refine ⟨fun i => ⟨(address i).trans (address' i).symm, fun valid => ?_⟩,
    fun n h => ⟨(vector n h).trans (vector' n h).symm, fun valid => ?_⟩, rfl⟩
  · rw [address i] at valid
    cases valid
  · rw [vector n h] at valid
    cases valid

section Moves

variable {s t : State} (h : Alike s t)

include h

theorem alike_hostWriteCtrl (v : Word) : Alike (hostWriteCtrl s v) (hostWriteCtrl t v) := by
  have may : hostMayWrite t = hostMayWrite s := by
    unfold hostMayWrite
    rw [alike_status h]
  unfold hostWriteCtrl
  rw [may]
  split
  · exact alike_resetEngine h
  · split
    · rw [h.2.2]
      exact alike_launch s _ _ _
    · exact h

theorem alike_hostWriteRegister (k : Nat) (v : Word) : Alike (hostWriteRegister s k v) (hostWriteRegister t k v) := by
  unfold hostWriteRegister
  cases Csr.ofNumber k with
  | none => exact h
  | some c =>
    cases c
    case ctrl => exact alike_hostWriteCtrl h v
    case entry => exact alike_hostStore h v .entry
    case src => exact alike_hostStore h v .src
    case len => exact alike_hostStore h v .len
    case dstp => exact alike_hostStore h v .dstp
    case n => exact alike_hostStore h v .n
    case l => exact alike_hostStore h v .l
    all_goals exact h

theorem alike_hostMemory {u v : State} (after : Alike u v) (a count : Nat) :
    AlikeResult (hostMemory s a count u) (hostMemory t a count v) := by
  unfold hostMemory
  rw [alike_status h, firstMissing_congr s t (alike_populated h)]
  split
  · rfl
  · cases firstMissing s a count with
    | some x => rfl
    | none => exact after

theorem alike_hostStep (m : HostMove) : AlikeResult (hostStep m s) (hostStep m t) := by
  cases m with
  | readRegister k => exact h
  | writeRegister k v => exact alike_hostWriteRegister h k v
  | readMemory a count => exact alike_hostMemory h h a count
  | writeMemory a bytes =>
    exact alike_hostMemory h (h.update (fun u => { u with mem := u.mem.writeBytes a bytes }) fun _ _ _ _ => rfl) a _
  | assertReset => exact alike_resetEngine h

theorem alike_step : AlikeResult (step s) (step t) := by
  have taken : Alike { s with turns := s.turns.tail } { t with turns := t.turns.tail } :=
    h.update (fun u => { u with turns := u.turns.tail }) fun _ _ _ _ => rfl
  have turn : nextTurn t = nextTurn s := congrArg (·.headD .engine) (alike_turns h)
  cases agent : nextTurn s with
  | engine =>
    rw [step_engine s agent, step_engine t (turn.trans agent)]
    exact alike_engineStep taken
  | host m =>
    rw [step_host s m agent, step_host t m (turn.trans agent)]
    exact alike_hostStep taken m

end Moves

/-! ### Runs -/

/-- Runs of any length from alike states end alike. -/
theorem alike_run (k : Nat) {s t : State} (h : Alike s t) :
    AlikeResult (Host.Core.run Sys2Proof.core k s) (Host.Core.run Sys2Proof.core k t) := by
  induction k generalizing s t with
  | zero => exact h
  | succ k ih =>
    have both := alike_step h
    match stepS : step s, stepT : step t, both with
    | .next u, .next v, both =>
      rw [run_next k s u stepS, run_next k t v stepT]
      exact ih both
    | .fault f, .fault g, both =>
      rw [run_fault k s f stepS, run_fault k t g stepT]
      exact both
    | .refused f, .refused g, both =>
      rw [run_refused k s f stepS, run_refused k t g stepT]
      exact both

/-- The step that takes an accepted GO off the list is the launch. -/
theorem step_launch {s : State} {v : Word} {rest : List Turn} (turn : s.turns = .host (.writeRegister 1 v) :: rest)
    (rst : v.getLsbD 1 = false) (go : v.getLsbD 0 = true) (status : s.status = .idle ∨ s.status = .done) :
    step s = .next (launch { s with turns := rest }) := by
  have write : hostWriteCtrl { s with turns := rest } v = launch { s with turns := rest } :=
    hostWriteCtrl_launch rst go ((hostMayWrite_iff _).2 status)
  unfold step
  rw [turn]
  exact hostStep_writeCtrl write

/-! ### The statements -/

/-- Settles O18, by `alike_step`; the host reads control registers and memory, which alike states share. -/
theorem invalidRegisterDataIsUnobservable : Obligations.InvalidRegisterDataIsUnobservable := by
  intro s t h
  refine ⟨alike_step h, fun k => ?_, fun x => ?_⟩
  · exact (ControlAddress.hostReadRegister_congr fun c _ => alike_hostCsrValue h c).symm
  · exact congrArg (·.read x) (alike_mem h).symm

/-- Settles O19: the launch leaves every register invalid, so that the two launched states are alike. -/
theorem launchForgetsTheRegisters : Obligations.LaunchForgetsTheRegisters := by
  intro s t v rest k same status rst go turn
  obtain ⟨a, lo, hi, rfl⟩ : ∃ a lo hi, t = { s with a := a, vlo := lo, vhi := hi } := ⟨_, _, _, same⟩
  rw [run_next k _ _ (step_launch turn rst go status),
    run_next k _ _ (step_launch (s := { s with a := a, vlo := lo, vhi := hi }) turn rst go status)]
  exact alike_run k (alike_launch { s with turns := rest } a lo hi)

end Sys2Proof.Unobservable
end

section
/-! PROOFS. The host's view of the control registers: what it reads from each, and its writes of CTRL
(spec/10_state.md R29 to R43). -/

namespace Sys2Proof.HostRegisters

open Sys2Proof Sys2Proof.Machine Sys2Proof.ControlAddress Sys2Proof.ResetAndHost

/-- There is no control register above number 12 (10_state.md R30 (f)). -/
theorem ofNumber_eq_none {k : Nat} (hk : 13 ≤ k) : Csr.ofNumber k = none := by
  cases h : Csr.ofNumber k with
  | none => rfl
  | some c =>
    have number := number_of_ofNumber h
    have bound : c.number ≤ 12 := by cases c <;> decide
    omega

theorem hostReadRegister_above (s : State) {k : Nat} (hk : 13 ≤ k) : hostReadRegister s k = 0#32 := by
  rw [hostReadRegister, ofNumber_eq_none hk]

/-- Settles O20, by the two bits of the word and STATE. -/
theorem ctrlWritesResetOrLaunch : Obligations.CtrlWritesResetOrLaunch := by
  refine ⟨fun s v => ⟨fun rst => ?_, fun rst go status => ?_, fun rst _ status => ?_, fun rst no => ?_, rfl⟩, fun _ => rfl⟩
  · exact ⟨_, hostStep_writeCtrl (hostWriteCtrl_reset rst), resetEngine_isReset s⟩
  · exact ⟨_, hostStep_writeCtrl (hostWriteCtrl_launch rst go ((hostMayWrite_iff s).2 status)), launch_isLaunched s⟩
  · exact hostStep_writeCtrl (hostWriteCtrl_ignored rst (.inr ((hostMayWrite_eq_false_iff s).2 status)))
  · exact hostStep_writeCtrl (hostWriteCtrl_ignored rst (.inl no))

/-- Settles O23: each number names its register, and STATUS is the number of STATE. -/
theorem hostRegisterReads : Obligations.HostRegisterReads := by
  intro s
  refine ⟨fun _ => rfl, rfl, rfl, ?_, rfl, rfl, rfl, rfl, fun _ => rfl, rfl, rfl, rfl, rfl, rfl, fun k hk => ?_⟩
  · show RunState.code s.status = _
    cases s.status <;> rfl
  · exact hostReadRegister_above s hk

end Sys2Proof.HostRegisters
end

section
/-! PROOFS. Vector loads and stores (spec/43_vector_memory.md): what each one leaves in the registers and in memory when its
checks pass, and the addresses it uses as numbers. -/

namespace Sys2Proof.VectorMemory

open Sys2Proof Sys2Proof.Machine Sys2Proof.ControlAddress

/-! ### Addresses (20_memory.md R69) -/

theorem toNat_address12 (x : Word) (imm : BitVec 12) :
    ((address12 x imm).toNat : Int) = ((x.toNat : Int) + imm.toInt) % 2 ^ 32 :=
  toNat_add_ofInt x imm.toInt

theorem toNat_gatherAddress (x y : Word) (imm : BitVec 12) (k : Nat) :
    ((gatherAddress x y imm k).toNat : Int) = ((x.toNat : Int) + imm.toInt + k * y.toNat) % 2 ^ 32 := by
  have first := toNat_address12 x imm
  have product : ((BitVec.ofNat 32 k * y).toNat : Int) = (k * y.toNat : Int) % 2 ^ 32 := by
    rw [BitVec.toNat_mul, BitVec.toNat_ofNat, Nat.mod_mul_mod]
    norm_cast
  have sum : gatherAddress x y imm k = address12 x imm + BitVec.ofNat 32 k * y := rfl
  rw [sum, BitVec.toNat_add, Int.natCast_mod, Int.natCast_add, first, product]
  exact (Int.add_emod _ _ _).symm

theorem address16_zero (x : Word) : address16 x 0#16 = x := by
  simp [address16]

/-! ### Byte lanes of a narrower value -/

theorem byteOf_setWidth {width : Nat} (x : BitVec width) {wide : Nat} (h : width ≤ wide) (i : Nat) :
    byteOf (x.setWidth wide) i = byteOf x i := by
  apply BitVec.eq_of_toNat_eq
  rw [byteOf_toNat, byteOf_toNat, BitVec.toNat_setWidth_of_le h]

theorem byteOf_above {width : Nat} (x : BitVec width) {i : Nat} (h : width ≤ 8 * i) : byteOf x i = 0#8 := by
  apply BitVec.eq_of_toNat_eq
  rw [byteOf_toNat, Nat.div_eq_of_lt (Nat.lt_of_lt_of_le x.isLt (Nat.pow_le_pow_right (by decide) h))]
  rfl

/-! ### What the commands answer when their checks pass -/

section Answers

variable {s : State} {ra rt : AReg} {x y : Word} {imm : BitVec 12}

theorem exec_vldq (vd : VReg) (hx : HoldsA s ra x) (ok : Access.Ok s ⟨addrOf (address12 x imm), 8, 8⟩) :
    exec (.vldq vd ra imm) s =
      .next (advance (writeHalf s vd .h0 ((s.mem.load 64 (addrOf (address12 x imm))).setWidth 128))) := by
  have passes := (checkAccess_ok s _ _ _).2 ok
  simp only [exec, execVldq, readA_holds s ra x hx, passes, ok_bind, pure_check, conclude_ok]

theorem laneOfQword_eq (q : Fin 4) : laneOfQword q = if q.val < 2 then .h0 else .h1 := by
  revert q
  decide

theorem laneOfDword_eq (k : Fin 8) : laneOfDword k = if k.val < 4 then .h0 else .h1 := by
  revert k
  decide

theorem exec_vstq (vs : VReg) (q : Fin 4) (hx : HoldsA s ra x) (valid : (half s vs (laneOfQword q)).valid = true)
    (ok : Access.Ok s ⟨addrOf (address12 x imm), 8, 8⟩) :
    exec (.vstq vs ra q imm) s = .next (advance { s with
      mem := s.mem.store (addrOf (address12 x imm)) (qwordOf (half s vs (laneOfQword q)).data (q.val % 2)) }) := by
  have passes := (checkAccess_ok s _ _ _).2 ok
  simp only [exec, execVstq, readA_holds s ra x hx, readHalf_valid s vs _ valid, passes, ok_bind, pure_check, conclude_ok]

theorem exec_vstw (vs : VReg) (k : Fin 8) (hx : HoldsA s ra x) (valid : (half s vs (laneOfDword k)).valid = true)
    (ok : Access.Ok s ⟨addrOf (address12 x imm), 4, 4⟩) :
    exec (.vstw vs ra k imm) s = .next (advance { s with
      mem := s.mem.store (addrOf (address12 x imm)) (dwordOf (half s vs (laneOfDword k)).data (k.val % 4)) }) := by
  have passes := (checkAccess_ok s _ _ _).2 ok
  simp only [exec, execVstw, readA_holds s ra x hx, readHalf_valid s vs _ valid, passes, ok_bind, pure_check, conclude_ok]

/-- The bytes a store has put at its address. -/
theorem readByte_stored {width : Nat} (s : State) (a : Nat) (v : BitVec width) {k : Nat} (hk : k < width / 8) :
    readByte (advance { s with mem := s.mem.store a v }) (a + k) = byteOf v k := by
  show Memory.read (s.mem.store a v) (a + k) = byteOf v k
  rw [read_store, if_pos ⟨by omega, by omega⟩, Nat.add_sub_cancel_left]

/-- The half a gather puts four elements into, from element `first` up. -/
def gathered (m : Memory) (ea : Nat → Nat) (first : Nat) : Half :=
  let e := fun k => m.load 32 (ea (first + k))
  halfOfDwords (e 0) (e 1) (e 2) (e 3)

theorem dwordOf_gathered (s : State) (ea : Nat → Nat) (first : Nat) {k : Nat} (hk : k < 4) :
    (dwordOf (gathered s.mem ea first) k).toNat = wordAt s (ea (first + k)) := by
  rw [gathered, dwordOf_lanes (fun k => s.mem.load 32 (ea (first + k))) k hk, wordAt_eq]

theorem checkElements_range {ea : Nat → Nat} {count : Nat} (ok : ∀ k < count, Access.Ok s ⟨ea k, 4, 4⟩) :
    checkElements s ((List.range count).map ea) = .ok () := by
  rw [checkElements_ok]
  intro a ha
  obtain ⟨k, hk, rfl⟩ := List.mem_map.1 ha
  exact ok k (List.mem_range.1 hk)

theorem exec_vldg_w128 (vd : VReg) (hx : HoldsA s ra x) (hy : HoldsA s rt y)
    (ok : ∀ k < 4, Access.Ok s ⟨addrOf (gatherAddress x y imm k), 4, 4⟩) :
    exec (.vldg vd ra rt .w128 imm) s =
      .next (advance (writeHalf s vd .h0 (gathered s.mem (fun k => addrOf (gatherAddress x y imm k)) 0))) := by
  simp only [exec, execVldg, readA_holds s ra x hx, readA_holds s rt y hy, checkElements_range ok, ok_bind, pure_check,
    conclude_ok]
  rfl

theorem exec_vldg_w256 (vd : VReg) (hx : HoldsA s ra x) (hy : HoldsA s rt y)
    (ok : ∀ k < 8, Access.Ok s ⟨addrOf (gatherAddress x y imm k), 4, 4⟩) :
    exec (.vldg vd ra rt .w256 imm) s =
      .next (advance (writeBoth s vd (gathered s.mem (fun k => addrOf (gatherAddress x y imm k)) 0,
        gathered s.mem (fun k => addrOf (gatherAddress x y imm k)) 4))) := by
  simp only [exec, execVldg, readA_holds s ra x hx, readA_holds s rt y hy, checkElements_range ok, ok_bind, pure_check,
    conclude_ok]
  rfl

end Answers

/-! ### The statements -/

/-- Settles O39. -/
theorem effectiveAddressesAreSignedSums : Obligations.EffectiveAddressesAreSignedSums :=
  fun x y i12 i16 i24 k => ⟨toNat_address12 x i12, toNat_address16 x i16, toNat_gatherAddress x y i12 k,
    toNat_target16 x i16, toNat_target24 x i24⟩

/-- Settles O34: both are `loadVec`, at two alignments. -/
theorem vectorLoads : Obligations.VectorLoads := by
  intro vd ra w imm s x hx
  refine ⟨fun ok => ?_, fun ok => ?_⟩
  · obtain ⟨t, he, loaded⟩ := loadVec_ok (widthBytes w) vd ra w imm s x hx ok
    exact ⟨t, congrArg (conclude s) he, loaded⟩
  · obtain ⟨t, he, loaded⟩ := loadVec_ok 1 vd ra w imm s x hx ok
    exact ⟨t, congrArg (conclude s) he, loaded⟩

/-- Settles O35: the qword is zero-extended, and a value has no bytes above its width. -/
theorem vldqLoadsAQword : Obligations.VldqLoadsAQword := by
  intro vd ra imm s x hx ea ok
  refine ⟨_, exec_vldq vd hx ok, by simp, ?_⟩
  rw [half_advance, half_writeHalf_self]
  refine ⟨rfl, fun k hk => ?_, fun k hk => ?_, frame_writeHalf s vd _⟩
  · dsimp only
    rw [byteOf_setWidth _ (by decide), byteOf_load _ _ _ _ hk]
    rfl
  · dsimp only
    rw [byteOf_setWidth _ (by decide), byteOf_above _ (by omega)]

/-- Settles O36, width by width. -/
theorem vldgGathersDwords : Obligations.VldgGathersDwords := by
  intro vd ra rt w imm s x y hx hy ea ok
  cases w with
  | w128 =>
    refine ⟨_, exec_vldg_w128 vd hx hy ok, by simp, fun h hl => ?_, frame_writeHalf s vd _⟩
    obtain rfl := usesLane_w128 hl
    rw [half_advance, half_writeHalf_self]
    exact ⟨rfl, fun k hk => dwordOf_gathered s ea 0 hk⟩
  | w256 =>
    refine ⟨_, exec_vldg_w256 vd hx hy ok, by simp, fun h _ => ?_, frame_writeBoth s vd _⟩
    rw [half_advance, half_writeBoth, if_pos rfl]
    cases h with
    | h0 => exact ⟨rfl, fun k hk => dwordOf_gathered s ea 0 hk⟩
    | h1 => exact ⟨rfl, fun k hk => dwordOf_gathered s ea 4 hk⟩

/-- Settles O37: both are `storeVec`, at two alignments. -/
theorem vectorStores : Obligations.VectorStores := by
  intro vs ra w imm s x hx valid
  refine ⟨fun ok => ?_, fun ok => ?_⟩
  · obtain ⟨t, he, stored⟩ := storeVec_ok (widthBytes w) vs ra w imm s x hx valid ok
    exact ⟨t, congrArg (conclude s) he, stored⟩
  · obtain ⟨t, he, stored⟩ := storeVec_ok 1 vs ra w imm s x hx valid ok
    exact ⟨t, congrArg (conclude s) he, stored⟩

/-- Settles O38: the lane's bytes are those of the half from 8 or 4 times the lane up. -/
theorem laneStores : Obligations.LaneStores := by
  refine ⟨fun vs ra q imm s x hx => ?_, fun vs ra d imm s x hx => ?_⟩
  all_goals intro h ea valid ok
  · have lane : laneOfQword q = h := laneOfQword_eq q
    rw [← lane] at valid ⊢
    exact ⟨_, exec_vstq vs q hx valid ok, by simp,
      fun k hk => (readByte_stored s ea _ hk).trans (byteOf_qwordOf _ _ k hk), frame_store s ea _⟩
  · have lane : laneOfDword d = h := laneOfDword_eq d
    rw [← lane] at valid ⊢
    exact ⟨_, exec_vstw vs d hx valid ok, by simp,
      fun k hk => (readByte_stored s ea _ hk).trans (byteOf_dwordOf _ _ k hk), frame_store s ea _⟩

/-- Settles O40: the bytes the load reads are the bytes of the lane the store put there. -/
theorem storeThenDwordLoadReturnsTheLane : Obligations.StoreThenDwordLoadReturnsTheLane := by
  intro vs ra rb ad imm s t u x y v j hj hx hy hv ok at_lane stores loads
  have valid : ∀ h, UsesLane .w128 h → (half s vs h).valid = true := fun h hl => by
    obtain rfl := usesLane_w128 hl
    rw [show half s vs .h0 = ⟨v, true⟩ from hv]
  obtain ⟨t', he, -, stored, ⟨⟨address, -, -, mem, -⟩, -⟩⟩ := storeVec_ok 16 vs ra .w128 imm s x hx valid ok
  obtain rfl : t' = t := Host.Outcome.next.inj ((congrArg (conclude s) he).symm.trans stores)
  obtain ⟨aligned, top, inside⟩ := ok
  have base : HoldsA t' rb y := (address rb id).trans hy
  have ok' : Access.Ok t' ⟨addrOf (address16 y 0#16), 4, 4⟩ := by
    rw [address16_zero, at_lane]
    refine ⟨by simp only at aligned ⊢; omega, by simp only at top ⊢; omega, fun k hk => ?_⟩
    have := inside (4 * j + k) (by simp only at hk ⊢; omega)
    rwa [inMem_congr s t' mem, Nat.add_assoc]
  rw [exec_lda base ok'] at loads
  injection loads with loads
  have lane : t'.mem.load 32 (addrOf (address16 y 0#16)) = dwordOf v j := by
    apply eq_of_byteOf (by decide)
    intro i hi
    have byte := stored .h0 (.inl rfl) (4 * j + i) (by omega)
    rw [show half s vs .h0 = ⟨v, true⟩ from hv] at byte
    rw [byteOf_load _ _ _ _ hi, byteOf_dwordOf _ _ _ hi, address16_zero, at_lane, Nat.add_assoc]
    exact byte
  rw [← loads, ← lane]
  exact holdsA_writeA t' ad _

end Sys2Proof.VectorMemory
end

section
/-! PROOFS. The shuffle network (spec/44_shuffle_network.md): what each command leaves in the registers, the laws of the
value functions, and the transposes as compositions of smaller ones (45_register_transpose.md R246, R248, R251). -/

namespace Sys2Proof.ShuffleNetwork

open Sys2Proof Sys2Proof.Machine Sys2Proof.RegisterTranspose

/-! ### The commands -/

section Commands

variable {s : State} {vd va vb : VReg} {w : Width}

theorem half_of_valid {n : VReg} {h : Lane} (valid : (half s n h).valid = true) : half s n h = ⟨(half s n h).data, true⟩ := by
  rw [← valid]

/-- The interleaves of dwords k and k + 1 (R223, R224). -/
theorem dwordInterleave_completes {i : Instr} {f : Half → Half → Half} {k : Nat}
    (meaning : exec i s = conclude s (lanewise2 f vd va vb w s))
    (value : ∀ x y, f x y = halfOfDwords (dwordOf x k) (dwordOf y k) (dwordOf x (k + 1)) (dwordOf y (k + 1)))
    (valid : ∀ h, UsesLane w h → (half s va h).valid = true ∧ (half s vb h).valid = true) :
    ∃ t, exec i s = .next t ∧ t.pc = s.pc + 4#32 ∧ (∀ h, UsesLane w h → (half t vd h).valid = true ∧
      dwordOf (half t vd h).data 0 = dwordOf (half s va h).data k ∧
      dwordOf (half t vd h).data 1 = dwordOf (half s vb h).data k ∧
      dwordOf (half t vd h).data 2 = dwordOf (half s va h).data (k + 1) ∧
      dwordOf (half t vd h).data 3 = dwordOf (half s vb h).data (k + 1)) ∧ Frame noA (halvesOf vd w) noByte s t := by
  obtain ⟨t, he, hpc, written, frame⟩ := lanewise2_ok f vd va vb w s valid
  refine ⟨t, by rw [meaning, he, conclude_ok], hpc, fun h hl => ?_, frame⟩
  rw [written h hl, value]
  exact ⟨rfl, dwordOf_zero .., dwordOf_one .., dwordOf_two .., dwordOf_three ..⟩

/-- The interleaves of qword k (R225, R226). -/
theorem qwordInterleave_completes {i : Instr} {f : Half → Half → Half} {k : Nat}
    (meaning : exec i s = conclude s (lanewise2 f vd va vb w s))
    (value : ∀ x y, f x y = halfOfQwords (qwordOf x k) (qwordOf y k))
    (valid : ∀ h, UsesLane w h → (half s va h).valid = true ∧ (half s vb h).valid = true) :
    ∃ t, exec i s = .next t ∧ t.pc = s.pc + 4#32 ∧ (∀ h, UsesLane w h → (half t vd h).valid = true ∧
      qwordOf (half t vd h).data 0 = qwordOf (half s va h).data k ∧
      qwordOf (half t vd h).data 1 = qwordOf (half s vb h).data k) ∧ Frame noA (halvesOf vd w) noByte s t := by
  obtain ⟨t, he, hpc, written, frame⟩ := lanewise2_ok f vd va vb w s valid
  refine ⟨t, by rw [meaning, he, conclude_ok], hpc, fun h hl => ?_, frame⟩
  rw [written h hl, value]
  exact ⟨rfl, qwordOf_halfOfQwords_zero .., qwordOf_halfOfQwords_one ..⟩

/-- PERMB with valid sources, its control bytes still to check. -/
theorem exec_permb_valid (valid : ∀ h, UsesLane w h → (half s va h).valid = true ∧ (half s vb h).valid = true) :
    exec (.permb vd va vb w) s = conclude s
      (checkControl .h0 (half s vb .h0).data >>= fun _ =>
        (if w = .w256 then checkControl .h1 (half s vb .h1).data else .ok ()) >>= fun _ =>
          lanewise2 permbHalf vd va vb w s) := by
  obtain ⟨source, control⟩ := valid .h0 (.inl rfl)
  cases w with
  | w128 =>
    simp only [exec, execPermb, lanewise2, readHalf_valid s va _ source, readHalf_valid s vb _ control, ok_bind,
      reduceCtorEq, if_false]
  | w256 =>
    obtain ⟨source', control'⟩ := valid .h1 (.inr rfl)
    simp only [exec, execPermb, lanewise2, readBoth_valid s va source source', readBoth_valid s vb control control',
      ok_bind, if_true]

theorem exec_permb (valid : ∀ h, UsesLane w h → (half s va h).valid = true ∧ (half s vb h).valid = true)
    (control : ∀ h, UsesLane w h → ∀ k < 16, (byteOf (half s vb h).data k).toNat ≤ 15) :
    exec (.permb vd va vb w) s = conclude s (lanewise2 permbHalf vd va vb w s) := by
  rw [exec_permb_valid valid, checkControl_ok _ _ (control .h0 (.inl rfl)), ok_bind]
  split
  · rename_i wide
    rw [checkControl_ok _ _ (control .h1 (.inr wide)), ok_bind]
  · rw [ok_bind]

theorem exec_comb {sa sb : Lane} (first : (half s va sa).valid = true) (second : (half s vb sb).valid = true) :
    exec (.comb vd va vb sa sb) s = .next (advance (writeBoth s vd ((half s va sa).data, (half s vb sb).data))) := by
  simp only [exec, execComb, readHalf_valid s va sa first, readHalf_valid s vb sb second, ok_bind, pure_check, conclude_ok]

theorem valid_of_sourceHalves {n : VReg} (valid : ∀ y ∈ sourceHalves n w, y.Valid s) {h : Lane} (hl : UsesLane w h) :
    (half s n h).valid = true := by
  cases w with
  | w128 =>
    obtain rfl := usesLane_w128 hl
    exact valid (.half n .h0) (by simp [sourceHalves])
  | w256 => cases h <;> exact valid (.half n _) (by simp [sourceHalves])

end Commands

/-! ### Dword lanes of the interleaves (R223 to R226) -/

section Interleave

variable (a b : Half) {j : Nat} (hj : j < 4)

include hj

theorem dwordOf_unpkldHalf : dwordOf (unpkldHalf a b) j = dwordOf (if j % 2 = 0 then a else b) (j / 2) := by
  interval_cases j
  · exact dwordOf_zero ..
  · exact dwordOf_one ..
  · exact dwordOf_two ..
  · exact dwordOf_three ..

theorem dwordOf_unpkhdHalf : dwordOf (unpkhdHalf a b) j = dwordOf (if j % 2 = 0 then a else b) (2 + j / 2) := by
  interval_cases j
  · exact dwordOf_zero ..
  · exact dwordOf_one ..
  · exact dwordOf_two ..
  · exact dwordOf_three ..

theorem dwordOf_halfOfQwords (p q : Qword) :
    dwordOf (halfOfQwords p q) j = if j < 2 then dwordOf p j else dwordOf q (j - 2) := by
  split
  · rename_i low
    have lane := dwordOf_qwordOf (halfOfQwords p q) 0 j low
    rwa [qwordOf_halfOfQwords_zero, Nat.mul_zero, Nat.zero_add, eq_comm] at lane
  · rename_i high
    have lane := dwordOf_qwordOf (halfOfQwords p q) 1 (j - 2) (by omega)
    rwa [qwordOf_halfOfQwords_one, show 2 * 1 + (j - 2) = j by omega, eq_comm] at lane

theorem dwordOf_unpklqHalf : dwordOf (unpklqHalf a b) j = if j < 2 then dwordOf a j else dwordOf b (j - 2) := by
  rw [unpklqHalf, dwordOf_halfOfQwords hj]
  split
  · rw [dwordOf_qwordOf _ _ _ ‹_›, Nat.mul_zero, Nat.zero_add]
  · rw [dwordOf_qwordOf _ _ _ (by omega), Nat.mul_zero, Nat.zero_add]

theorem dwordOf_unpkhqHalf : dwordOf (unpkhqHalf a b) j = if j < 2 then dwordOf a (2 + j) else dwordOf b j := by
  rw [unpkhqHalf, dwordOf_halfOfQwords hj]
  split
  · rw [dwordOf_qwordOf _ _ _ ‹_›]
  · rw [dwordOf_qwordOf _ _ _ (by omega)]
    congr 1
    omega

end Interleave

/-! ### The laws of PERMB and PERMD (R229, 45_register_transpose.md R241) -/

/-- PERMB is told by the numbers its control bytes name. -/
theorem permbHalf_eq_of_bytes {x c y : Half} (index : Nat → Nat) (names : ∀ k < 16, (byteOf c k).toNat = index k)
    (bytes : ∀ k < 16, byteOf y k = byteOf x (index k)) : permbHalf x c = y := by
  apply eq_of_byteOf (by decide)
  intro k hk
  rw [byteOf_permbHalf x c k hk, names k hk, bytes k hk]

theorem permbHalf_identity (x : Half) : permbHalf x 0x0F0E0D0C0B0A09080706050403020100#128 = x :=
  permbHalf_eq_of_bytes id (by decide) fun _ _ => rfl

theorem permbHalf_btrn4 (x : Half) : permbHalf x 0x0F0B07030E0A06020D0905010C080400#128 = btrn4Half x :=
  permbHalf_eq_of_bytes (fun k => 4 * (k % 4) + k / 4) (by decide) fun k hk => byteOf_halfOfFn _ k hk

theorem permbHalf_permbHalf {x c₁ c₂ c₃ : Half} (bound : ∀ k < 16, (byteOf c₂ k).toNat ≤ 15)
    (compose : ∀ k < 16, byteOf c₃ k = byteOf c₁ (byteOf c₂ k).toNat) :
    permbHalf (permbHalf x c₁) c₂ = permbHalf x c₃ :=
  permbHalf_eq_of_bytes (fun k => (byteOf c₂ k).toNat) (fun _ _ => rfl) fun k hk => by
    rw [byteOf_permbHalf x c₃ k hk, byteOf_permbHalf x c₁ _ (Nat.lt_succ_of_le (bound k hk)), compose k hk]

theorem permdHalf_identity (x : Half) : permdHalf 0xE4#8 x = x := by
  have selector : ∀ j < 4, (0xE4#8).toNat / 4 ^ j % 4 = j := by decide
  apply eq_of_dwordOf
  intro j hj
  rw [dwordOf_permdHalf _ x j hj, selector j hj]

/-- The four low dwords in order (R229 (b)). -/
theorem unpklqHalf_unpkldHalf (a b c d : Half) : unpklqHalf (unpkldHalf a b) (unpkldHalf c d) =
    halfOfDwords (dwordOf a 0) (dwordOf b 0) (dwordOf c 0) (dwordOf d 0) := by
  apply eq_of_dwordOf
  intro j hj
  rw [dwordOf_unpklqHalf _ _ hj]
  interval_cases j <;>
    simp [dwordOf_unpkldHalf, dwordOf_zero, dwordOf_one, dwordOf_two, dwordOf_three]

/-! ### The transposes from smaller ones (R230, 45_register_transpose.md R246, R248, R251) -/

/-- Row k of the dword transpose of four rows. -/
def fourRows (a b c d : Half) (k : Nat) : Half := (trn4dRows [a, b, c, d]).getD k 0#128

theorem byteOf_fourRows (a b c d : Half) {k j m : Nat} (hk : k < 4) (hj : j < 4) (hm : m < 4) :
    byteOf (fourRows a b c d k) (4 * j + m) = byteOf ([a, b, c, d].getD j 0#128) (4 * k + m) := by
  rw [← byteOf_dwordOf _ _ _ hm, ← byteOf_dwordOf _ _ _ hm, fourRows, dwordOf_trn4dRows _ k j hk hj]

/-- Four rows from row 4g up: the dword transpose, then the byte transpose of each dword group. -/
def quarter (row : Nat → Half) (g k : Nat) : Half :=
  btrn4Half (fourRows (row (4 * g)) (row (4 * g + 1)) (row (4 * g + 2)) (row (4 * g + 3)) k)

theorem byteOf_quarter (row : Nat → Half) (g : Nat) {k p m : Nat} (hk : k < 4) (hp : p < 4) (hm : m < 4) :
    byteOf (quarter row g k) (4 * p + m) = byteOf (row (4 * g + m)) (4 * k + p) := by
  rw [quarter, byteOf_btrn4Half _ m p hm hp, byteOf_fourRows _ _ _ _ hk hm hp]
  interval_cases m <;> rfl

/-- Byte i of row p of the dword transpose of four rows, where the row that holds byte i is a quarter. -/
theorem byteOf_fourRows_of_quarter (row : Nat → Half) {a b c d : Half} {k p i : Nat} (hk : k < 4) (hp : p < 4)
    (hi : i < 16) (quarters : [a, b, c, d].getD (i / 4) 0#128 = quarter row (i / 4) k) :
    byteOf (fourRows a b c d p) i = byteOf (row i) (4 * k + p) := by
  have column : i % 4 < 4 := Nat.mod_lt _ (by decide)
  have lane := byteOf_fourRows a b c d hp (show i / 4 < 4 by omega) column
  rwa [quarters, byteOf_quarter row _ hk hp column, Nat.div_add_mod] at lane

theorem byteOf_fourRows_of_zero {a b c d : Half} {p i : Nat} (hp : p < 4) (hi : i < 16)
    (zero : [a, b, c, d].getD (i / 4) 0#128 = 0#128) : byteOf (fourRows a b c d p) i = 0#8 := by
  have lane := byteOf_fourRows a b c d hp (show i / 4 < 4 by omega) (Nat.mod_lt i (show 0 < 4 by decide))
  rw [zero, Nat.div_add_mod] at lane
  rw [lane]
  simp [byteOf]

/-- TRN4D is eight interleaves (44_shuffle_network.md R230). -/
theorem trn4dRows_eq_interleaves (a b c d : Half) : trn4dRows [a, b, c, d] =
    [unpklqHalf (unpkldHalf a b) (unpkldHalf c d), unpkhqHalf (unpkldHalf a b) (unpkldHalf c d),
      unpklqHalf (unpkhdHalf a b) (unpkhdHalf c d), unpkhqHalf (unpkhdHalf a b) (unpkhdHalf c d)] := by
  refine eq_of_getD 0#128 (length_trn4dRows _) rfl fun i hi => eq_of_dwordOf _ _ fun j hj => ?_
  rw [dwordOf_trn4dRows _ i j hi hj]
  interval_cases i <;> interval_cases j <;>
    simp [dwordOf_unpklqHalf, dwordOf_unpkhqHalf, dwordOf_unpkldHalf, dwordOf_unpkhdHalf]

theorem trn8bRows_eq_quarters (row : Nat → Half) {k p : Nat} (hk : k < 2) (hp : p < 4) :
    (trn8bRows ((List.range 8).map row)).getD (4 * k + p) 0#128 =
      fourRows (quarter row 0 k) (quarter row 1 k) 0#128 0#128 p := by
  refine eq_of_byteOf (by decide) _ _ fun i (hi : i < 16) => ?_
  rw [byteOf_trn8bRows _ i _ hi (by omega)]
  by_cases low : i < 8
  · rw [if_pos low, getD_map_range _ _ _ _ low, byteOf_fourRows_of_quarter row (k := k) (by omega) hp hi]
    interval_cases i <;> rfl
  · rw [if_neg low, byteOf_fourRows_of_zero hp hi]
    have upper : i / 4 = 2 ∨ i / 4 = 3 := by omega
    rcases upper with place | place <;> rw [place] <;> rfl

theorem trn16bRows_eq_quarters (row : Nat → Half) {k p : Nat} (hk : k < 4) (hp : p < 4) :
    (trn16bRows ((List.range 16).map row)).getD (4 * k + p) 0#128 =
      fourRows (quarter row 0 k) (quarter row 1 k) (quarter row 2 k) (quarter row 3 k) p := by
  refine eq_of_byteOf (by decide) _ _ fun i (hi : i < 16) => ?_
  rw [byteOf_trn16bRows _ i _ hi (by omega), getD_map_range _ _ _ _ hi, byteOf_fourRows_of_quarter row hk hp hi]
  interval_cases i <;> rfl

/-- Row j of TRN16B on sixteen rows from row 16g up. -/
def block (row : Nat → Half) (g j : Nat) : Half :=
  (trn16bRows ((List.range 16).map fun i => row (16 * g + i))).getD j 0#128

theorem byteOf_block (row : Nat → Half) (g : Nat) {i j : Nat} (hi : i < 16) (hj : j < 16) :
    byteOf (block row g j) i = byteOf (row (16 * g + i)) j := by
  rw [block, byteOf_trn16bRows _ i j hi hj, getD_map_range _ _ _ _ hi]

theorem byteOf_blocks (row : Nat → Half) {i j : Nat} (hi : i < 32) (hj : j < 16) :
    byteOf (vecOfHalves (block row 0 j) (block row 1 j)) i = byteOf (row i) j := by
  rw [byteOf_vecOfHalves _ _ i hi]
  split
  · rw [byteOf_block row 0 ‹_› hj, Nat.mul_zero, Nat.zero_add]
  · rw [byteOf_block row 1 (by omega) hj, show 16 * 1 + (i - 16) = i by omega]

/-- Row j of TRN32B is two blocks of the low halves, and row 16 + j two of the high halves (R251). -/
theorem trn32bRows_eq_blocks (row high : Nat → Half) {j : Nat} (hj : j < 16) :
    let out := fun j => (trn32bRows ((List.range 32).map fun i => vecOfHalves (row i) (high i))).getD j 0#256
    out j = vecOfHalves (block row 0 j) (block row 1 j) ∧ out (16 + j) = vecOfHalves (block high 0 j) (block high 1 j) := by
  refine ⟨eq_of_byteOf (by decide) _ _ fun i (hi : i < 32) => ?_, eq_of_byteOf (by decide) _ _ fun i (hi : i < 32) => ?_⟩
  · rw [byteOf_blocks row hi hj, byteOf_trn32bRows _ i _ hi (by omega), getD_map_range _ _ _ _ hi,
      byteOf_vecOfHalves _ _ _ (by omega), if_pos hj]
  · rw [byteOf_blocks high hi hj, byteOf_trn32bRows _ i _ hi (by omega), getD_map_range _ _ _ _ hi,
      byteOf_vecOfHalves _ _ _ (by omega), if_neg (by omega), Nat.add_sub_cancel_left]

/-! ### The statements -/

/-- Settles O41: both are one-source lane-wise commands. -/
theorem vmovAndPermd : Obligations.VmovAndPermd := by
  refine fun vd vs w imm s valid => ⟨?_, ?_⟩
  · obtain ⟨t, he, hpc, written, frame⟩ := lanewise1_ok (fun x => x) vd vs w s valid
    exact ⟨t, congrArg (conclude s) he, hpc, fun h hl => (written h hl).trans (half_of_valid (valid h hl)).symm, frame⟩
  · obtain ⟨t, he, hpc, written, frame⟩ := lanewise1_ok (permdHalf imm) vd vs w s valid
    refine ⟨t, congrArg (conclude s) he, hpc, fun h hl => ?_, frame⟩
    rw [written h hl]
    exact ⟨rfl, fun j hj => dwordOf_permdHalf imm _ j hj⟩

/-- Settles O42: with the control bytes in range, PERMB is the lane-wise command of `permbHalf`. -/
theorem permbPermutesBytes : Obligations.PermbPermutesBytes := by
  intro vd vs vc w s sources
  have valid : ∀ h, UsesLane w h → (half s vs h).valid = true ∧ (half s vc h).valid = true := fun h hl =>
    ⟨(sources h hl).1, (sources h hl).2.1⟩
  obtain ⟨t, he, hpc, written, frame⟩ := lanewise2_ok permbHalf vd vs vc w s valid
  refine ⟨t, by rw [exec_permb valid fun h hl => (sources h hl).2.2, he, conclude_ok], hpc, fun h hl => ?_, frame⟩
  rw [written h hl]
  exact ⟨rfl, fun k hk => byteOf_permbHalf _ _ k hk⟩

/-- Settles O43: the four are two-source lane-wise commands. -/
theorem interleaves : Obligations.Interleaves := by
  intro vd va vb w s valid a b result
  exact ⟨dwordInterleave_completes (f := unpkldHalf) (k := 0) rfl (fun _ _ => rfl) valid,
    dwordInterleave_completes (f := unpkhdHalf) (k := 2) rfl (fun _ _ => rfl) valid,
    qwordInterleave_completes (f := unpklqHalf) (k := 0) rfl (fun _ _ => rfl) valid,
    qwordInterleave_completes (f := unpkhqHalf) (k := 1) rfl (fun _ _ => rfl) valid⟩

/-- Settles O44. -/
theorem combJoinsTwoHalves : Obligations.CombJoinsTwoHalves := by
  intro vd va vb sa sb s first second
  refine ⟨_, exec_comb first second, by simp, ?_, ?_, frame_writeBoth s vd _⟩
  · rw [half_advance, half_writeBoth, if_pos rfl, half_of_valid first]
  · rw [half_advance, half_writeBoth, if_pos rfl, half_of_valid second]

/-- Settles O45. -/
theorem shuffleLaws : Obligations.ShuffleLaws := by
  refine ⟨fun x => ⟨permbHalf_identity x, permdHalf_identity x⟩, fun vd vs s x holds => ?_, unpklqHalf_unpkldHalf,
    fun x c₁ c₂ c₃ bound compose => permbHalf_permbHalf (fun k hk => (bound k hk).2) compose, by decide, permbHalf_btrn4⟩
  have valid : ∀ h, UsesLane .w128 h → (half s vs h).valid = true := fun h hl => by
    obtain rfl := usesLane_w128 hl
    rw [show half s vs .h0 = ⟨x, true⟩ from holds]
  obtain ⟨t, he, -, written, -⟩ := lanewise1_ok (fun x => x) vd vs .w128 s valid
  refine ⟨t, congrArg (conclude s) he, (written .h0 (.inl rfl)).trans ?_⟩
  rw [show half s vs .h0 = ⟨x, true⟩ from holds]

/-- Settles O50: each composition, told by the bytes or dwords of its rows. -/
theorem transposeCompositions : Obligations.TransposeCompositions :=
  ⟨trn4dRows_eq_interleaves, fun row high => ⟨fun _ hk _ hp => trn8bRows_eq_quarters row hk hp,
    fun _ hk _ hp => trn16bRows_eq_quarters row hk hp, fun _ hj => trn32bRows_eq_blocks row high hj⟩⟩

/-- Settles O59: the half that holds the bad byte is the first whose control check fails. -/
theorem permbBadControlFaults : Obligations.PermbBadControlFaults := by
  intro vd vs vc w s h k hk hl valid bad before low
  have sourcesValid : ∀ h, UsesLane w h → (half s vs h).valid = true ∧ (half s vc h).valid = true := fun h hl =>
    ⟨valid_of_sourceHalves (fun y hy => valid y (List.mem_append_left _ hy)) hl,
      valid_of_sourceHalves (fun y hy => valid y (List.mem_append_right _ hy)) hl⟩
  refine faults_of_error _ s _ .shuffleControl _ (exec_permb_valid sourcesValid) ?_
  have raised := checkControl_bad h _ k hk bad before
  cases h with
  | h0 => rw [raised, error_bind]
  | h1 =>
    have wide : w = .w256 := hl.resolve_left (by decide)
    rw [checkControl_ok _ _ (low rfl), ok_bind, if_pos wide, raised, error_bind]

end Sys2Proof.ShuffleNetwork
end

section
/-! PROOFS. DEMUX (spec/41_demux_contract.md): what a legal one leaves in memory, byte by byte, and from this the contract,
the equivalence of the strategies and the re-run; then what its checks raise, in their order (R157). -/

namespace Sys2Proof.DemuxCommand

open Sys2Proof Sys2Proof.Machine

/-! ### The memory a legal DEMUX leaves -/

section Legal

variable {st st' : Strategy} {s : State}

/-- The memory after the strategy has run. -/
def demuxed (st : Strategy) (s : State) : Memory := runStrategy st (blockOf s) s.mem

/-- The address of the byte a strategy puts at row r of plane c (R151; 46_demux_simd.md R277). -/
def sourceOf (st : Strategy) (s : State) (c r : Nat) : Nat :=
  match st with
  | .copy => s.src.toNat + c * s.l.toNat + r
  | _ => s.src.toNat + r * s.n.toNat + c

theorem sourceOf_of_ne_copy (hst : st ≠ .copy) (s : State) (c r : Nat) :
    sourceOf st s c r = s.src.toNat + r * s.n.toNat + c := by
  cases st
  case copy => exact absurd rfl hst
  all_goals rfl

/-- Row r, column c of a table of rows of the same length. -/
theorem mul_add_lt {rows columns r c : Nat} (hr : r < rows) (hc : c < columns) : r * columns + c < rows * columns :=
  calc r * columns + c < (r + 1) * columns := by rw [Nat.succ_mul]; omega
    _ ≤ rows * columns := Nat.mul_le_mul_right _ hr

/-- The bytes a DEMUX reads lie in its source block. -/
theorem sourceOf_range {c r : Nat} (legal : DemuxLegal st s) (hc : c < s.n.toNat) (hr : r < s.l.toNat) :
    ∃ i < s.len.toNat, sourceOf st s c r = s.src.toNat + i := by
  obtain ⟨⟨-, -, size, -, -⟩, -⟩ := legal
  by_cases copies : st = .copy
  · subst copies
    exact ⟨c * s.l.toNat + r, size ▸ mul_add_lt hc hr, Nat.add_assoc _ _ _⟩
  · rw [sourceOf_of_ne_copy copies]
    exact ⟨r * s.n.toNat + c, size ▸ (mul_add_lt hr hc).trans_eq (Nat.mul_comm _ _), Nat.add_assoc _ _ _⟩

/-- Each plane byte of a legal DEMUX ends as its source byte was. -/
theorem read_demuxed (legal : DemuxLegal st s) {c r : Nat} (hc : c < s.n.toNat) (hr : r < s.l.toNat) :
    (demuxed st s).read (planeAddress s c + r) = readByte s (sourceOf st s c r) := by
  have reached : (blockOf s).All (planeAddress s c + r) := (all_blockOf s _).2 ⟨c, hc, r, hr, rfl⟩
  by_cases copies : st = .copy
  · subst copies
    obtain ⟨e, he, q, hq, place, value⟩ := (wrote_of_legal_copy s legal).read _ reached
    rw [plane_blockOf s e he] at place
    obtain ⟨rfl, rfl⟩ := plane_unique .copy s legal c r e q hc hr he hq place
    exact value
  · obtain ⟨e, he, q, hq, place, value⟩ := (wrote_of_legal st s copies legal).read _ reached
    rw [plane_blockOf s e he] at place
    obtain ⟨rfl, rfl⟩ := plane_unique st s legal c r e q hc hr he hq place
    rw [sourceOf_of_ne_copy copies]
    exact value

theorem read_demuxed_outside (legal : DemuxLegal st s) {x : Nat} (outside : ¬ planeBytes s x) :
    (demuxed st s).read x = readByte s x :=
  (wrote_inMem st s legal).read_same x fun _ written => outside written.1

theorem demuxed_wf (legal : DemuxLegal st s) (wf : s.mem.wf) : (demuxed st s).wf := (wrote_inMem st s legal).wf wf

/-- The state a legal DEMUX ends in. -/
def afterDemux (st : Strategy) (s : State) : State := advance { s with mem := demuxed st s }

theorem exec_demux (legal : DemuxLegal st s) : exec (.demux st) s = .next (afterDemux st s) :=
  exec_demux_legal st s legal

theorem frame_afterDemux {stored : Nat → Prop} (kept : ∀ x, ¬ stored x → (demuxed st s).read x = readByte s x) :
    Frame noA noHalf stored s (afterDemux st s) :=
  ⟨⟨fun _ _ => rfl, fun n h _ => by cases h <;> rfl, kept, rfl, rfl⟩, sameControl_refl s, rfl, rfl, rfl, rfl⟩

/-- A plane of a legal DEMUX has no byte in the source block. -/
theorem source_not_planeBytes (legal : DemuxLegal st s) {i : Nat} (hi : i < s.len.toNat) :
    ¬ planeBytes s (s.src.toNat + i) := by
  rintro ⟨c, hc, r, hr, place⟩
  obtain ⟨-, -, -, -, apart⟩ := legal
  exact apart c hc (.inl ⟨by omega, by omega⟩)

/-- A plane of a legal DEMUX has no byte in the pointer table. -/
theorem table_not_planeBytes (legal : DemuxLegal st s) {i : Nat} (hi : i < 4 * s.n.toNat) :
    ¬ planeBytes s (s.dstp.toNat + i) := by
  rintro ⟨c, hc, r, hr, place⟩
  obtain ⟨-, -, -, -, apart⟩ := legal
  exact apart c hc (.inr (.inl ⟨by omega, by omega⟩))

/-! ### Equal memories (R160) -/

/-- REF requires nothing that another strategy does not. -/
theorem legal_ref (legal : DemuxLegal st s) : DemuxLegal .ref s := by
  obtain ⟨⟨hn, hl, size, -, -⟩, ⟨-, table, source, range⟩, planes, -, apart⟩ := legal
  exact ⟨⟨hn, hl, size, Nat.mod_one _, Nat.mod_one _⟩, ⟨Nat.mod_one _, table, source, range⟩,
    fun c hc => ⟨Nat.mod_one _, (planes c hc).2⟩, (fun copies => by cases copies), apart⟩

theorem demuxed_eq (hst : st ≠ .copy) (hst' : st' ≠ .copy) (legal : DemuxLegal st s) (legal' : DemuxLegal st' s)
    (wf : s.mem.wf) : demuxed st s = demuxed st' s := by
  refine memory_ext _ _ (demuxed_wf legal wf) (demuxed_wf legal' wf) fun x => ?_
  by_cases plane : planeBytes s x
  · obtain ⟨c, hc, r, hr, rfl⟩ := plane
    rw [read_demuxed legal hc hr, read_demuxed legal' hc hr, sourceOf_of_ne_copy hst, sourceOf_of_ne_copy hst']
  · rw [read_demuxed_outside legal plane, read_demuxed_outside legal' plane]

theorem exec_demux_eq (hst : st ≠ .copy) (hst' : st' ≠ .copy) (legal : DemuxLegal st s) (legal' : DemuxLegal st' s)
    (wf : s.mem.wf) : exec (.demux st) s = exec (.demux st') s := by
  rw [exec_demux legal, exec_demux legal', afterDemux, afterDemux, demuxed_eq hst hst' legal legal' wf]

theorem checkLayoutOf_of_ne_copy (hst : st ≠ .copy) (s : State) : checkLayoutOf st s = .ok () :=
  (checkLayoutOf_ok st s).2 fun copies => absurd copies hst

/-- Two strategies with the same row of the table make the same checks. -/
theorem demuxChecks_congr (hst : st ≠ .copy) (hst' : st' ≠ .copy) (row : strategyRow st = strategyRow st') (s : State) :
    demuxChecks st s = demuxChecks st' s := by
  rw [demuxChecks_eq, demuxChecks_eq, row, checkLayoutOf_of_ne_copy hst, checkLayoutOf_of_ne_copy hst']

/-- Two strategies with the same row of the table are indistinguishable, faults included. -/
theorem exec_demux_congr (hst : st ≠ .copy) (hst' : st' ≠ .copy) (row : strategyRow st = strategyRow st')
    (wf : s.mem.wf) : exec (.demux st) s = exec (.demux st') s := by
  have same := demuxChecks_congr hst hst' row s
  cases checks : demuxChecks st s with
  | ok table =>
    obtain ⟨legal, -⟩ := (demuxChecks_ok st s table).1 checks
    obtain ⟨legal', -⟩ := (demuxChecks_ok st' s table).1 (same ▸ checks)
    exact exec_demux_eq hst hst' legal legal' wf
  | error f => rw [exec_demux_error st s f checks, exec_demux_error st' s f (same ▸ checks)]

/-! ### Re-run (R162) -/

theorem planeAddress_afterDemux (legal : DemuxLegal st s) {c : Nat} (hc : c < s.n.toNat) :
    planeAddress (afterDemux st s) c = planeAddress s c := by
  have kept : ∀ k < 4, readByte (afterDemux st s) (s.dstp.toNat + (4 * c + k)) =
      readByte s (s.dstp.toNat + (4 * c + k)) := fun k hk =>
    read_demuxed_outside legal (table_not_planeBytes legal (by omega))
  show wordAt (afterDemux st s) (s.dstp.toNat + 4 * c) = wordAt s (s.dstp.toNat + 4 * c)
  simp only [wordAt, Nat.add_assoc]
  rw [show 4 * c = 4 * c + 0 from rfl]
  rw [kept 0 (by decide), kept 1 (by decide), kept 2 (by decide), kept 3 (by decide)]

theorem planeBytes_afterDemux (legal : DemuxLegal st s) {x : Nat} :
    planeBytes (afterDemux st s) x ↔ planeBytes s x := by
  constructor
  · rintro ⟨c, hc, r, hr, rfl⟩
    exact ⟨c, hc, r, hr, by rw [planeAddress_afterDemux legal hc]⟩
  · rintro ⟨c, hc, r, hr, rfl⟩
    exact ⟨c, hc, r, hr, by rw [planeAddress_afterDemux legal hc]⟩

/-- A DEMUX leaves its own checks passing: descriptor, MEM and pointer table are as they were. -/
theorem legal_afterDemux (legal : DemuxLegal st s) : DemuxLegal st (afterDemux st s) := by
  have table : ∀ {c}, c < s.n.toNat → planeAddress (afterDemux st s) c = planeAddress s c :=
    planeAddress_afterDemux legal
  obtain ⟨shape, buffers, planes, layout, apart⟩ := legal
  refine ⟨shape, buffers, fun c hc => ?_, fun copies c hc => ?_, fun c hc overlaps => apart c hc ?_⟩
  · have place := table hc
    unfold PlaneOk
    rw [place]
    exact planes c hc
  · have place := table hc
    have first := table (Nat.zero_lt_of_lt hc)
    unfold PlaneContiguous
    rw [place, first]
    exact layout copies c hc
  · have place := table hc
    unfold PlaneOverlaps at overlaps
    rw [place] at overlaps
    refine overlaps.imp id (Or.imp id ?_)
    rintro ⟨e, he, overlap⟩
    rw [table (he.trans hc)] at overlap
    exact ⟨e, he, overlap⟩

/-- A second run puts the bytes where they are. -/
theorem demuxed_afterDemux (legal : DemuxLegal st s) (wf : s.mem.wf) :
    demuxed st (afterDemux st s) = (afterDemux st s).mem := by
  have again := legal_afterDemux legal
  have wf' : (afterDemux st s).mem.wf := demuxed_wf legal wf
  refine memory_ext _ _ (demuxed_wf again wf') wf' fun x => ?_
  by_cases plane : planeBytes (afterDemux st s) x
  · obtain ⟨c, hc, r, hr, rfl⟩ := plane
    obtain ⟨i, hi, place⟩ := sourceOf_range legal hc hr
    have source : readByte (afterDemux st s) (sourceOf st s c r) = readByte s (sourceOf st s c r) := by
      rw [place]
      exact read_demuxed_outside legal (source_not_planeBytes legal hi)
    calc (demuxed st (afterDemux st s)).read (planeAddress (afterDemux st s) c + r)
        = readByte (afterDemux st s) (sourceOf st s c r) := by
          rw [read_demuxed again hc hr]
          cases st <;> rfl
      _ = (demuxed st s).read (planeAddress s c + r) := by rw [source, read_demuxed legal hc hr]
      _ = (afterDemux st s).mem.read (planeAddress (afterDemux st s) c + r) := by
          rw [planeAddress_afterDemux legal hc]
          rfl
  · exact read_demuxed_outside again plane

end Legal

/-! ### What the checks raise (R153, R154, R155, in the order of R157) -/

section Checks

variable {st : Strategy} {s : State} {f : Raised}

theorem faults_of_demuxChecks {c : Cause} {info : Word} (raised : demuxChecks st s = .error ⟨c, info⟩) :
    Faults (.demux st) s c.code.toNat info :=
  ⟨_, exec_demux_error st s _ raised, takeFault_isFaultEntry s ⟨c, info⟩⟩

theorem demuxChecks_of_shape (raised : checkShape (strategyRow st) (descriptor s) = .error f) :
    demuxChecks st s = .error f := by
  rw [demuxChecks_eq, raised, error_bind]

theorem demuxChecks_of_align (shape : ShapeOk st s) (raised : checkAlign (strategyRow st) (descriptor s) = .error f) :
    demuxChecks st s = .error f := by
  rw [demuxChecks_eq, (checkShape_ok st s).2 shape, ok_bind, raised, error_bind]

theorem demuxChecks_of_source (shape : ShapeOk st s)
    (aligned : s.src.toNat % (strategyRow st).aSrc = 0 ∧ s.dstp.toNat % 4 = 0)
    (raised : checkAccess s s.src.toNat s.len.toNat 1 = .error f) : demuxChecks st s = .error f := by
  rw [demuxChecks_eq, (checkShape_ok st s).2 shape, ok_bind, (checkAlign_ok st s).2 aligned, ok_bind, raised, error_bind]

theorem demuxChecks_of_table (shape : ShapeOk st s)
    (aligned : s.src.toNat % (strategyRow st).aSrc = 0 ∧ s.dstp.toNat % 4 = 0)
    (source : RangeInMem s s.src.toNat s.len.toNat)
    (raised : checkAccess s s.dstp.toNat (4 * s.n.toNat) 1 = .error f) : demuxChecks st s = .error f := by
  rw [demuxChecks_eq, (checkShape_ok st s).2 shape, ok_bind, (checkAlign_ok st s).2 aligned, ok_bind,
    (checkAccess_range s _ _).2 source, ok_bind, raised, error_bind]

/-- With the table read, the checks of the planes, of the layout and of the overlaps decide. -/
theorem demuxChecks_of_tableRead (shape : ShapeOk st s) (buffers : BuffersOk st s) :
    demuxChecks st s =
      (checkPlanes s (strategyRow st) s.l.toNat (readTable s.mem s.dstp.toNat s.n.toNat) >>= fun _ =>
        checkLayoutOf st s >>= fun _ =>
          checkOverlap (descriptor s) (readTable s.mem s.dstp.toNat s.n.toNat) >>= fun _ =>
            .ok (readTable s.mem s.dstp.toNat s.n.toNat)) := by
  obtain ⟨source, table, sourceRange, tableRange⟩ := buffers
  rw [demuxChecks_eq, (checkShape_ok st s).2 shape, ok_bind, (checkAlign_ok st s).2 ⟨source, table⟩, ok_bind,
    (checkAccess_range s _ _).2 sourceRange, ok_bind, (checkAccess_range s _ _).2 tableRange, ok_bind]

/-- The first plane that fails its check decides. -/
theorem demuxChecks_of_plane {c : Nat} (shape : ShapeOk st s) (buffers : BuffersOk st s) (hc : c < s.n.toNat)
    (before : ∀ e < c, PlaneOk st s e)
    (raised : checkAccess s (planeAddress s c) s.l.toNat (strategyRow st).aDst = .error f) :
    demuxChecks st s = .error f := by
  have planes : checkPlanes s (strategyRow st) s.l.toNat (readTable s.mem s.dstp.toNat s.n.toNat) = .error f := by
    refine checkPlanes_error s _ _ _ c f (by rwa [length_readTable]) (fun e he => ?_) ?_
    · rw [getD_readTable s e (he.trans hc)]
      exact before e he
    · rwa [getD_readTable s c hc]
  rw [demuxChecks_of_tableRead shape buffers, planes, error_bind]

theorem demuxChecks_of_layout (shape : ShapeOk st s) (buffers : BuffersOk st s)
    (planes : ∀ c < s.n.toNat, PlaneOk st s c) (raised : checkLayoutOf st s = .error f) :
    demuxChecks st s = .error f := by
  rw [demuxChecks_of_tableRead shape buffers, (checkPlanes_readTable st s).2 planes, ok_bind, raised, error_bind]

theorem demuxChecks_of_overlap (shape : ShapeOk st s) (buffers : BuffersOk st s)
    (planes : ∀ c < s.n.toNat, PlaneOk st s c) (layout : st = .copy → ∀ e < s.n.toNat, PlaneContiguous s e)
    (raised : checkOverlap (descriptor s) (readTable s.mem s.dstp.toNat s.n.toNat) = .error f) :
    demuxChecks st s = .error f := by
  rw [demuxChecks_of_tableRead shape buffers, (checkPlanes_readTable st s).2 planes, ok_bind,
    (checkLayoutOf_ok st s).2 layout, ok_bind, raised, error_bind]

theorem number_le (st : Strategy) : st.number ≤ 13 := by
  cases st <;> decide

/-- A DEMUX word with a bit set in 23:4 or a strategy above 13 is no command (R157 step 1). -/
theorem decode_demux_illegal {w : Word} (op : bits w 31 24 = 0x50) (bad : bits w 23 4 ≠ 0 ∨ bits w 3 0 > 13) (i : Instr) :
    decode w ≠ .ok i := by
  rw [Encoding.bits_eq_field] at op
  rw [Ne, Encoding.decode_demux_iff (Encoding.opcode_of_toNat op)]
  rintro ⟨zero, st, number, -⟩
  rw [Encoding.bits_eq_field, Encoding.bits_eq_field] at bad
  rcases bad with bad | bad
  · exact bad (congrArg BitVec.toNat zero.symm)
  · exact absurd (number ▸ number_le st) (Nat.not_le_of_lt bad)

end Checks

/-! ### The statements -/

/-- Settles O52. -/
theorem demuxMeetsTheContract : Obligations.DemuxMeetsTheContract := fun st s hst legal =>
  ⟨afterDemux st s, exec_demux legal, rfl,
    fun c hc r hr => (read_demuxed legal hc hr).trans (by rw [sourceOf_of_ne_copy hst]),
    frame_afterDemux fun _ => read_demuxed_outside legal⟩

/-- Settles O53: the planes of COPY lie one after another, so that byte i is row i mod L of plane i / L. -/
theorem demuxCopyCopiesTheBlock : Obligations.DemuxCopyCopiesTheBlock := by
  intro s legal
  refine ⟨afterDemux .copy s, exec_demux legal, rfl, fun i hi => ?_, frame_afterDemux fun _ => read_demuxed_outside legal⟩
  have ⟨⟨_, hl, _⟩, _, _, contiguous, _⟩ := legal
  have rows : 0 < s.l.toNat := Nat.pos_of_ne_zero hl
  have hc : i / s.l.toNat < s.n.toNat := Nat.div_lt_of_lt_mul (Nat.mul_comm _ _ ▸ hi)
  have split : i / s.l.toNat * s.l.toNat + i % s.l.toNat = i := Nat.div_add_mod' i s.l.toNat
  have place : planeAddress s (i / s.l.toNat) = planeAddress s 0 + i / s.l.toNat * s.l.toNat :=
    contiguous rfl _ hc
  have byte := read_demuxed legal hc (Nat.mod_lt i rows)
  rwa [place, sourceOf, Nat.add_assoc, Nat.add_assoc, split] at byte

/-- Settles O54: each check decides when those before it pass. -/
theorem demuxChecksInOrder : Obligations.DemuxChecksInOrder := by
  refine ⟨fun w op bad i => decode_demux_illegal op bad i, ?_⟩
  intro st s g n l src dstp p faults aligned tableRead planesOk
  refine ⟨?_, ?_, ?_, ?_, ?_, ?_, ?_, ?_, ?_, ?_, ?_, ?_, ?_, ?_, ?_, ?_⟩
  · intro hn
    exact faults_of_demuxChecks (c := .shape) (demuxChecks_of_shape (if_pos hn))
  · intro hn hl
    exact faults_of_demuxChecks (c := .shape) (demuxChecks_of_shape ((if_neg hn).trans (if_pos hl)))
  · intro hn hl size
    exact faults_of_demuxChecks (c := .shape)
      (demuxChecks_of_shape ((if_neg hn).trans ((if_neg hl).trans (if_pos size))))
  · intro hn hl size channels
    exact faults_of_demuxChecks (c := .granularity) (demuxChecks_of_shape
      ((if_neg hn).trans ((if_neg hl).trans ((if_neg (not_not_intro size)).trans (if_pos channels)))))
  · intro hn hl size channels rows
    exact faults_of_demuxChecks (c := .granularity) (demuxChecks_of_shape
      ((if_neg hn).trans ((if_neg hl).trans ((if_neg (not_not_intro size)).trans
        ((if_neg (not_not_intro channels)).trans (if_pos rows))))))
  · intro shape source
    exact faults_of_demuxChecks (c := .misaligned) (demuxChecks_of_align shape (if_pos source))
  · intro shape source table
    exact faults_of_demuxChecks (c := .misaligned)
      (demuxChecks_of_align shape ((if_neg (not_not_intro source)).trans (if_pos table)))
  · rintro ⟨shape, aligns⟩ top
    exact faults_of_demuxChecks (demuxChecks_of_source shape aligns (checkAccess_top s _ _ 1 (Nat.mod_one _) top))
  · rintro x ⟨shape, aligns⟩ top missing
    exact faults_of_demuxChecks
      (demuxChecks_of_source shape aligns (checkAccess_missing s _ _ 1 x (Nat.mod_one _) top missing))
  · rintro ⟨shape, aligns⟩ source top
    exact faults_of_demuxChecks
      (demuxChecks_of_table shape aligns source (checkAccess_top s _ _ 1 (Nat.mod_one _) top))
  · rintro x ⟨shape, aligns⟩ source top missing
    exact faults_of_demuxChecks
      (demuxChecks_of_table shape aligns source (checkAccess_missing s _ _ 1 x (Nat.mod_one _) top missing))
  · rintro c hc ⟨shape, buffers⟩ before unaligned
    exact faults_of_demuxChecks
      (demuxChecks_of_plane shape buffers hc before (checkAccess_misaligned s _ _ _ unaligned))
  · rintro c hc ⟨shape, buffers⟩ before plane top
    exact faults_of_demuxChecks
      (demuxChecks_of_plane shape buffers hc before (checkAccess_top s _ _ _ plane top))
  · rintro c hc x ⟨shape, buffers⟩ before plane top missing
    exact faults_of_demuxChecks
      (demuxChecks_of_plane shape buffers hc before (checkAccess_missing s _ _ _ x plane top missing))
  · rintro c hc ⟨⟨shape, buffers⟩, planes⟩ rfl before gap
    exact faults_of_demuxChecks (demuxChecks_of_layout shape buffers planes (checkLayout_error s c hc before gap))
  · rintro c hc ⟨⟨shape, buffers⟩, planes⟩ layout before overlaps
    exact faults_of_demuxChecks
      (demuxChecks_of_overlap shape buffers planes layout (checkOverlap_error s c hc before overlaps))

/-- Settles O55. -/
theorem demuxStrategiesAreEquivalent : Obligations.DemuxStrategiesAreEquivalent := fun _ wf =>
  ⟨fun _ hst legal => exec_demux_eq hst (by decide) legal (legal_ref legal) wf,
    exec_demux_congr (by decide) (by decide) rfl wf, exec_demux_congr (by decide) (by decide) rfl wf,
    exec_demux_congr (by decide) (by decide) rfl wf⟩

/-- Settles O56. -/
theorem demuxRerunChangesNothing : Obligations.DemuxRerunChangesNothing := by
  intro st s t wf legal completes
  obtain rfl : afterDemux st s = t := Host.Outcome.next.inj ((exec_demux legal).symm.trans completes)
  have same := demuxed_afterDemux legal wf
  exact ⟨_, exec_demux (legal_afterDemux legal), rfl, same, frame_afterDemux fun _ _ => by rw [same]; rfl⟩

end Sys2Proof.DemuxCommand
end

section
/-! PROOFS. The faults of commands (spec/60_exceptions.md): every well-formed command first reads its register operands in
the order its rule lists them (R309), then checks its data accesses in their order (R311, R312); the first that fails
decides. -/

namespace Sys2Proof.CommandFaults

open Sys2Proof Sys2Proof.Machine Sys2Proof.ResetAndHost Sys2Proof.VectorMemory

/-! ### Checks in a list -/

/-- The checks of the elements of a list, in order. -/
def checkAll {α : Type} (check : α → Check Unit) : List α → Check Unit
  | [] => .ok ()
  | x :: xs => check x >>= fun _ => checkAll check xs

section CheckAll

variable {α : Type} {check : α → Check Unit}

theorem checkAll_ok {xs : List α} (passes : ∀ x ∈ xs, check x = .ok ()) : checkAll check xs = .ok () := by
  induction xs with
  | nil => rfl
  | cons x xs ih =>
    rw [checkAll, passes x List.mem_cons_self, ok_bind]
    exact ih fun y hy => passes y (List.mem_cons_of_mem _ hy)

theorem checkAll_append (xs ys : List α) :
    checkAll check (xs ++ ys) = (checkAll check xs >>= fun _ => checkAll check ys) := by
  induction xs with
  | nil => rfl
  | cons x xs ih => rw [List.cons_append, checkAll, checkAll, ih, bind_assoc]

/-- The first element that fails decides. -/
theorem checkAll_error {before after : List α} {x : α} {f : Raised} (passes : ∀ y ∈ before, check y = .ok ())
    (fails : check x = .error f) : checkAll check (before ++ x :: after) = .error f := by
  rw [checkAll_append, checkAll_ok passes, ok_bind, checkAll, fails, error_bind]

end CheckAll

/-! ### Register operands -/

section Operands

variable {s : State}

/-- The check of a register operand. -/
def checkSource (s : State) : Source → Check Unit
  | .address i => readA s i >>= fun _ => .ok ()
  | .half n h => readHalf s n h >>= fun _ => .ok ()

theorem checkSource_valid {x : Source} (valid : x.Valid s) : checkSource s x = .ok () := by
  cases x with
  | address i => rw [checkSource, readA_valid s i valid, ok_bind]
  | half n h => rw [checkSource, readHalf_valid s n h valid, ok_bind]

theorem checkSource_invalid {x : Source} (invalid : ¬ x.Valid s) :
    checkSource s x = .error ⟨.uninitRead, BitVec.ofNat 32 x.identifier⟩ := by
  cases x with
  | address i =>
    rw [checkSource, readA_invalid s i invalid, error_bind]
    rfl
  | half n h =>
    rw [checkSource, readHalf_invalid s n h invalid, error_bind]
    rfl

theorem readA_eq (s : State) (i : AReg) : readA s i = (checkSource s (.address i) >>= fun _ => .ok s.a[i].data) := by
  by_cases valid : s.a[i].valid = true
  · rw [checkSource, readA_valid s i valid, ok_bind, ok_bind]
  · rw [checkSource, readA_invalid s i valid, error_bind, error_bind]

theorem readHalf_eq (s : State) (n : VReg) (h : Lane) :
    readHalf s n h = (checkSource s (.half n h) >>= fun _ => .ok (half s n h).data) := by
  by_cases valid : (half s n h).valid = true
  · rw [checkSource, readHalf_valid s n h valid, ok_bind, ok_bind]
  · rw [checkSource, readHalf_invalid s n h valid, error_bind, error_bind]

theorem readBoth_eq (s : State) (n : VReg) : readBoth s n =
    (checkAll (checkSource s) (sourceHalves n .w256) >>= fun _ => .ok ((half s n .h0).data, (half s n .h1).data)) := by
  simp only [readBoth, readHalf_eq, sourceHalves, checkAll, bind_assoc, ok_bind, pure_check]

theorem readGroup_eq (s : State) (ns : List VReg) : readGroup s .h0 ns =
    (checkAll (checkSource s) (ns.flatMap (sourceHalves · .w128)) >>= fun _ =>
      .ok (ns.map fun n => (half s n .h0).data)) := by
  induction ns with
  | nil => rfl
  | cons n ns ih =>
    simp only [readGroup, readHalf_eq, ih, List.flatMap_cons, checkAll_append, sourceHalves, checkAll, bind_assoc, ok_bind,
      pure_check, List.map_cons]

theorem readGroupBoth_eq (s : State) (ns : List VReg) : readGroupBoth s ns =
    (checkAll (checkSource s) (ns.flatMap (sourceHalves · .w256)) >>= fun _ =>
      .ok (ns.map fun n => ((half s n .h0).data, (half s n .h1).data))) := by
  induction ns with
  | nil => rfl
  | cons n ns ih =>
    simp only [readGroupBoth, readBoth_eq, ih, List.flatMap_cons, checkAll_append, bind_assoc, ok_bind, pure_check,
      List.map_cons]

theorem sourceGroup_eq (first : VReg) (logStride count : Nat) (w : Width) :
    sourceGroup first logStride count w = (groupRegs first logStride count).flatMap (sourceHalves · w) := by
  rw [groupRegs, List.flatMap_map]
  rfl

end Operands

/-! ### Data accesses -/

/-- CheckAccess on an access of the list. -/
def checkListed (s : State) (x : Access) : Check Unit := checkAccess s x.addr x.count x.align

theorem checkElements_eq (s : State) (ea : Nat → Nat) (ks : List Nat) :
    checkElements s (ks.map ea) = checkAll (checkListed s) (ks.map fun k => ⟨ea k, 4, 4⟩) := by
  induction ks with
  | nil => rfl
  | cons k ks ih => rw [List.map_cons, List.map_cons, checkElements, checkAll, ih, checkListed]

/-! ### What a command checks first -/

/-- The meaning begins with the reads of these operands and then these access checks. -/
def BeginsWith (s : State) (operands : List Source) (accesses : List Access) (meaning : Check State) : Prop :=
  ∃ rest : Check State, meaning =
    (checkAll (checkSource s) operands >>= fun _ => checkAll (checkListed s) accesses >>= fun _ => rest)

section Meanings

variable {s : State}

/-- A command with nothing to read and no access. -/
theorem beginsWith_nil (meaning : Check State) : BeginsWith s [] [] meaning := ⟨meaning, rfl⟩

theorem lanewise1_begins (f : Half → Half) (vd vs : VReg) (w : Width) :
    BeginsWith s (sourceHalves vs w) [] (lanewise1 f vd vs w s) := by
  cases w
  all_goals
    simp only [BeginsWith, lanewise1, readHalf_eq, readBoth_eq, sourceHalves, checkAll, bind_assoc, ok_bind]
    exact ⟨_, rfl⟩

theorem lanewise2_begins (f : Half → Half → Half) (vd va vb : VReg) (w : Width) :
    BeginsWith s (sourceHalves va w ++ sourceHalves vb w) [] (lanewise2 f vd va vb w s) := by
  cases w
  all_goals
    simp only [BeginsWith, lanewise2, readHalf_eq, readBoth_eq, checkAll_append, sourceHalves, checkAll, bind_assoc, ok_bind]
    exact ⟨_, rfl⟩

theorem loadVec_begins (align : Nat) (vd : VReg) (ra : AReg) (w : Width) (imm : BitVec 12) :
    BeginsWith s [.address ra] (vectorAccess s ra imm (widthBytes w) align) (loadVec align vd ra w imm s) := by
  cases w
  all_goals
    simp only [BeginsWith, loadVec, readA_eq, vectorAccess, checkAll, checkListed, bind_assoc, ok_bind]
    exact ⟨_, rfl⟩

theorem storeVec_begins (align : Nat) (vs : VReg) (ra : AReg) (w : Width) (imm : BitVec 12) :
    BeginsWith s (.address ra :: sourceHalves vs w) (vectorAccess s ra imm (widthBytes w) align)
      (storeVec align vs ra w imm s) := by
  cases w
  all_goals
    simp only [BeginsWith, storeVec, readA_eq, readHalf_eq, readBoth_eq, vectorAccess, sourceHalves, checkAll, checkListed,
      widthBytes, bind_assoc, ok_bind]
    exact ⟨_, rfl⟩

theorem groupTranspose_begins (f : List Half → List Half) (dst : List VReg) (first : VReg) (logStride count : Nat)
    (w : Width) :
    BeginsWith s (sourceGroup first logStride count w) []
      (groupTranspose f dst (groupRegs first logStride count) w s) := by
  rw [sourceGroup_eq]
  cases w
  all_goals
    simp only [BeginsWith, groupTranspose, readGroup_eq, readGroupBoth_eq, checkAll, bind_assoc, ok_bind]
    exact ⟨_, rfl⟩

/-- Every well-formed command reads its operands in order, then checks its accesses in order. -/
theorem exec_begins (i : Instr) (s : State) (legal : i.wellFormed = true) :
    ∃ meaning, exec i s = conclude s meaning ∧ BeginsWith s (sources i) (dataAccesses s i) meaning := by
  cases i
  case nop | halt | abort | jmp | lai | csrr | demux =>
    obtain ⟨meaning, ends⟩ := exec_eq_conclude _ s
    exact ⟨meaning, ends, beginsWith_nil meaning⟩
  case vmov | permd | btrn4 => exact ⟨_, rfl, lanewise1_begins ..⟩
  case unpkld | unpkhd | unpklq | unpkhq => exact ⟨_, rfl, lanewise2_begins ..⟩
  case vld | vldu => exact ⟨_, rfl, loadVec_begins ..⟩
  case vst | vstu => exact ⟨_, rfl, storeVec_begins ..⟩
  case trn4d | trn8b | trn16b =>
    refine ⟨_, rfl, ?_⟩
    rw [requireLegal_wellFormed _ legal, ok_bind]
    exact groupTranspose_begins ..
  case trn32b =>
    refine ⟨_, rfl, ?_⟩
    simp only [BeginsWith, sources, sourceGroup_eq, dataAccesses, readGroupBoth_eq, checkAll, bind_assoc, ok_bind]
    exact ⟨_, rfl⟩
  case dbnz | lahi | addai | adda | lda | vldq =>
    refine ⟨_, rfl, ?_⟩
    simp only [BeginsWith, sources, dataAccesses, vectorAccess, readA_eq, checkAll, checkListed, bind_assoc, ok_bind]
    exact ⟨_, rfl⟩
  case csrw =>
    refine ⟨_, rfl, ?_⟩
    simp only [requireLegal_wellFormed _ legal, BeginsWith, sources, dataAccesses, readA_eq, checkAll, bind_assoc, ok_bind]
    exact ⟨_, rfl⟩
  case vstq | vstw =>
    refine ⟨_, rfl, ?_⟩
    simp only [BeginsWith, sources, dataAccesses, vectorAccess, readA_eq, readHalf_eq, laneOfQword_eq, laneOfDword_eq,
      checkAll, checkListed, bind_assoc, ok_bind]
    exact ⟨_, rfl⟩
  case vldg vd ra rt w imm =>
    refine ⟨_, rfl, ?_⟩
    cases w
    all_goals
      simp only [BeginsWith, sources, dataAccesses, readA_eq, checkElements_eq, widthBytes, checkAll, bind_assoc, ok_bind]
      exact ⟨_, rfl⟩
  case comb =>
    refine ⟨_, rfl, ?_⟩
    simp only [BeginsWith, sources, dataAccesses, readHalf_eq, checkAll, bind_assoc, ok_bind]
    exact ⟨_, rfl⟩
  case permb vd vs vc w =>
    refine ⟨_, rfl, ?_⟩
    cases w
    all_goals
      simp only [BeginsWith, sources, dataAccesses, readHalf_eq, readBoth_eq, sourceHalves, checkAll_append, checkAll,
        bind_assoc, ok_bind]
      exact ⟨_, rfl⟩

/-- A command that accesses memory is well formed: its fields are never out of range (30_encoding.md R104). -/
theorem wellFormed_of_access {i : Instr} {x : Access} (listed : x ∈ dataAccesses s i) : i.wellFormed = true := by
  cases i
  case csrw | trn4d | trn8b | trn16b => cases listed
  all_goals rfl

/-- With all operands valid, the first access that fails its check decides. -/
theorem faults_of_access {i : Instr} {before after : List Access} {x : Access} {c : Cause} {info : Word}
    (valid : ∀ y ∈ sources i, y.Valid s) (split : dataAccesses s i = before ++ x :: after)
    (passes : ∀ y ∈ before, y.Ok s) (fails : checkListed s x = .error ⟨c, info⟩) :
    Faults i s c.code.toNat info := by
  have listed : x ∈ dataAccesses s i := split ▸ List.mem_append_right _ List.mem_cons_self
  obtain ⟨meaning, ends, rest, begins⟩ := exec_begins i s (wellFormed_of_access listed)
  have accesses : checkAll (checkListed s) (dataAccesses s i) = .error ⟨c, info⟩ := by
    rw [split]
    exact checkAll_error (fun y hy => (checkAccess_ok s _ _ _).2 (passes y hy)) fails
  refine faults_of_error i s meaning c info ends ?_
  rw [begins, checkAll_ok fun y hy => checkSource_valid (valid y hy), ok_bind, accesses, error_bind]

end Meanings

/-! ### The statements -/

/-- Settles O26. -/
theorem abortRaisesSoftwareAbort : Obligations.AbortRaisesSoftwareAbort := fun imm s =>
  faults_of_error (.abort imm) s (raise .softwareAbort imm.toNat) .softwareAbort _ rfl
    (by rw [raise_eq, BitVec.ofNat_toNat])

/-- Settles O57. -/
theorem firstInvalidOperandFaults : Obligations.FirstInvalidOperandFaults := by
  intro i s before after x legal split valid invalid
  obtain ⟨meaning, ends, rest, begins⟩ := exec_begins i s legal
  have operands := checkAll_error (after := after) (fun y hy => checkSource_valid (valid y hy))
    (checkSource_invalid invalid)
  refine faults_of_error i s meaning .uninitRead _ ends ?_
  rw [begins, split, operands, error_bind]

/-- Settles O58. -/
theorem firstFailingAccessFaults : Obligations.FirstFailingAccessFaults := by
  intro i s before after x valid split passes
  refine ⟨fun unaligned => ?_, fun aligned top => ?_, fun a aligned top missing => ?_⟩
  · exact faults_of_access valid split passes (checkAccess_misaligned s _ _ _ unaligned)
  · exact faults_of_access valid split passes (checkAccess_top s _ _ _ aligned top)
  · exact faults_of_access valid split passes (checkAccess_missing s _ _ _ a aligned top missing)

end Sys2Proof.CommandFaults
end
